-- ==== Sys2Proof/Word.lean ====
section
/-! DEFINITION. The words the spec computes with and their plainest readings: bytes, 32-bit window words, 64-bit hash
words, 256-bit elliptic-curve integers and points, and a byte sequence read as a little-endian or big-endian number. -/

namespace Sys2Proof

/-- A byte (00_scope.md R9). -/
abbrev Byte := BitVec 8

/-- A 32-bit word: a window access, the command word, an MD5 word (20_memory.md R60, 30_encoding.md R80). -/
abbrev Word := BitVec 32

/-- A 64-bit SHA-512 word (45_sha512.md R250). -/
abbrev Word64 := BitVec 64

/-- A 256-bit elliptic-curve register value (00_scope.md R8, EC_WIDTH and SCALAR_WIDTH). -/
abbrev Word256 := BitVec 256

/-- A point of the elliptic-curve unit, a genuine sum type (47_ec.md R293, 10_state.md R34). The stored form inf = 1 with
x or y non-zero, which 10_state.md R34 says is never stored, has no representative. -/
inductive Point where
  | infinity
  | affine (x y : Word256)
  deriving DecidableEq, Repr, Inhabited

/-- Bytes read little-endian: byte 0 is the least significant (00_scope.md R12, `slot`). -/
def leToNat : List Byte → Nat
  | [] => 0
  | b :: bs => b.toNat + 256 * leToNat bs

/-- Bytes read big-endian: byte 0 is the most significant (45_sha512.md R253). -/
def beToNat (bs : List Byte) : Nat := leToNat bs.reverse

/-- `n` bytes of `v`, least significant first (00_scope.md R12, `put_slot`). -/
def natToLe : Nat → Nat → List Byte
  | 0, _ => []
  | n + 1, v => BitVec.ofNat 8 v :: natToLe n (v / 256)

/-- `n` bytes of `v`, most significant first (44_digest.md R226, R227). -/
def natToBe (n v : Nat) : List Byte := (natToLe n v).reverse

end Sys2Proof
end

