-- ==== Sys2Proof/Machine/Layout.lean ====
section
/-! DEFINITION. The host window's map (10_state.md R20): where each register lies and which offsets are storage. -/

namespace Sys2Proof.Machine

/-- Offset of DIN[0] (10_state.md R27). -/
def dinBase : Nat := 0x100

/-- Offset of DOUT[0] (10_state.md R28). -/
def doutBase : Nat := 0x180

/-- Offset of STATE[0] (10_state.md R29). -/
def stateBase : Nat := 0x200

/-- Offset of RK[0].b0 (10_state.md R30). -/
def rkBase : Nat := 0x300

/-- Offset of FEI_K1 (10_state.md R31). -/
def feiK1Addr : Nat := 0x3B0

/-- Offset of FEI_K2 (10_state.md R31). -/
def feiK2Addr : Nat := 0x3B1

/-- The size of the window in bytes (20_memory.md R60). -/
def windowSize : Nat := 0x400

/-- The register a window offset lies in (10_state.md R20). -/
inductive Region where
  | id | ctrl | status | cmd | errcode | din | dout | aesState | rk | fei | reserved
  deriving DecidableEq, Repr

/-- The window's map, by byte offset (10_state.md R20, R26). The word at 0x3B0 is FEI_K1, FEI_K2 and two reserved bytes. -/
def regionOf (off : Nat) : Region :=
  if off < 0x004 then .id
  else if off < 0x008 then .ctrl
  else if off < 0x00C then .status
  else if off < 0x010 then .cmd
  else if off < 0x014 then .errcode
  else if off < 0x100 then .reserved
  else if off < 0x180 then .din
  else if off < 0x200 then .dout
  else if off < 0x210 then .aesState
  else if off < 0x300 then .reserved
  else if off < 0x3B0 then .rk
  else if off < 0x3B4 then .fei
  else .reserved

/-- The offsets that are byte storage: DIN, DOUT, STATE, RK, FEI_K1 and FEI_K2 (10_state.md R27 to R31). -/
def isStorage (off : Nat) : Bool :=
  match regionOf off with
  | .din | .dout | .aesState | .rk => true
  | .fei => off == feiK1Addr || off == feiK2Addr
  | .id | .ctrl | .status | .cmd | .errcode | .reserved => false

end Sys2Proof.Machine
end

