-- ==== Sys2Proof/Config.lean ====
section
/-! DEFINITION. What an implementation fixes (00_scope.md R8) and the free values the spec leaves open
(93_implementation_defined.md U1 to U3, U15, U16). A free value is a constant with no body, so nothing can be proved of
what it is. The constant tables of 10_state.md R40 are in Machine/Tables.lean. -/

namespace Sys2Proof.Config

/-- HAS_TRACE, OPEN: whether the step-trace port is built (00_scope.md R8, 93_implementation_defined.md U16). -/
opaque hasTrace : Bool

/-- CORE_BASE is a multiple of 0x400 (20_memory.md R60) and otherwise OPEN: this is CORE_BASE / 0x400. -/
opaque coreBaseIndex : Nat

/-- CORE_BASE, the physical address of the window (00_scope.md R8, 20_memory.md R60). -/
def coreBase : Nat := 0x400 * coreBaseIndex

/-- CORE_ID, the value of the ID register (00_scope.md R8, 10_state.md R21). -/
def coreId : Word := 0x434E5337

/-- What a read of a window byte nothing has written gives: UNWRITTEN_POLICY = any value, a fresh draw at every step
(10_state.md R42, 93_implementation_defined.md U1). Its arguments are the draw number and the window offset. -/
opaque unwrittenByte : Nat → Nat → Byte

/-- What a read of a point register nothing has written gives (10_state.md R34, R42): draw number, register number. -/
opaque unwrittenPoint : Nat → Nat → Point

/-- What a read of a scalar register nothing has written gives (10_state.md R35, R42): draw number, register number. -/
opaque unwrittenScalar : Nat → Nat → Word256

/-- What a host read of ERRCODE, DOUT, STATE, RK, FEI_K1 or FEI_K2 gives while BUSY = 1 (20_memory.md R67). -/
opaque busyRead : Nat → Word

/-- A curve register after a soft reset abandoned a command that could write it (70_reset_and_hazards.md R372): draw
number, which register. -/
opaque abandonedWord256 : Nat → Nat → Word256

/-- EC_G after a soft reset abandoned an EC_SETBASE (70_reset_and_hazards.md R372). -/
opaque abandonedPoint : Nat → Point

/-- H[i] after a soft reset abandoned a digest command (70_reset_and_hazards.md R372): draw number, index. -/
opaque abandonedHashWord : Nat → Nat → Word64

/-- BUF[i] after a soft reset abandoned a HASH_UPDATE or HASH_FINAL (70_reset_and_hazards.md R372): draw number, index. -/
opaque abandonedBufByte : Nat → Nat → Byte

/-- BUFCNT after a soft reset abandoned a digest command (70_reset_and_hazards.md R372). -/
opaque abandonedBufCnt : Nat → Nat

/-- MSGLEN after a soft reset abandoned a digest command that writes it, so not HASH_FINAL (70_reset_and_hazards.md R372). -/
opaque abandonedMsgLen : Nat → BitVec 128

end Sys2Proof.Config
end

