-- ==== Sys2Proof/Syntax.lean ====
section
/-! DEFINITION. The commands of CORE-CMD (30_encoding.md R83): one constructor per row of spec/opcode_table.json, with
the fields the row lists as its operands. -/

namespace Sys2Proof

/-- A point register number, PR[0..7] (30_encoding.md R81, fields RD, RA, RB). -/
abbrev PReg := Fin 8

/-- A scalar register number, SK[0..3] (30_encoding.md R81, field KS). -/
abbrev SReg := Fin 4

/-- One command (00_scope.md R18). `len` is the LEN field, `rnd` the RND field. -/
inductive Instr where
  | nop
  | feiKey (len : Byte)
  | feiEnc (len : Byte)
  | feiDec (len : Byte)
  | aesKeyexp (len : Byte)
  | aesEnc (len : Byte)
  | aesDec (len : Byte)
  | aesSb
  | aesSr
  | aesMc
  | aesArk (rnd : Fin 16)
  | aesIsb
  | aesIsr
  | aesImc
  | sha512Init
  | md5Init
  | hashUpdate (len : Byte)
  | hashFinal
  | ecSetcurve
  | ecSetbase
  | ecLdpt (rd : PReg)
  | ecStpt (ra : PReg)
  | ecLdk (ks : SReg)
  | ecOncurve (ra : PReg)
  | ecNeg (rd ra : PReg)
  | ecAdd (rd ra rb : PReg)
  | ecDbl (rd ra : PReg)
  | ecMul (rd ra : PReg) (ks : SReg)
  | ecPub (rd : PReg) (ks : SReg)
  | ecEnc (rd ra rb : PReg) (ks : SReg)
  | ecDec (rd ra rb : PReg) (ks : SReg)
  deriving DecidableEq, Repr

end Sys2Proof
end

