-- ==== Sys2Proof/Machine/State.lean ====
section
/-! DEFINITION. The state of the CNSpractice CORE engine as plain data (10_state.md), the reasons a step can stop, and
the state after hardware reset (70_reset_and_hazards.md R371). -/

namespace Sys2Proof.Machine

/-- Why a step ends in a fault. Both are faults of a host's bus access, not of a command. -/
inductive Fault where
  /-- A host access that is not 32 bits wide or not at a multiple of 4: answered with a bus error
  (20_memory.md R61, 93_implementation_defined.md U4). Raised by hostRead and hostWrite. Safe. -/
  | busError
  /-- A host access whose offset lies outside the 1 KiB window (20_memory.md R60): the engine does not answer it.
  Raised by hostRead and hostWrite. Safe. -/
  | outsideWindow
  deriving DecidableEq, Repr

/-- Why a step has no meaning. -/
inductive Refusal where
  /-- The command has no meaning in this model yet. Raised by an arm of exec. Safe. No arm raises it now. -/
  | notModelled (mnemonic : String)
  deriving DecidableEq, Repr

/-- The hash algorithm STATUS.HASH_ALG selects: HALG (10_state.md R23, R36). -/
inductive HashAlg where
  | sha512
  | md5
  deriving DecidableEq, Repr

/-- CTRL's fields (10_state.md R22). SRST always reads 0 and the reserved bits read 0, so neither is stored. -/
structure Ctrl where
  irqEn   : Bool
  traceEn : Bool
  deriving DecidableEq, Repr

/-- STATUS's fields (10_state.md R23). ERR is the same bit as ERRCODE ≠ 0 (10_state.md R41) and is computed from it;
HASH_ALG and HALG are one bit (10_state.md R36). -/
structure Status where
  busy    : Bool
  done    : Bool
  ovr     : Bool
  aesKv   : Bool
  feiKv   : Bool
  ecCv    : Bool
  ecGv    : Bool
  hashAct : Bool
  hashAlg : HashAlg
  deriving DecidableEq, Repr

/-- One trace record (60_exceptions.md R352). -/
structure TraceRecord where
  op      : Byte
  step    : BitVec 16
  payload : List Byte
  deriving DecidableEq, Repr

/-- What reaches the engine from outside, and whose turn it is: the interleaving of host accesses and engine steps
(20_memory.md R68) and the platform's reset (70_reset_and_hazards.md R370), as data. The model's own type. -/
inductive HostInput where
  /-- A host read of `width` bytes at `CORE_BASE + off`. -/
  | read (off width : Nat)
  /-- A host write of `width` bytes at `CORE_BASE + off`. -/
  | write (off width : Nat) (value : Word)
  /-- The engine takes its step before the next host access (nothing happens if it is idle). -/
  | engineTurn
  /-- The platform asserts the reset input. -/
  | hardwareReset
  deriving DecidableEq, Repr

/-- The state of the engine. The last four fields are the model's own: they hold the host's side of the bus and the
number of the next draw. -/
structure State where
  /-- CTRL (10_state.md R22). -/
  ctrl      : Ctrl
  /-- STATUS (10_state.md R23). -/
  status    : Status
  /-- CMD's read-back (10_state.md R24). -/
  cmd       : Word
  /-- PEND, the latched command word (10_state.md R37). -/
  pend      : Word
  /-- ERRCODE bits 7:0 (10_state.md R25). -/
  errcode   : Byte
  /-- DIN, DOUT, STATE, RK, FEI_K1 and FEI_K2 by window offset (10_state.md R27 to R31): the bytes written since reset,
  at strictly rising offsets. -/
  mem       : List Host.Cell
  /-- EC_A, EC_B, EC_P, EC_N (10_state.md R33). -/
  ecA       : Word256
  ecB       : Word256
  ecP       : Word256
  ecN       : Word256
  /-- EC_G (10_state.md R33). -/
  ecG       : Point
  /-- PR[0..7] (10_state.md R34). -/
  pr        : Vector Point 8
  /-- Whether PR[i] has been written since reset (10_state.md R42). -/
  prWritten : Vector Bool 8
  /-- SK[0..3] (10_state.md R35). -/
  sk        : Vector Word256 4
  /-- Whether SK[i] has been written since reset (10_state.md R42). -/
  skWritten : Vector Bool 4
  /-- H[0..7] (10_state.md R36). -/
  h         : Vector Word64 8
  /-- BUF[0..127] (10_state.md R36). -/
  buf       : Vector Byte 128
  /-- BUFCNT (10_state.md R36). -/
  bufCnt    : Nat
  /-- MSGLEN (10_state.md R36). -/
  msgLen    : BitVec 128
  /-- The trace sink, oldest record first (10_state.md R38). -/
  trace     : List TraceRecord
  /-- What reaches the engine next, in order. -/
  inputs    : List HostInput
  /-- The data of the host's last read, none before the first. -/
  readData  : Option Word
  /-- How many draws have been made: the number of the next draw of an unspecified value. -/
  draws     : Nat
  deriving DecidableEq, Repr

/-- The state after a hardware reset (70_reset_and_hazards.md R371), with the given inputs still to come and the given
number of draws made. Window storage holds nothing written; PR and SK are unwritten; the registers the spec gives no
reset value hold zero or Infinity (notes/assumptions/3.md). -/
def State.afterReset (inputs : List HostInput) (readData : Option Word) (draws : Nat) : State where
  ctrl := ⟨false, false⟩
  status := ⟨false, false, false, false, false, false, false, false, .sha512⟩
  cmd := 0
  pend := 0
  errcode := 0
  mem := []
  ecA := 0
  ecB := 0
  ecP := 0
  ecN := 0
  ecG := .infinity
  pr := Vector.replicate 8 .infinity
  prWritten := Vector.replicate 8 false
  sk := Vector.replicate 4 0
  skWritten := Vector.replicate 4 false
  h := Vector.replicate 8 0
  buf := Vector.replicate 128 0
  bufCnt := 0
  msgLen := 0
  trace := []
  inputs := inputs
  readData := readData
  draws := draws

/-- The machine right after hardware reset, with nothing placed outside it (70_reset_and_hazards.md R371). -/
def State.reset : State := State.afterReset [] none 0

/-- The outcomes of one step of this machine. -/
abbrev Outcome := Host.Outcome State Fault Refusal

end Sys2Proof.Machine
end

