-- ==== Sys2Proof/Machine/Ops.lean ====
section
/-! DEFINITION. The named operations over window storage, the elliptic-curve register files, the trace sink and the
command cycle. `State.raise` is the one place a command's error is reported (00_scope.md R12, 40_command_cycle.md R104):
the engine has no traps and no return from one (60_exceptions.md R343). -/

namespace Sys2Proof.Machine

/-- Window storage: (offset, byte) pairs (10_state.md R27 to R31). -/
abbrev Memory := List Host.Cell

namespace Memory

/-- The canonical form: offsets strictly rising, and every offset is byte storage. An unlisted offset is unwritten, so no
listed byte equals what an unlisted offset holds. -/
abbrev wf (m : Memory) : Prop :=
  m.Pairwise (fun c d => c.1 < d.1) ∧ ∀ c ∈ m, isStorage c.1 = true

/-- The byte written at offset `a`, none if nothing has written it (10_state.md R42). -/
def find? (m : Memory) (a : Nat) : Option Byte := List.lookup a m

/-- Consecutive cells from offset `a`. -/
def cells (a : Nat) : List Byte → Memory
  | [] => []
  | b :: bs => (a, b) :: cells (a + 1) bs

/-- Writes bytes at consecutive offsets from `a`. -/
def write (m : Memory) (a : Nat) (bs : List Byte) : Memory :=
  m.filter (fun c => c.1 < a) ++ cells a bs ++ m.filter (fun c => a + bs.length ≤ c.1)

/-- Makes `n` bytes from offset `a` unwritten (70_reset_and_hazards.md R372, 93_implementation_defined.md U3). -/
def erase (m : Memory) (a n : Nat) : Memory := m.filter (fun c => c.1 < a || a + n ≤ c.1)

end Memory

namespace State

/-- The byte written at a storage offset, none if nothing has written it since reset (10_state.md R42). -/
def stored (s : State) (a : Nat) : Option Byte := Memory.find? s.mem a

/-- The byte a read of a storage offset gives: what was written, else the free value of this draw (10_state.md R42,
93_implementation_defined.md U1 `any value`). This is the one place that says what an unlisted offset reads as. -/
def byte (s : State) (a : Nat) : Byte := (s.stored a).getD (Config.unwrittenByte s.draws a)

/-- `n` bytes from offset `a`, in rising order. -/
def bytes (s : State) (a : Nat) : Nat → List Byte
  | 0 => []
  | n + 1 => s.byte a :: s.bytes (a + 1) n

/-- Writes bytes at consecutive storage offsets from `a`. -/
def writeBytes (s : State) (a : Nat) (bs : List Byte) : State := { s with mem := Memory.write s.mem a bs }

/-- Makes `n` bytes of storage from `a` unwritten. -/
def eraseBytes (s : State) (a n : Nat) : State := { s with mem := Memory.erase s.mem a n }

/-- Reads PR[i]; an unwritten register reads as the free value of this draw (10_state.md R34, R42). -/
def readPr (s : State) (i : PReg) : Point :=
  if s.prWritten[i] then s.pr[i] else Config.unwrittenPoint s.draws i.val

/-- Writes PR[i] (47_ec.md R293). -/
def writePr (s : State) (i : PReg) (p : Point) : State :=
  { s with pr := s.pr.set i.val p i.isLt, prWritten := s.prWritten.set i.val true i.isLt }

/-- Makes PR[i] unwritten, as after reset (70_reset_and_hazards.md R372). -/
def forgetPr (s : State) (i : PReg) : State :=
  { s with pr := s.pr.set i.val .infinity i.isLt, prWritten := s.prWritten.set i.val false i.isLt }

/-- Reads SK[i]; an unwritten register reads as the free value of this draw (10_state.md R35, R42). -/
def readSk (s : State) (i : SReg) : Word256 :=
  if s.skWritten[i] then s.sk[i] else Config.unwrittenScalar s.draws i.val

/-- Writes SK[i] (47_ec.md R314). -/
def writeSk (s : State) (i : SReg) (k : Word256) : State :=
  { s with sk := s.sk.set i.val k i.isLt, skWritten := s.skWritten.set i.val true i.isLt }

/-- Makes SK[i] unwritten, as after reset (70_reset_and_hazards.md R372). -/
def forgetSk (s : State) (i : SReg) : State :=
  { s with sk := s.sk.set i.val 0 i.isLt, skWritten := s.skWritten.set i.val false i.isLt }

/-- Records are emitted: HAS_TRACE and CTRL.TRACE_EN = 1 (60_exceptions.md R352). -/
def tracing (s : State) : Bool := s.ctrl.traceEn && Config.hasTrace

/-- Appends the command's records, given as (step, payload), to the trace sink (60_exceptions.md R352). -/
def emit (s : State) (records : List (Nat × List Byte)) : State :=
  if s.tracing then
    { s with trace := s.trace ++
        records.map fun r => ⟨s.pend.setWidth 8, BitVec.ofNat 16 r.1, r.2⟩ }
  else s

/-- Completion: ERRCODE ← code, BUSY ← 0, DONE ← 1; ERR follows ERRCODE (40_command_cycle.md R104). -/
def complete (code : Byte) (s : State) : State :=
  { s with errcode := code, status := { s.status with busy := false, done := true } }

/-- Successful completion (40_command_cycle.md R104). -/
def finish (s : State) : State := s.complete 0

end State

/-- The error kinds (60_exceptions.md R340). -/
inductive ErrorKind where
  | invalidKeyLength
  | invalidBlockLength
  /-- Reserved: RC4 is out of scope, so it is never raised (60_exceptions.md R340). -/
  | emptyKey
  | pointNotOnCurve
  | singularCurve
  | nonInvertible
  | illegalCommand
  | notConfigured
  deriving DecidableEq, Repr

/-- The error codes (60_exceptions.md R340). -/
def ErrorKind.code : ErrorKind → Byte
  | .invalidKeyLength => 0x01
  | .invalidBlockLength => 0x02
  | .emptyKey => 0x03
  | .pointNotOnCurve => 0x04
  | .singularCurve => 0x05
  | .nonInvertible => 0x06
  | .illegalCommand => 0x10
  | .notConfigured => 0x11

namespace State

/-- `raise e`: the command ends with error `e`, and completion writes ERRCODE, BUSY and DONE and nothing else
(00_scope.md R12, 40_command_cycle.md R104, R105; 60_exceptions.md R343). -/
def raise (e : ErrorKind) (s : State) : State := s.complete e.code

/-- Issue: PEND ← W, CMD ← W, BUSY ← 1, DONE ← 0 (40_command_cycle.md R101). -/
def issue (w : Word) (s : State) : State :=
  { s with pend := w, cmd := w, status := { s.status with busy := true, done := false } }

/-- A host write was ignored because BUSY = 1 (20_memory.md R66). -/
def setOvr (s : State) : State := { s with status := { s.status with ovr := true } }

/-- One more step of the engine or one more host access has used its draw. -/
def tick (s : State) : State := { s with draws := s.draws + 1 }

end State

end Sys2Proof.Machine
end

