-- ==== Sys2Proof/Machine/Flags.lean ====
section
/-! DEFINITION. STATUS and CTRL as words, the interrupt output, and the writes of the validity flags (10_state.md R22,
R23, R39; 60_exceptions.md R347). -/

namespace Sys2Proof.Machine

/-- HASH_ALG as a bit: 0 SHA-512, 1 MD5 (10_state.md R36). -/
def HashAlg.bit : HashAlg → Bool
  | .sha512 => false
  | .md5 => true

namespace State

/-- STATUS.ERR: always equals (ERRCODE ≠ 0) (10_state.md R23, R41). -/
def err (s : State) : Bool := s.errcode != 0

/-- The IRQ output: DONE and IRQ_EN, at every moment (60_exceptions.md R347). -/
def irq (s : State) : Bool := s.status.done && s.ctrl.irqEn

/-- A word with bit `i` set to `b` and every other bit 0. -/
def bitAt (i : Nat) (b : Bool) : Word := if b then 1#32 <<< i else 0

/-- STATUS as the host reads it; bits 31:10 read 0 (10_state.md R23). -/
def statusWord (s : State) : Word :=
  bitAt 0 s.status.busy ||| bitAt 1 s.status.done ||| bitAt 2 s.err ||| bitAt 3 s.status.ovr |||
  bitAt 4 s.status.aesKv ||| bitAt 5 s.status.feiKv ||| bitAt 6 s.status.ecCv ||| bitAt 7 s.status.ecGv |||
  bitAt 8 s.status.hashAct ||| bitAt 9 s.status.hashAlg.bit

/-- CTRL as the host reads it; bits 31:2 read 0 (10_state.md R22). -/
def ctrlWord (s : State) : Word := bitAt 0 s.ctrl.irqEn ||| bitAt 1 s.ctrl.traceEn

/-- Writes AES_KV (10_state.md R23). -/
def setAesKv (b : Bool) (s : State) : State := { s with status := { s.status with aesKv := b } }

/-- Writes FEI_KV (10_state.md R23). -/
def setFeiKv (b : Bool) (s : State) : State := { s with status := { s.status with feiKv := b } }

/-- Writes EC_CV and EC_GV (10_state.md R23; every EC_SETCURVE writes both). -/
def setEcValid (cv gv : Bool) (s : State) : State := { s with status := { s.status with ecCv := cv, ecGv := gv } }

/-- Writes EC_GV (10_state.md R23). -/
def setEcGv (b : Bool) (s : State) : State := { s with status := { s.status with ecGv := b } }

/-- Writes HASH_ACT (10_state.md R23). -/
def setHashAct (b : Bool) (s : State) : State := { s with status := { s.status with hashAct := b } }

/-- Writes HASH_ALG and sets HASH_ACT (44_digest.md R221, R222). -/
def startHash (alg : HashAlg) (s : State) : State :=
  { s with status := { s.status with hashAct := true, hashAlg := alg } }

end State

end Sys2Proof.Machine
end

