-- ==== Sys2Proof/Machine/Operands.lean ====
section
/-! DEFINITION. The operand forms: what a command reads from DIN, STATE and the key storage, and how its results are laid
out in DOUT (00_scope.md R12, 41_feistel.md R131, 42_aes_key_expansion.md R156, R157, 43_aes_rounds.md R180). -/

namespace Sys2Proof.Machine

/-- The AES state matrix, byte i = row i mod 4, column i div 4 (43_aes_rounds.md R180). -/
abbrev Block := Vector Byte 16

namespace State

/-- DIN[i] (10_state.md R27). -/
def din (s : State) (i : Nat) : Byte := s.byte (dinBase + i)

/-- DIN[0 .. n-1] (40_command_cycle.md R110). -/
def dinBytes (s : State) (n : Nat) : List Byte := s.bytes dinBase n

/-- `slot(i)`: DIN[32i .. 32i+31] little-endian (00_scope.md R12). -/
def slot (s : State) (i : Nat) : Nat := leToNat (s.bytes (dinBase + 32 * i) 32)

/-- `put_slot(i, v)`'s bytes: 32 bytes little-endian (00_scope.md R12). -/
def putSlot (v : Nat) : List Byte := natToLe 32 v

/-- Sixteen storage bytes from `a` as a block (43_aes_rounds.md R180). -/
def block (s : State) (a : Nat) : Block := Vector.ofFn fun i : Fin 16 => s.byte (a + i.val)

/-- DIN[0..15] as a block or a key (42_aes_key_expansion.md R157, 43_aes_rounds.md R190). -/
def dinBlock (s : State) : Block := s.block dinBase

/-- STATE[0..15] (10_state.md R29). -/
def aesState (s : State) : Block := s.block stateBase

/-- Writes STATE[0..15] (10_state.md R29). -/
def writeAesState (s : State) (b : Block) : State := s.writeBytes stateBase b.toList

/-- Round key k, the 16 bytes RK[4k].b0 .. RK[4k+3].b3 (42_aes_key_expansion.md R162). -/
def roundKey (s : State) (k : Nat) : Block := s.block (rkBase + 16 * k)

/-- Writes DOUT[i ..] (10_state.md R28). -/
def writeDout (s : State) (i : Nat) (bs : List Byte) : State := s.writeBytes (doutBase + i) bs

/-- The 10-bit Feistel key DIN[1][1:0] ‖ DIN[0] (41_feistel.md R131). -/
def feistelKey (s : State) : BitVec 10 := (s.din 1).extractLsb' 0 2 ++ s.din 0

/-- FEI_K1 (10_state.md R31). -/
def feiK1 (s : State) : Byte := s.byte feiK1Addr

/-- FEI_K2 (10_state.md R31). -/
def feiK2 (s : State) : Byte := s.byte feiK2Addr

end State

end Sys2Proof.Machine
end

