-- ==== Sys2Proof/Machine/Tables.lean ====
section
/-! DEFINITION. The constant tables (10_state.md R40): configuration, not state, and never changed. They stand here, as
definitions of the namespace Config, copied from the spec's text. -/

namespace Sys2Proof.Config

/-- P10 (41_feistel.md R120). -/
def p10 : List Nat := [3, 5, 2, 7, 4, 10, 1, 9, 8, 6]

/-- P8 (41_feistel.md R120). -/
def p8 : List Nat := [6, 3, 7, 4, 8, 5, 10, 9]

/-- IP (41_feistel.md R120). -/
def ip : List Nat := [2, 6, 3, 1, 4, 8, 5, 7]

/-- IP⁻¹ (41_feistel.md R120; 90_conflicts.md C1). -/
def ipInv : List Nat := [4, 1, 3, 5, 7, 2, 8, 6]

/-- EP (41_feistel.md R120). -/
def ep : List Nat := [4, 1, 2, 3, 2, 3, 4, 1]

/-- P4 (41_feistel.md R120). -/
def p4 : List Nat := [2, 4, 3, 1]

/-- S0, indexed row then column (41_feistel.md R120). -/
def s0 : List (List (BitVec 2)) := [[1, 0, 3, 2], [3, 2, 1, 0], [0, 2, 1, 3], [3, 1, 3, 2]]

/-- S1, indexed row then column (41_feistel.md R120). -/
def s1 : List (List (BitVec 2)) := [[0, 1, 2, 3], [2, 0, 1, 3], [3, 0, 1, 0], [2, 1, 0, 3]]

/-- The AES S-box, row r holding SBOX[16r] .. SBOX[16r+15] (42_aes_key_expansion.md R152). -/
def sboxRows : List (List Byte) :=
  [
    [0x63, 0x7c, 0x77, 0x7b, 0xf2, 0x6b, 0x6f, 0xc5, 0x30, 0x01, 0x67, 0x2b, 0xfe, 0xd7, 0xab, 0x76],
    [0xca, 0x82, 0xc9, 0x7d, 0xfa, 0x59, 0x47, 0xf0, 0xad, 0xd4, 0xa2, 0xaf, 0x9c, 0xa4, 0x72, 0xc0],
    [0xb7, 0xfd, 0x93, 0x26, 0x36, 0x3f, 0xf7, 0xcc, 0x34, 0xa5, 0xe5, 0xf1, 0x71, 0xd8, 0x31, 0x15],
    [0x04, 0xc7, 0x23, 0xc3, 0x18, 0x96, 0x05, 0x9a, 0x07, 0x12, 0x80, 0xe2, 0xeb, 0x27, 0xb2, 0x75]] ++
  [
    [0x09, 0x83, 0x2c, 0x1a, 0x1b, 0x6e, 0x5a, 0xa0, 0x52, 0x3b, 0xd6, 0xb3, 0x29, 0xe3, 0x2f, 0x84],
    [0x53, 0xd1, 0x00, 0xed, 0x20, 0xfc, 0xb1, 0x5b, 0x6a, 0xcb, 0xbe, 0x39, 0x4a, 0x4c, 0x58, 0xcf],
    [0xd0, 0xef, 0xaa, 0xfb, 0x43, 0x4d, 0x33, 0x85, 0x45, 0xf9, 0x02, 0x7f, 0x50, 0x3c, 0x9f, 0xa8],
    [0x51, 0xa3, 0x40, 0x8f, 0x92, 0x9d, 0x38, 0xf5, 0xbc, 0xb6, 0xda, 0x21, 0x10, 0xff, 0xf3, 0xd2]] ++
  [
    [0xcd, 0x0c, 0x13, 0xec, 0x5f, 0x97, 0x44, 0x17, 0xc4, 0xa7, 0x7e, 0x3d, 0x64, 0x5d, 0x19, 0x73],
    [0x60, 0x81, 0x4f, 0xdc, 0x22, 0x2a, 0x90, 0x88, 0x46, 0xee, 0xb8, 0x14, 0xde, 0x5e, 0x0b, 0xdb],
    [0xe0, 0x32, 0x3a, 0x0a, 0x49, 0x06, 0x24, 0x5c, 0xc2, 0xd3, 0xac, 0x62, 0x91, 0x95, 0xe4, 0x79],
    [0xe7, 0xc8, 0x37, 0x6d, 0x8d, 0xd5, 0x4e, 0xa9, 0x6c, 0x56, 0xf4, 0xea, 0x65, 0x7a, 0xae, 0x08]] ++
  [
    [0xba, 0x78, 0x25, 0x2e, 0x1c, 0xa6, 0xb4, 0xc6, 0xe8, 0xdd, 0x74, 0x1f, 0x4b, 0xbd, 0x8b, 0x8a],
    [0x70, 0x3e, 0xb5, 0x66, 0x48, 0x03, 0xf6, 0x0e, 0x61, 0x35, 0x57, 0xb9, 0x86, 0xc1, 0x1d, 0x9e],
    [0xe1, 0xf8, 0x98, 0x11, 0x69, 0xd9, 0x8e, 0x94, 0x9b, 0x1e, 0x87, 0xe9, 0xce, 0x55, 0x28, 0xdf],
    [0x8c, 0xa1, 0x89, 0x0d, 0xbf, 0xe6, 0x42, 0x68, 0x41, 0x99, 0x2d, 0x0f, 0xb0, 0x54, 0xbb, 0x16]]

/-- The inverse S-box, row r holding INV_SBOX[16r] .. INV_SBOX[16r+15] (42_aes_key_expansion.md R154). -/
def invSboxRows : List (List Byte) :=
  [
    [0x52, 0x09, 0x6a, 0xd5, 0x30, 0x36, 0xa5, 0x38, 0xbf, 0x40, 0xa3, 0x9e, 0x81, 0xf3, 0xd7, 0xfb],
    [0x7c, 0xe3, 0x39, 0x82, 0x9b, 0x2f, 0xff, 0x87, 0x34, 0x8e, 0x43, 0x44, 0xc4, 0xde, 0xe9, 0xcb],
    [0x54, 0x7b, 0x94, 0x32, 0xa6, 0xc2, 0x23, 0x3d, 0xee, 0x4c, 0x95, 0x0b, 0x42, 0xfa, 0xc3, 0x4e],
    [0x08, 0x2e, 0xa1, 0x66, 0x28, 0xd9, 0x24, 0xb2, 0x76, 0x5b, 0xa2, 0x49, 0x6d, 0x8b, 0xd1, 0x25]] ++
  [
    [0x72, 0xf8, 0xf6, 0x64, 0x86, 0x68, 0x98, 0x16, 0xd4, 0xa4, 0x5c, 0xcc, 0x5d, 0x65, 0xb6, 0x92],
    [0x6c, 0x70, 0x48, 0x50, 0xfd, 0xed, 0xb9, 0xda, 0x5e, 0x15, 0x46, 0x57, 0xa7, 0x8d, 0x9d, 0x84],
    [0x90, 0xd8, 0xab, 0x00, 0x8c, 0xbc, 0xd3, 0x0a, 0xf7, 0xe4, 0x58, 0x05, 0xb8, 0xb3, 0x45, 0x06],
    [0xd0, 0x2c, 0x1e, 0x8f, 0xca, 0x3f, 0x0f, 0x02, 0xc1, 0xaf, 0xbd, 0x03, 0x01, 0x13, 0x8a, 0x6b]] ++
  [
    [0x3a, 0x91, 0x11, 0x41, 0x4f, 0x67, 0xdc, 0xea, 0x97, 0xf2, 0xcf, 0xce, 0xf0, 0xb4, 0xe6, 0x73],
    [0x96, 0xac, 0x74, 0x22, 0xe7, 0xad, 0x35, 0x85, 0xe2, 0xf9, 0x37, 0xe8, 0x1c, 0x75, 0xdf, 0x6e],
    [0x47, 0xf1, 0x1a, 0x71, 0x1d, 0x29, 0xc5, 0x89, 0x6f, 0xb7, 0x62, 0x0e, 0xaa, 0x18, 0xbe, 0x1b],
    [0xfc, 0x56, 0x3e, 0x4b, 0xc6, 0xd2, 0x79, 0x20, 0x9a, 0xdb, 0xc0, 0xfe, 0x78, 0xcd, 0x5a, 0xf4]] ++
  [
    [0x1f, 0xdd, 0xa8, 0x33, 0x88, 0x07, 0xc7, 0x31, 0xb1, 0x12, 0x10, 0x59, 0x27, 0x80, 0xec, 0x5f],
    [0x60, 0x51, 0x7f, 0xa9, 0x19, 0xb5, 0x4a, 0x0d, 0x2d, 0xe5, 0x7a, 0x9f, 0x93, 0xc9, 0x9c, 0xef],
    [0xa0, 0xe0, 0x3b, 0x4d, 0xae, 0x2a, 0xf5, 0xb0, 0xc8, 0xeb, 0xbb, 0x3c, 0x83, 0x53, 0x99, 0x61],
    [0x17, 0x2b, 0x04, 0x7e, 0xba, 0x77, 0xd6, 0x26, 0xe1, 0x69, 0x14, 0x63, 0x55, 0x21, 0x0c, 0x7d]]

/-- Rcon[1..10] (42_aes_key_expansion.md R155); Rcon[0] is never used and is held as 0. -/
def rcon : List Byte := [0x00, 0x01, 0x02, 0x04, 0x08, 0x10, 0x20, 0x40, 0x80, 0x1B, 0x36]

/-- The MixColumns matrix M, row-major (43_aes_rounds.md R183). -/
def mixMatrix : List (List Byte) := [[2, 3, 1, 1], [1, 2, 3, 1], [1, 1, 2, 3], [3, 1, 1, 2]]

/-- The inverse MixColumns matrix IM, row-major (43_aes_rounds.md R186). -/
def invMixMatrix : List (List Byte) :=
  [[0x0e, 0x0b, 0x0d, 0x09], [0x09, 0x0e, 0x0b, 0x0d], [0x0d, 0x09, 0x0e, 0x0b], [0x0b, 0x0d, 0x09, 0x0e]]

/-- The `n` words, of `w` bits each, of one printed line of a table: the leftmost, which is the most significant part, is
the first. -/
def lineWords (n w : Nat) (line : BitVec 256) : List (BitVec w) :=
  (List.range n).map fun j => line.extractLsb' (w * (n - 1 - j)) w

/-- IV512[0..7] (45_sha512.md R251). -/
def iv512 : Vector Word64 8 :=
  #v[0x6a09e667f3bcc908, 0xbb67ae8584caa73b, 0x3c6ef372fe94f82b, 0xa54ff53a5f1d36f1,
     0x510e527fade682d1, 0x9b05688c2b3e6c1f, 0x1f83d9abfb41bd6b, 0x5be0cd19137e2179]

/-- The table of K512 as it is printed: line r is the four words K[4r] .. K[4r+3] (45_sha512.md R252). -/
def k512Lines : List (BitVec 256) :=
  [
    0x428a2f98d728ae22_7137449123ef65cd_b5c0fbcfec4d3b2f_e9b5dba58189dbbc,
    0x3956c25bf348b538_59f111f1b605d019_923f82a4af194f9b_ab1c5ed5da6d8118,
    0xd807aa98a3030242_12835b0145706fbe_243185be4ee4b28c_550c7dc3d5ffb4e2,
    0x72be5d74f27b896f_80deb1fe3b1696b1_9bdc06a725c71235_c19bf174cf692694,
    0xe49b69c19ef14ad2_efbe4786384f25e3_0fc19dc68b8cd5b5_240ca1cc77ac9c65,
    0x2de92c6f592b0275_4a7484aa6ea6e483_5cb0a9dcbd41fbd4_76f988da831153b5,
    0x983e5152ee66dfab_a831c66d2db43210_b00327c898fb213f_bf597fc7beef0ee4,
    0xc6e00bf33da88fc2_d5a79147930aa725_06ca6351e003826f_142929670a0e6e70,
    0x27b70a8546d22ffc_2e1b21385c26c926_4d2c6dfc5ac42aed_53380d139d95b3df,
    0x650a73548baf63de_766a0abb3c77b2a8_81c2c92e47edaee6_92722c851482353b] ++
  [
    0xa2bfe8a14cf10364_a81a664bbc423001_c24b8b70d0f89791_c76c51a30654be30,
    0xd192e819d6ef5218_d69906245565a910_f40e35855771202a_106aa07032bbd1b8,
    0x19a4c116b8d2d0c8_1e376c085141ab53_2748774cdf8eeb99_34b0bcb5e19b48a8,
    0x391c0cb3c5c95a63_4ed8aa4ae3418acb_5b9cca4f7763e373_682e6ff3d6b2b8a3,
    0x748f82ee5defb2fc_78a5636f43172f60_84c87814a1f0ab72_8cc702081a6439ec,
    0x90befffa23631e28_a4506cebde82bde9_bef9a3f7b2c67915_c67178f2e372532b,
    0xca273eceea26619c_d186b8c721c0c207_eada7dd6cde0eb1e_f57d4f7fee6ed178,
    0x06f067aa72176fba_0a637dc5a2c898a6_113f9804bef90dae_1b710b35131c471b,
    0x28db77f523047d84_32caab7b40c72493_3c9ebe0a15c9bebc_431d67c49c100d4c,
    0x4cc5d4becb3e42b6_597f299cfc657e2a_5fcb6fab3ad6faec_6c44198c4a475817]

/-- K512[0..79] (45_sha512.md R252). -/
def k512 : List Word64 := k512Lines.flatMap (lineWords 4 64)

/-- IV5[0..3] (46_md5.md R271). -/
def iv5 : List Word := [0x67452301, 0xefcdab89, 0x98badcfe, 0x10325476]

/-- The table of T as it is printed: line r is the eight words T[8r] .. T[8r+7] (46_md5.md R272). -/
def t5Lines : List (BitVec 256) :=
  [
    0xd76aa478_e8c7b756_242070db_c1bdceee_f57c0faf_4787c62a_a8304613_fd469501,
    0x698098d8_8b44f7af_ffff5bb1_895cd7be_6b901122_fd987193_a679438e_49b40821,
    0xf61e2562_c040b340_265e5a51_e9b6c7aa_d62f105d_02441453_d8a1e681_e7d3fbc8,
    0x21e1cde6_c33707d6_f4d50d87_455a14ed_a9e3e905_fcefa3f8_676f02d9_8d2a4c8a,
    0xfffa3942_8771f681_6d9d6122_fde5380c_a4beea44_4bdecfa9_f6bb4b60_bebfbc70,
    0x289b7ec6_eaa127fa_d4ef3085_04881d05_d9d4d039_e6db99e5_1fa27cf8_c4ac5665,
    0xf4292244_432aff97_ab9423a7_fc93a039_655b59c3_8f0ccc92_ffeff47d_85845dd1,
    0x6fa87e4f_fe2ce6e0_a3014314_4e0811a1_f7537e82_bd3af235_2ad7d2bb_eb86d391]

/-- T[0..63] (46_md5.md R272). -/
def t5 : List Word := t5Lines.flatMap (lineWords 8 32)

/-- The shift amounts of one row of R273, repeating by i mod 4 (46_md5.md R273). -/
def s5 : List (List Nat) := [[7, 12, 17, 22], [5, 9, 14, 20], [4, 11, 16, 23], [6, 10, 15, 21]]

end Sys2Proof.Config
end

