-- ==== Sys2Proof/Machine/AesKey.lean ====
section
/-! DEFINITION. The AES key-expansion unit (42_aes_key_expansion.md): GF(2^8), the substitution tables, the Rijndael
schedule, AES_KEYEXP. -/

namespace Sys2Proof.Machine

namespace Aes

/-- `xtime(a)`: multiplication by x, reduced by 0x11B (42_aes_key_expansion.md R151). -/
def xtime (a : Byte) : Byte :=
  let t : BitVec 9 := a.setWidth 9 <<< 1
  (if t.getLsbD 8 then t ^^^ 0x11B#9 else t).setWidth 8

/-- The loop of `gmul` from bit `i` on, `n` bits left (42_aes_key_expansion.md R151). -/
def gmulFrom (b : Byte) : Nat → Nat → Byte → Byte → Byte
  | 0, _, _, r => r
  | n + 1, i, a, r => gmulFrom b n (i + 1) (xtime a) (if b.getLsbD i then r ^^^ a else r)

/-- `a ⊗ b` in GF(2^8) (42_aes_key_expansion.md R151). -/
def gmul (a b : Byte) : Byte := gmulFrom b 8 0 a 0

/-- Entry `16·r + c` of a table held by rows (42_aes_key_expansion.md R152). -/
def entry (rows : List (List Byte)) (x : Byte) : Byte := (rows.getD (x.toNat / 16) []).getD (x.toNat % 16) 0

/-- SBOX[x] (42_aes_key_expansion.md R152). -/
def sbox (x : Byte) : Byte := entry Config.sboxRows x

/-- INV_SBOX[x] (42_aes_key_expansion.md R154). -/
def invSbox (x : Byte) : Byte := entry Config.invSboxRows x

/-- A schedule word (b0, b1, b2, b3), b0 the first byte (42_aes_key_expansion.md R156). -/
abbrev KeyWord := Vector Byte 4

/-- `^` on words is byte-wise (42_aes_key_expansion.md R156). -/
def xorWord (u v : KeyWord) : KeyWord := Vector.ofFn fun i : Fin 4 => u[i] ^^^ v[i]

/-- RotWord: one byte towards the first position (42_aes_key_expansion.md R158). -/
def rotWord (w : KeyWord) : KeyWord := #v[w[1], w[2], w[3], w[0]]

/-- SubWord: the S-box on every byte (42_aes_key_expansion.md R159). -/
def subWord (w : KeyWord) : KeyWord := #v[sbox w[0], sbox w[1], sbox w[2], sbox w[3]]

/-- The round constant as a word (42_aes_key_expansion.md R155). -/
def rconWord (j : Nat) : KeyWord := #v[Config.rcon.getD j 0, 0, 0, 0]

/-- A word of zeros, what a read past a list's end gives; no rule reads there. -/
def zeroWord : KeyWord := #v[0, 0, 0, 0]

/-- w[i] from the words before it, `ws` holding w[0 .. i-1] (42_aes_key_expansion.md R160). -/
def nextWord (ws : List KeyWord) (i : Nat) : KeyWord :=
  let t := ws.getD (i - 1) zeroWord
  let t := if i % 4 = 0 then xorWord (subWord (rotWord t)) (rconWord (i / 4)) else t
  xorWord (ws.getD (i - 4) zeroWord) t

/-- w[0..3] directly from the key (42_aes_key_expansion.md R157). -/
def keyWords (key : Block) : List KeyWord :=
  [#v[key[0], key[1], key[2], key[3]], #v[key[4], key[5], key[6], key[7]],
   #v[key[8], key[9], key[10], key[11]], #v[key[12], key[13], key[14], key[15]]]

/-- The 44 words of the schedule (42_aes_key_expansion.md R160). -/
def schedule (key : Block) : List KeyWord :=
  (List.range' 4 40).foldl (fun ws i => ws ++ [nextWord ws i]) (keyWords key)

/-- The bytes of a list of words in RK's order: word i byte j is byte 4i + j (10_state.md R30). -/
def scheduleBytes (ws : List KeyWord) : List Byte := ws.flatMap Vector.toList

/-- The eleven records of AES_KEYEXP (42_aes_key_expansion.md R161). -/
def keyRecords (ws : List KeyWord) : List (Nat × List Byte) :=
  (List.range 11).map fun r => (r, scheduleBytes ((ws.drop (4 * r)).take 4))

end Aes

/-- AES_KEYEXP (42_aes_key_expansion.md R160; records R161). -/
def execAesKeyexp (len : Byte) (s : State) : Outcome :=
  if len ≠ 16 then .next ((s.setAesKv false).raise .invalidKeyLength)
  else
    let ws := Aes.schedule s.dinBlock
    .next ((((s.emit (Aes.keyRecords ws)).writeBytes rkBase (Aes.scheduleBytes ws)).setAesKv true).finish)

end Sys2Proof.Machine
end

