-- ==== Sys2Proof/Machine/AesRounds.lean ====
section
/-! DEFINITION. The AES round pipeline (43_aes_rounds.md): the transforms and their inverses, the cipher and its inverse,
AES_ENC, AES_DEC and the step commands. -/

namespace Sys2Proof.Machine

namespace Aes

/-- `s[r][c]` is STATE[r + 4c] (43_aes_rounds.md R180). -/
def el (b : Block) (r c : Fin 4) : Byte := b[r.val + 4 * c.val]'(by omega)

/-- The block whose element in row r, column c is `g r c` (43_aes_rounds.md R180). -/
def grid (g : Fin 4 → Fin 4 → Byte) : Block :=
  Vector.ofFn fun i : Fin 16 => g ⟨i.val % 4, by omega⟩ ⟨i.val / 4, by omega⟩

/-- SubBytes (43_aes_rounds.md R181). -/
def subBytes (b : Block) : Block := grid fun r c => sbox (el b r c)

/-- ShiftRows: s'[r][c] = s[r][(c + r) mod 4] (43_aes_rounds.md R182). -/
def shiftRows (b : Block) : Block := grid fun r c => el b r (c + r)

/-- Each column multiplied by a matrix over GF(2^8), the old column on the right-hand side (43_aes_rounds.md R183). -/
def mulColumns (m : List (List Byte)) (b : Block) : Block :=
  grid fun r c =>
    let row := m.getD r.val []
    gmul (row.getD 0 0) (el b 0 c) ^^^ gmul (row.getD 1 0) (el b 1 c) ^^^
    gmul (row.getD 2 0) (el b 2 c) ^^^ gmul (row.getD 3 0) (el b 3 c)

/-- MixColumns (43_aes_rounds.md R183). -/
def mixColumns (b : Block) : Block := mulColumns Config.mixMatrix b

/-- AddRoundKey: the round key XORed byte for byte onto the state (43_aes_rounds.md R184). -/
def addRoundKey (key b : Block) : Block := Vector.ofFn fun i : Fin 16 => b[i] ^^^ key[i]

/-- InvShiftRows: s'[r][c] = s[r][(c - r) mod 4] (43_aes_rounds.md R185). -/
def invShiftRows (b : Block) : Block := grid fun r c => el b r (c - r)

/-- InvMixColumns (43_aes_rounds.md R186). -/
def invMixColumns (b : Block) : Block := mulColumns Config.invMixMatrix b

/-- InvSubBytes (43_aes_rounds.md R187). -/
def invSubBytes (b : Block) : Block := grid fun r c => invSbox (el b r c)

/-- One middle round of the cipher (43_aes_rounds.md R188). -/
def encRound (key b : Block) : Block := addRoundKey key (mixColumns (shiftRows (subBytes b)))

/-- The states after each of the given middle rounds in turn (43_aes_rounds.md R188, R199). -/
def encRounds (rk : Nat → Block) : List Nat → Block → List Block
  | [], _ => []
  | r :: rs, b =>
    let b' := encRound (rk r) b
    b' :: encRounds rk rs b'

/-- The last round: no MixColumns (43_aes_rounds.md R188). -/
def encLastRound (key b : Block) : Block := addRoundKey key (shiftRows (subBytes b))

/-- The eleven states after AddRoundKey(0) .. AddRoundKey(10), in order (43_aes_rounds.md R188, R199). -/
def cipherStates (rk : Nat → Block) (b : Block) : List Block :=
  let first := addRoundKey (rk 0) b
  let middle := encRounds rk [1, 2, 3, 4, 5, 6, 7, 8, 9] first
  first :: middle ++ [encLastRound (rk 10) (middle.getLastD first)]

/-- The cipher's result (43_aes_rounds.md R188). -/
def cipher (rk : Nat → Block) (b : Block) : Block := (cipherStates rk b).getLastD b

/-- A round of the inverse cipher up to its AddRoundKey, where its record is taken (43_aes_rounds.md R189, R199). -/
def decRound (key b : Block) : Block := addRoundKey key (invSubBytes (invShiftRows b))

/-- The states after the AddRoundKey of each of the given rounds in turn; InvMixColumns stands between one round's
AddRoundKey and the next round (43_aes_rounds.md R189, R199). -/
def decRounds (rk : Nat → Block) : List Nat → Block → List Block
  | [], _ => []
  | r :: rs, b =>
    let b' := decRound (rk r) b
    b' :: decRounds rk rs (invMixColumns b')

/-- The eleven states after the AddRoundKey of rounds 10 .. 0, in order (43_aes_rounds.md R189, R199). -/
def invCipherStates (rk : Nat → Block) (b : Block) : List Block :=
  let first := addRoundKey (rk 10) b
  first :: decRounds rk [9, 8, 7, 6, 5, 4, 3, 2, 1, 0] first

/-- The inverse cipher's result (43_aes_rounds.md R189). -/
def invCipher (rk : Nat → Block) (b : Block) : Block := (invCipherStates rk b).getLastD b

/-- Records (j, state j) of AES_ENC and AES_DEC (43_aes_rounds.md R199). -/
def blockRecords (states : List Block) : List (Nat × List Byte) :=
  states.zipIdx.map fun p => (p.2, p.1.toList)

end Aes

/-- The shape AES_ENC and AES_DEC share: the checks, then STATE and DOUT[0..15] ← the last of the states
(43_aes_rounds.md R190, R191). -/
def aesBlock (states : (Nat → Block) → Block → List Block) (len : Byte) (s : State) : Outcome :=
  if s.status.aesKv = false then .next (s.raise .notConfigured)
  else if len ≠ 16 then .next (s.raise .invalidBlockLength)
  else
    let run := states s.roundKey s.dinBlock
    let out := run.getLastD s.dinBlock
    .next ((((s.emit (Aes.blockRecords run)).writeAesState out).writeDout 0 out.toList).finish)

/-- A step command: STATE ← the transform of STATE, and one record (43_aes_rounds.md R192 to R199). -/
def aesStep (transform : Block → Block) (s : State) : Outcome :=
  let out := transform s.aesState
  .next (((s.emit [(0, out.toList)]).writeAesState out).finish)

/-- AES_ENC (43_aes_rounds.md R190). -/
def execAesEnc (len : Byte) (s : State) : Outcome := aesBlock Aes.cipherStates len s

/-- AES_DEC (43_aes_rounds.md R191). -/
def execAesDec (len : Byte) (s : State) : Outcome := aesBlock Aes.invCipherStates len s

/-- AES_SB (43_aes_rounds.md R192). -/
def execAesSb (s : State) : Outcome := aesStep Aes.subBytes s

/-- AES_SR (43_aes_rounds.md R193). -/
def execAesSr (s : State) : Outcome := aesStep Aes.shiftRows s

/-- AES_MC (43_aes_rounds.md R194). -/
def execAesMc (s : State) : Outcome := aesStep Aes.mixColumns s

/-- AES_ARK (43_aes_rounds.md R195). A term with RND > 10 stands for no legal word and raises IllegalCommand, as the
decoder does for its word (30_encoding.md R85). -/
def execAesArk (rnd : Fin 16) (s : State) : Outcome :=
  if 10 < rnd.val then .next (s.raise .illegalCommand)
  else if s.status.aesKv = false then .next (s.raise .notConfigured)
  else aesStep (Aes.addRoundKey (s.roundKey rnd.val)) s

/-- AES_ISB (43_aes_rounds.md R196). -/
def execAesIsb (s : State) : Outcome := aesStep Aes.invSubBytes s

/-- AES_ISR (43_aes_rounds.md R197). -/
def execAesIsr (s : State) : Outcome := aesStep Aes.invShiftRows s

/-- AES_IMC (43_aes_rounds.md R198). -/
def execAesImc (s : State) : Outcome := aesStep Aes.invMixColumns s

end Sys2Proof.Machine
end

