-- ==== Sys2Proof/WellFormed.lean ====
section
/-! DEFINITION. Which terms of Instr are commands the encoding admits: the two value constraints of 30_encoding.md
(R84: EC_ENC needs an even RD; R85: AES_ARK needs RND ≤ 10). Every other field admits every value its width holds. -/

namespace Sys2Proof

/-- `i` is a command some legal word stands for (30_encoding.md R84, R85). -/
def Instr.wellFormed : Instr → Bool
  | .aesArk rnd => decide (rnd.val ≤ 10)
  | .ecEnc rd _ _ _ => decide (rd.val % 2 = 0)
  | .nop | .feiKey _ | .feiEnc _ | .feiDec _ | .aesKeyexp _ | .aesEnc _ | .aesDec _ | .aesSb | .aesSr | .aesMc
  | .aesIsb | .aesIsr | .aesImc | .sha512Init | .md5Init | .hashUpdate _ | .hashFinal | .ecSetcurve | .ecSetbase
  | .ecLdpt _ | .ecStpt _ | .ecLdk _ | .ecOncurve _ | .ecNeg _ _ | .ecAdd _ _ _ | .ecDbl _ _ | .ecMul _ _ _
  | .ecPub _ _ | .ecDec _ _ _ _ => true

end Sys2Proof
end

