-- ==== Sys2Proof/Decode.lean ====
section
/-! DEFINITION. The command word (30_encoding.md): its fields, the opcode map as mask and match rows, the decoder, total
on every word and naming why a word is illegal, and the encoder. -/

namespace Sys2Proof

/-- The fields of a command word (30_encoding.md R81). -/
structure Fields where
  op  : Fin 256
  rd  : PReg
  ra  : PReg
  rb  : PReg
  ks  : SReg
  rsv : Fin 2
  rnd : Fin 16
  len : Byte
  deriving DecidableEq, Repr

/-- Operand assembly: each field is an unsigned integer taken directly from its bits (30_encoding.md R82). -/
def fields (w : Word) : Fields where
  op  := ⟨w.toNat % 256, by omega⟩
  rd  := ⟨w.toNat / 2 ^ 8 % 8, by omega⟩
  ra  := ⟨w.toNat / 2 ^ 11 % 8, by omega⟩
  rb  := ⟨w.toNat / 2 ^ 14 % 8, by omega⟩
  ks  := ⟨w.toNat / 2 ^ 17 % 4, by omega⟩
  rsv := ⟨w.toNat / 2 ^ 19 % 2, by omega⟩
  rnd := ⟨w.toNat / 2 ^ 20 % 16, by omega⟩
  len := BitVec.ofNat 8 (w.toNat / 2 ^ 24)

/-- One row of the opcode map: a word `w` selects it when `w &&& mask = bits` (30_encoding.md R83). -/
structure Row where
  mnemonic : String
  bits     : Word
  mask     : Word
  build    : Fields → Instr

/-- The rows of the Feistel and AES units, and NOP (30_encoding.md R83). -/
def cipherRows : List Row := [
  ⟨"NOP",        0x00000000, 0xFFFFFFFF, fun _ => .nop⟩,
  ⟨"FEI_KEY",    0x00000010, 0x00FFFFFF, fun f => .feiKey f.len⟩,
  ⟨"FEI_ENC",    0x00000011, 0x00FFFFFF, fun f => .feiEnc f.len⟩,
  ⟨"FEI_DEC",    0x00000012, 0x00FFFFFF, fun f => .feiDec f.len⟩,
  ⟨"AES_KEYEXP", 0x00000020, 0x00FFFFFF, fun f => .aesKeyexp f.len⟩,
  ⟨"AES_ENC",    0x00000021, 0x00FFFFFF, fun f => .aesEnc f.len⟩,
  ⟨"AES_DEC",    0x00000022, 0x00FFFFFF, fun f => .aesDec f.len⟩,
  ⟨"AES_SB",     0x00000028, 0xFFFFFFFF, fun _ => .aesSb⟩,
  ⟨"AES_SR",     0x00000029, 0xFFFFFFFF, fun _ => .aesSr⟩,
  ⟨"AES_MC",     0x0000002A, 0xFFFFFFFF, fun _ => .aesMc⟩,
  ⟨"AES_ARK",    0x0000002B, 0xFF0FFFFF, fun f => .aesArk f.rnd⟩,
  ⟨"AES_ISB",    0x0000002C, 0xFFFFFFFF, fun _ => .aesIsb⟩,
  ⟨"AES_ISR",    0x0000002D, 0xFFFFFFFF, fun _ => .aesIsr⟩,
  ⟨"AES_IMC",    0x0000002E, 0xFFFFFFFF, fun _ => .aesImc⟩]

/-- The rows of the digest unit (30_encoding.md R83). -/
def digestRows : List Row := [
  ⟨"SHA512_INIT", 0x00000030, 0xFFFFFFFF, fun _ => .sha512Init⟩,
  ⟨"MD5_INIT",    0x00000031, 0xFFFFFFFF, fun _ => .md5Init⟩,
  ⟨"HASH_UPDATE", 0x00000032, 0x00FFFFFF, fun f => .hashUpdate f.len⟩,
  ⟨"HASH_FINAL",  0x00000033, 0xFFFFFFFF, fun _ => .hashFinal⟩]

/-- The rows of the elliptic-curve unit (30_encoding.md R83). -/
def ecRows : List Row := [
  ⟨"EC_SETCURVE", 0x00000040, 0xFFFFFFFF, fun _ => .ecSetcurve⟩,
  ⟨"EC_SETBASE",  0x00000041, 0xFFFFFFFF, fun _ => .ecSetbase⟩,
  ⟨"EC_LDPT",     0x00000042, 0xFFFFF8FF, fun f => .ecLdpt f.rd⟩,
  ⟨"EC_STPT",     0x00000043, 0xFFFFC7FF, fun f => .ecStpt f.ra⟩,
  ⟨"EC_LDK",      0x00000044, 0xFFF9FFFF, fun f => .ecLdk f.ks⟩,
  ⟨"EC_ONCURVE",  0x00000045, 0xFFFFC7FF, fun f => .ecOncurve f.ra⟩,
  ⟨"EC_NEG",      0x00000046, 0xFFFFC0FF, fun f => .ecNeg f.rd f.ra⟩,
  ⟨"EC_ADD",      0x00000047, 0xFFFE00FF, fun f => .ecAdd f.rd f.ra f.rb⟩,
  ⟨"EC_DBL",      0x00000048, 0xFFFFC0FF, fun f => .ecDbl f.rd f.ra⟩,
  ⟨"EC_MUL",      0x00000049, 0xFFF9C0FF, fun f => .ecMul f.rd f.ra f.ks⟩,
  ⟨"EC_PUB",      0x0000004A, 0xFFF9F8FF, fun f => .ecPub f.rd f.ks⟩,
  ⟨"EC_ENC",      0x0000004B, 0xFFF801FF, fun f => .ecEnc f.rd f.ra f.rb f.ks⟩,
  ⟨"EC_DEC",      0x0000004C, 0xFFF800FF, fun f => .ecDec f.rd f.ra f.rb f.ks⟩]

/-- The whole opcode map (30_encoding.md R83). -/
def opcodeTable : List Row := cipherRows ++ digestRows ++ ecRows

/-- The word selects the row (30_encoding.md R83). -/
def Row.selects (r : Row) (w : Word) : Bool := w &&& r.mask == r.bits

/-- Why a word is an illegal command (30_encoding.md R86). -/
inductive IllegalReason where
  /-- OP is not assigned. -/
  | unassignedOpcode
  /-- OP is assigned and a bit outside the command's fields is set (R84). -/
  | unusedFieldSet
  /-- AES_ARK with RND > 10 (R85). -/
  | fieldOutOfRange
  deriving DecidableEq, Repr

/-- What a word decodes to (30_encoding.md R86: every word is exactly one command or illegal). -/
inductive Decoded where
  | legal (i : Instr)
  | illegal (why : IllegalReason)
  deriving DecidableEq, Repr

/-- The decoder, a total function of the word (30_encoding.md R87). The one value constraint no mask states is
AES_ARK's RND ≤ 10, which `wellFormed` states. -/
def decode (w : Word) : Decoded :=
  match opcodeTable.find? (·.selects w) with
  | some r =>
    let i := r.build (fields w)
    if i.wellFormed then .legal i else .illegal .fieldOutOfRange
  | none =>
    if opcodeTable.any (fun r => r.bits.toNat % 256 == w.toNat % 256) then .illegal .unusedFieldSet
    else .illegal .unassignedOpcode

/-- The command a word stands for, if it is legal. -/
def Decoded.instr? : Decoded → Option Instr
  | .legal i => some i
  | .illegal _ => none

/-- A word laid out from its fields, each at its place and the reserved bit 0 (30_encoding.md R81, R88). -/
def assemble (op rd ra rb ks rnd len : Nat) : Word :=
  BitVec.ofNat 32
    (op + rd * 2 ^ 8 + ra * 2 ^ 11 + rb * 2 ^ 14 + ks * 2 ^ 17 + rnd * 2 ^ 20 + len * 2 ^ 24)

/-- The word of a command (30_encoding.md R83, R88). -/
def encode : Instr → Word
  | .nop => assemble 0x00 0 0 0 0 0 0
  | .feiKey len => assemble 0x10 0 0 0 0 0 len.toNat
  | .feiEnc len => assemble 0x11 0 0 0 0 0 len.toNat
  | .feiDec len => assemble 0x12 0 0 0 0 0 len.toNat
  | .aesKeyexp len => assemble 0x20 0 0 0 0 0 len.toNat
  | .aesEnc len => assemble 0x21 0 0 0 0 0 len.toNat
  | .aesDec len => assemble 0x22 0 0 0 0 0 len.toNat
  | .aesSb => assemble 0x28 0 0 0 0 0 0
  | .aesSr => assemble 0x29 0 0 0 0 0 0
  | .aesMc => assemble 0x2A 0 0 0 0 0 0
  | .aesArk rnd => assemble 0x2B 0 0 0 0 rnd.val 0
  | .aesIsb => assemble 0x2C 0 0 0 0 0 0
  | .aesIsr => assemble 0x2D 0 0 0 0 0 0
  | .aesImc => assemble 0x2E 0 0 0 0 0 0
  | .sha512Init => assemble 0x30 0 0 0 0 0 0
  | .md5Init => assemble 0x31 0 0 0 0 0 0
  | .hashUpdate len => assemble 0x32 0 0 0 0 0 len.toNat
  | .hashFinal => assemble 0x33 0 0 0 0 0 0
  | .ecSetcurve => assemble 0x40 0 0 0 0 0 0
  | .ecSetbase => assemble 0x41 0 0 0 0 0 0
  | .ecLdpt rd => assemble 0x42 rd.val 0 0 0 0 0
  | .ecStpt ra => assemble 0x43 0 ra.val 0 0 0 0
  | .ecLdk ks => assemble 0x44 0 0 0 ks.val 0 0
  | .ecOncurve ra => assemble 0x45 0 ra.val 0 0 0 0
  | .ecNeg rd ra => assemble 0x46 rd.val ra.val 0 0 0 0
  | .ecAdd rd ra rb => assemble 0x47 rd.val ra.val rb.val 0 0 0
  | .ecDbl rd ra => assemble 0x48 rd.val ra.val 0 0 0 0
  | .ecMul rd ra ks => assemble 0x49 rd.val ra.val 0 ks.val 0 0
  | .ecPub rd ks => assemble 0x4A rd.val 0 0 ks.val 0 0
  | .ecEnc rd ra rb ks => assemble 0x4B rd.val ra.val rb.val ks.val 0 0
  | .ecDec rd ra rb ks => assemble 0x4C rd.val ra.val rb.val ks.val 0 0

/-- The command the decoder reads from a table row's word: bit 0 is the least significant bit of the one 32-bit command
word (30_encoding.md R80), and every bit from `nbits` up is 0. -/
def decodeTableWord (nbits w : Nat) : Option Instr :=
  (decode (BitVec.ofNat 32 (w % 2 ^ nbits))).instr?

end Sys2Proof
end

