-- ==== Sys2Proof/Machine/Control.lean ====
section
/-! DEFINITION. What the engine's step decodes, NOP, and what an illegal command word does (40_command_cycle.md R109, 30_encoding.md R86). -/

namespace Sys2Proof.Machine

/-- What the engine's step decodes: PEND, the word latched at issue (40_command_cycle.md R102, 20_memory.md R73). -/
def State.pending (s : State) : Decoded := decode s.pend

/-- NOP: completion only (40_command_cycle.md R109). -/
def execNop (s : State) : Outcome := .next s.finish

/-- An illegal command word: completes with IllegalCommand and changes nothing else (30_encoding.md R86). -/
def execIllegal (s : State) : Outcome := .next (s.raise .illegalCommand)

end Sys2Proof.Machine
end

