-- ==== Sys2Proof/Machine/Md5.lean ====
section
/-! DEFINITION. The MD5 compression pipeline (46_md5.md). -/

namespace Sys2Proof.Machine

namespace Md5

/-- A, B, C, D (46_md5.md R275). -/
abbrev Words := Vector Word 4

/-- F (46_md5.md R270). -/
def f (b c d : Word) : Word := (b &&& c) ||| (~~~b &&& d)

/-- G (46_md5.md R270). -/
def g (b c d : Word) : Word := (b &&& d) ||| (c &&& ~~~d)

/-- H (46_md5.md R270). -/
def h (b c d : Word) : Word := b ^^^ c ^^^ d

/-- I (46_md5.md R270). -/
def i (b c d : Word) : Word := c ^^^ (b ||| ~~~d)

/-- ROTL(x, s) on 32 bits (46_md5.md R270). -/
def rotl (x : Word) (s : Nat) : Word := (x <<< s) ||| (x >>> (32 - s))

/-- The function of step n (46_md5.md R275). -/
def mix (n : Nat) (b c d : Word) : Word :=
  if n < 16 then f b c d else if n < 32 then g b c d else if n < 48 then h b c d else i b c d

/-- S[n] (46_md5.md R273). -/
def shiftAmount (n : Nat) : Nat := (Config.s5.getD (n / 16) []).getD (n % 4) 0

/-- g(n), the message word of step n (46_md5.md R273). -/
def wordIndex (n : Nat) : Nat :=
  if n < 16 then n else if n < 32 then (5 * n + 1) % 16 else if n < 48 then (3 * n + 5) % 16 else 7 * n % 16

/-- X[0..15] of a block, little-endian words (46_md5.md R274). -/
def blockWords (blk : List Byte) : List Word :=
  (List.range 16).map fun k => BitVec.ofNat 32 (leToNat ((blk.drop (4 * k)).take 4))

/-- Step n, from the values before the step (46_md5.md R275). -/
def stepWords (x : List Word) (v : Words) (n : Nat) : Words :=
  let t := v[1] + rotl (v[0] + mix n v[1] v[2] v[3] + Config.t5.getD n 0 + x.getD (wordIndex n) 0) (shiftAmount n)
  #v[v[3], t, v[1], v[2]]

/-- A..D after each of the given steps (46_md5.md R275). -/
def steps (x : List Word) : List Nat → Words → List Words
  | [], _ => []
  | n :: rest, v =>
    let v' := stepWords x v n
    v' :: steps x rest v'

/-- The 64 states of A..D of one compression (46_md5.md R275). -/
def trace (v : Words) (blk : List Byte) : List Words := steps (blockWords blk) (List.range 64) v

/-- The payload of one step's record: A..D, each 4 bytes little-endian (44_digest.md R230). -/
def payload (v : Words) : List Byte := v.toList.flatMap fun x => natToLe 4 x.toNat

/-- H[0..3] read as MD5 words: bits 31:0 (10_state.md R36). -/
def ofHash (hs : Vector Word64 8) : Words :=
  #v[hs[0].setWidth 32, hs[1].setWidth 32, hs[2].setWidth 32, hs[3].setWidth 32]

/-- `compress5(blk)`: the new hash words, H[4..7] unchanged, and the payloads of its steps (46_md5.md R275). -/
def compress (hs : Vector Word64 8) (blk : List Byte) : Vector Word64 8 × List (List Byte) :=
  let v0 := ofHash hs
  let vs := trace v0 blk
  let v := vs.getLastD v0
  (#v[(v0[0] + v[0]).setWidth 64, (v0[1] + v[1]).setWidth 64, (v0[2] + v[2]).setWidth 64,
      (v0[3] + v[3]).setWidth 64, hs[4], hs[5], hs[6], hs[7]], vs.map payload)

/-- The digest: H[0..3] in order, each little-endian (44_digest.md R227, 46_md5.md R277). -/
def digest (hs : Vector Word64 8) : List Byte := (ofHash hs).toList.flatMap fun x => natToLe 4 x.toNat

end Md5

end Sys2Proof.Machine
end

