-- ==== Sys2Proof/Machine/Sha512.lean ====
section
/-! DEFINITION. The SHA-512 compression pipeline (45_sha512.md). -/

namespace Sys2Proof.Machine

namespace Sha512

/-- The eight working variables a..h, or the hash words H[0..7] (45_sha512.md R255). -/
abbrev Words := Vector Word64 8

/-- Ch (45_sha512.md R250). -/
def ch (e f g : Word64) : Word64 := (e &&& f) ^^^ (~~~e &&& g)

/-- Maj (45_sha512.md R250). -/
def maj (a b c : Word64) : Word64 := (a &&& b) ^^^ (a &&& c) ^^^ (b &&& c)

/-- ROTR(x, n) (45_sha512.md R250). -/
def rotr (x : Word64) (n : Nat) : Word64 := (x >>> n) ||| (x <<< (64 - n))

/-- Σ0 (45_sha512.md R250). -/
def bigSigma0 (a : Word64) : Word64 := rotr a 28 ^^^ rotr a 34 ^^^ rotr a 39

/-- Σ1 (45_sha512.md R250). -/
def bigSigma1 (e : Word64) : Word64 := rotr e 14 ^^^ rotr e 18 ^^^ rotr e 41

/-- σ0 (45_sha512.md R250). -/
def smallSigma0 (w : Word64) : Word64 := rotr w 1 ^^^ rotr w 8 ^^^ (w >>> 7)

/-- σ1 (45_sha512.md R250). -/
def smallSigma1 (w : Word64) : Word64 := rotr w 19 ^^^ rotr w 61 ^^^ (w >>> 6)

/-- The 16-word base of a block, big-endian words (45_sha512.md R253). -/
def baseWords (blk : List Byte) : List Word64 :=
  (List.range 16).map fun t => BitVec.ofNat 64 (beToNat ((blk.drop (8 * t)).take 8))

/-- W[t] from W[0 .. t-1] (45_sha512.md R254). -/
def nextWord (w : List Word64) (t : Nat) : Word64 :=
  smallSigma1 (w.getD (t - 2) 0) + w.getD (t - 7) 0 + smallSigma0 (w.getD (t - 15) 0) + w.getD (t - 16) 0

/-- The message schedule W[0..79] (45_sha512.md R254). -/
def messageSchedule (blk : List Byte) : List Word64 :=
  (List.range' 16 64).foldl (fun w t => w ++ [nextWord w t]) (baseWords blk)

/-- T1 from the working variables before the round, its constant and its message word (45_sha512.md R255). -/
def temp1 (v : Words) (k w : Word64) : Word64 := v[7] + bigSigma1 v[4] + ch v[4] v[5] v[6] + k + w

/-- T2 from the working variables before the round (45_sha512.md R255). -/
def temp2 (v : Words) : Word64 := bigSigma0 v[0] + maj v[0] v[1] v[2]

/-- One round: a takes T1 + T2, e takes d + T1, and each other variable the one before it (45_sha512.md R255). -/
def round (v : Words) (k w : Word64) : Words :=
  let t1 := temp1 v k w
  #v[t1 + temp2 v, v[0], v[1], v[2], v[3] + t1, v[4], v[5], v[6]]

/-- The working variables after each round (45_sha512.md R255). -/
def rounds : List (Word64 × Word64) → Words → List Words
  | [], _ => []
  | kw :: rest, v =>
    let v' := round v kw.1 kw.2
    v' :: rounds rest v'

/-- The 80 states of the working variables of one compression (45_sha512.md R255). -/
def trace (h : Words) (blk : List Byte) : List Words := rounds (Config.k512.zip (messageSchedule blk)) h

/-- The last lines of `compress512`: the working variables added into the running hash (45_sha512.md R255). -/
def addInto (h v : Words) : Words := Vector.ofFn fun i : Fin 8 => h[i] + v[i]

/-- The payload of one round's record: a..h, each 8 bytes big-endian (44_digest.md R230). -/
def payload (v : Words) : List Byte := v.toList.flatMap fun x => natToBe 8 x.toNat

/-- `compress512(blk)`: the new hash words and the payloads of its rounds (45_sha512.md R255). -/
def compress (h : Words) (blk : List Byte) : Words × List (List Byte) :=
  let vs := trace h blk
  (addInto h (vs.getLastD h), vs.map payload)

/-- The digest: hash words in order, each big-endian (44_digest.md R227, 45_sha512.md R257). -/
def digest (h : Words) : List Byte := h.toList.flatMap fun x => natToBe 8 x.toNat

end Sha512

end Sys2Proof.Machine
end

