-- ==== Sys2Proof/Machine/Digest.lean ====
section
/-! DEFINITION. The digest unit's Merkle–Damgård framing (44_digest.md): absorbing, padding, the length field, and
SHA512_INIT, MD5_INIT, HASH_UPDATE, HASH_FINAL. -/

namespace Sys2Proof.Machine

/-- The block size BS in bytes (44_digest.md R220). -/
def HashAlg.blockSize : HashAlg → Nat
  | .sha512 => 128
  | .md5 => 64

/-- The length field LF in bytes (44_digest.md R220). -/
def HashAlg.lengthSize : HashAlg → Nat
  | .sha512 => 16
  | .md5 => 8

/-- `compress(block)`: the new hash words and the payloads of its rounds (44_digest.md R228, R230). -/
def HashAlg.compress (alg : HashAlg) (h : Vector Word64 8) (blk : List Byte) : Vector Word64 8 × List (List Byte) :=
  match alg with
  | .sha512 => Sha512.compress h blk
  | .md5 => Md5.compress h blk

/-- The length field's bytes for the bit count L (44_digest.md R226). -/
def HashAlg.lengthBytes (alg : HashAlg) (l : BitVec 128) : List Byte :=
  match alg with
  | .sha512 => natToBe 16 l.toNat
  | .md5 => natToLe 8 l.toNat

/-- The digest's bytes (44_digest.md R227). -/
def HashAlg.digest (alg : HashAlg) (h : Vector Word64 8) : List Byte :=
  match alg with
  | .sha512 => Sha512.digest h
  | .md5 => Md5.digest h

/-- H, BUF and BUFCNT as a command changes them, and the payloads of the rounds the command has run. -/
structure DigestRun where
  h        : Vector Word64 8
  buf      : Vector Byte 128
  cnt      : Nat
  payloads : List (List Byte)
  deriving DecidableEq, Repr

namespace DigestRun

/-- `absorb(v)` (44_digest.md R223). -/
def absorb (alg : HashAlg) (d : DigestRun) (v : Byte) : DigestRun :=
  let buf := d.buf.setIfInBounds d.cnt v
  if d.cnt + 1 = alg.blockSize then
    let c := alg.compress d.h (buf.toList.take alg.blockSize)
    { h := c.1, buf := buf, cnt := 0, payloads := d.payloads ++ c.2 }
  else { d with buf := buf, cnt := d.cnt + 1 }

/-- Absorbs bytes in order (44_digest.md R224, R226). -/
def absorbAll (alg : HashAlg) (d : DigestRun) (vs : List Byte) : DigestRun := vs.foldl (absorb alg) d

/-- `while BUFCNT != BS - LF: absorb(0x00)`; at most BS times (44_digest.md R225). -/
def padZeros (alg : HashAlg) : Nat → DigestRun → DigestRun
  | 0, d => d
  | n + 1, d => if d.cnt = alg.blockSize - alg.lengthSize then d else padZeros alg n (absorb alg d 0)

/-- `pad()` for the bit count L taken before padding (44_digest.md R225). -/
def pad (alg : HashAlg) (l : BitVec 128) (d : DigestRun) : DigestRun :=
  absorbAll alg (padZeros alg alg.blockSize (absorb alg d 0x80)) (alg.lengthBytes l)

/-- The records of the rounds run: the rounds of the command's b-th compression follow those of the ones before, so a
record's step, 80·b + t or 64·b + i, is its place in the whole (44_digest.md R230). -/
def records (d : DigestRun) : List (Nat × List Byte) := d.payloads.zipIdx.map fun p => (p.2, p.1)

end DigestRun

namespace State

/-- The digest registers at the start of a command. -/
def digestRun (s : State) : DigestRun := ⟨s.h, s.buf, s.bufCnt, []⟩

/-- Writes H, BUF and BUFCNT back (44_digest.md R223). -/
def storeDigest (s : State) (d : DigestRun) : State := { s with h := d.h, buf := d.buf, bufCnt := d.cnt }

/-- What both INIT commands do after choosing H: BUFCNT ← 0, MSGLEN ← 0; BUF is left as it is (44_digest.md R221). -/
def initDigest (s : State) (h : Vector Word64 8) : State := { s with h := h, bufCnt := 0, msgLen := 0 }

/-- MSGLEN ← (MSGLEN + 8·n) mod 2^128 (44_digest.md R224, R226). -/
def addMsgLen (s : State) (n : Nat) : State := { s with msgLen := s.msgLen + BitVec.ofNat 128 (8 * n) }

end State

/-- MD5's initial H: IV5 in H[0..3], zero in H[4..7] (44_digest.md R222). -/
def md5Iv : Vector Word64 8 :=
  Vector.ofFn fun i : Fin 8 => (Config.iv5.getD i.val 0).setWidth 64

/-- SHA512_INIT (44_digest.md R221). -/
def execSha512Init (s : State) : Outcome := .next (((s.initDigest Config.iv512).startHash .sha512).finish)

/-- MD5_INIT (44_digest.md R222). -/
def execMd5Init (s : State) : Outcome := .next (((s.initDigest md5Iv).startHash .md5).finish)

/-- HASH_UPDATE (44_digest.md R224). -/
def execHashUpdate (len : Byte) (s : State) : Outcome :=
  if s.status.hashAct = false then .next (s.raise .notConfigured)
  else if 128 < len.toNat then .next (s.raise .invalidBlockLength)
  else
    let d := s.digestRun.absorbAll s.status.hashAlg (s.dinBytes len.toNat)
    .next ((((s.emit d.records).storeDigest d).addMsgLen len.toNat).finish)

/-- HASH_FINAL (44_digest.md R227). -/
def execHashFinal (s : State) : Outcome :=
  if s.status.hashAct = false then .next (s.raise .notConfigured)
  else
    let d := s.digestRun.pad s.status.hashAlg s.msgLen
    .next (((((s.emit d.records).storeDigest d).writeDout 0 (s.status.hashAlg.digest d.h)).setHashAct false).finish)

end Sys2Proof.Machine
end

