-- ==== Sys2Proof/Machine/EcArith.lean ====
section
/-! DEFINITION. The elliptic-curve unit's arithmetic (47_ec.md R290 to R301): exact integers, reduced only where a result
is stored. `none` stands for the error NonInvertible. -/

namespace Sys2Proof.Machine

/-- A curve (a, b, p) (47_ec.md R294). -/
structure Curve where
  a : Nat
  b : Nat
  p : Nat
  deriving DecidableEq, Repr

namespace Ec

/-- The loop of `inverse`, at most `fuel` divisions (47_ec.md R292). -/
def euclid : Nat → Nat → Nat → Int → Int → Nat × Int
  | 0, r0, _, s0, _ => (r0, s0)
  | fuel + 1, r0, r1, s0, s1 =>
    if r1 = 0 then (r0, s0)
    else
      let q := r0 / r1
      euclid fuel r1 (r0 - q * r1) s1 (s0 - q * s1)

/-- More divisions than the loop makes for any 256-bit modulus: two of them at least halve the remainder. -/
def euclidFuel : Nat := 520

/-- `inverse(u, p)` (47_ec.md R292). -/
def inverse (u : Int) (p : Nat) : Option Nat :=
  let rs := euclid euclidFuel p (u % p).toNat 0 1
  if rs.1 ≠ 1 then none else some (rs.2 % p).toNat

/-- An integer reduced mod p, as a stored coordinate (47_ec.md R290, R301). -/
def residue (v : Int) (p : Nat) : Word256 := BitVec.ofNat 256 (v % p).toNat

/-- The on-curve test (47_ec.md R294). -/
def onCurve (c : Curve) : Point → Bool
  | .infinity => true
  | .affine x y =>
    decide (x.toNat < c.p) && decide (y.toNat < c.p) &&
    decide (((y.toNat : Int) ^ 2 - (x.toNat : Int) ^ 3 - c.a * x.toNat - c.b) % c.p = 0)

/-- Negation (47_ec.md R295). -/
def neg (c : Curve) : Point → Point
  | .infinity => .infinity
  | .affine x y => .affine x (residue ((c.p : Int) - y.toNat) c.p)

/-- The point with slope m through (x1, y1) and a second point with coordinate x2: the `x3, y3` formulas
(47_ec.md R296, R297). -/
def chord (c : Curve) (m x1 y1 x2 : Int) : Point :=
  let x3 := (m ^ 2 - x1 - x2) % c.p
  let y3 := (m * (x1 - x3) - y1) % c.p
  .affine (residue x3 c.p) (residue y3 c.p)

/-- Doubling (47_ec.md R296). -/
def double (c : Curve) : Point → Option Point
  | .infinity => some .infinity
  | .affine x y =>
    if y = 0 then some .infinity
    else
      match inverse (2 * (y.toNat : Int)) c.p with
      | none => none
      | some inv =>
        let m := ((3 * (x.toNat : Int) ^ 2 + c.a) * inv) % c.p
        some (chord c m x.toNat y.toNat x.toNat)

/-- Addition, its cases in the spec's order (47_ec.md R297). -/
def add (c : Curve) (p q : Point) : Option Point :=
  match p, q with
  | .infinity, q => some q
  | .affine x1 y1, .infinity => some (.affine x1 y1)
  | .affine x1 y1, .affine x2 y2 =>
    if x1 = x2 ∧ (y1.toNat + y2.toNat) % c.p = 0 then some .infinity
    else if x1 = x2 ∧ y1 = y2 then double c (.affine x1 y1)
    else
      match inverse ((x2.toNat : Int) - x1.toNat) c.p with
      | none => none
      | some inv =>
        let m := (((y2.toNat : Int) - y1.toNat) * inv) % c.p
        some (chord c m x1.toNat y1.toNat x2.toNat)

/-- The loop of `scalarMultiply`, at most `fuel` iterations: the (R, Q) of each finished iteration, and the result
(47_ec.md R298, R323). -/
def mulLoop (c : Curve) : Nat → Nat → Point → Point → List (Point × Point) × Option Point
  | 0, _, r, _ => ([], some r)
  | fuel + 1, m, r, q =>
    if m = 0 then ([], some r)
    else
      match (if m % 2 = 1 then add c r q else some r) with
      | none => ([], none)
      | some r' =>
        match (if m / 2 ≠ 0 then double c q else some q) with
        | none => ([], none)
        | some q' =>
          let rest := mulLoop c fuel (m / 2) r' q'
          ((r', q') :: rest.1, rest.2)

/-- `scalarMultiply(P, k)`: its iterations and its result (47_ec.md R298). A 256-bit scalar takes at most 256. -/
def scalarMultiply (c : Curve) (p : Point) (k : Word256) : List (Point × Point) × Option Point :=
  mulLoop c 256 k.toNat .infinity p

end Ec

end Sys2Proof.Machine
end

