-- ==== Sys2Proof/Machine/Ec.lean ====
section
/-! DEFINITION. The elliptic-curve commands (47_ec.md R306 to R323). -/

namespace Sys2Proof.Machine

/-- The current curve (47_ec.md R294). -/
def State.curve (s : State) : Curve := ⟨s.ecA.toNat, s.ecB.toNat, s.ecP.toNat⟩

namespace Ec

/-- A point's 65-byte form: x, y, little-endian, then inf (47_ec.md R313, R323). -/
def pointBytes : Point → List Byte
  | .infinity => natToLe 32 0 ++ natToLe 32 0 ++ [1]
  | .affine x y => natToLe 32 x.toNat ++ natToLe 32 y.toNat ++ [0]

/-- The records of a scalar multiplication, steps from `first` (47_ec.md R323). -/
def mulRecords (first : Nat) (iterations : List (Point × Point)) : List (Nat × List Byte) :=
  iterations.zipIdx.map fun p => (first + p.2, pointBytes p.1.1 ++ pointBytes p.1.2)

/-- The record of EC_NEG, EC_ADD and EC_DBL: the result point (47_ec.md R323). -/
def resultRecord (p : Point) : List (Nat × List Byte) := [(0, pointBytes p)]

end Ec

namespace State

/-- EC_A ← a, EC_B ← b, EC_P ← p (47_ec.md R310). -/
def setCurve (s : State) (a b p : Nat) : State :=
  { s with ecA := BitVec.ofNat 256 a, ecB := BitVec.ofNat 256 b, ecP := BitVec.ofNat 256 p }

/-- EC_G ← G, EC_N ← n (47_ec.md R311). -/
def setBase (s : State) (g : Point) (n : Nat) : State := { s with ecG := g, ecN := BitVec.ofNat 256 n }

/-- The end of a command that computes one point: PR[rd] ← the point, or NonInvertible with nothing written. Records the
computation emitted stay emitted either way (47_ec.md R300, R323). -/
def finishPoint (s : State) (rd : PReg) (records : List (Nat × List Byte)) : Option Point → State
  | none => (s.emit records).raise .nonInvertible
  | some r => ((s.emit records).writePr rd r).finish

/-- The records of EC_ADD and EC_DBL: one if there is a result (47_ec.md R323). -/
def pointRecords : Option Point → List (Nat × List Byte)
  | none => []
  | some r => Ec.resultRecord r

end State

/-- EC_SETCURVE (47_ec.md R310). -/
def execEcSetcurve (s : State) : Outcome :=
  let p := s.slot 2
  let a := s.slot 0 % p
  let b := s.slot 1 % p
  .next (if p ≤ 1 ∨ (4 * a ^ 3 + 27 * b ^ 2) % p = 0 then (s.setEcValid false false).raise .singularCurve
    else ((s.setCurve a b p).setEcValid true false).finish)

/-- EC_SETBASE (47_ec.md R311). -/
def execEcSetbase (s : State) : Outcome :=
  if s.status.ecCv = false then .next (s.raise .notConfigured)
  else
    let g := Point.affine (BitVec.ofNat 256 (s.slot 0)) (BitVec.ofNat 256 (s.slot 1))
    if Ec.onCurve s.curve g = false then .next ((s.setEcGv false).raise .pointNotOnCurve)
    else .next (((s.setBase g (s.slot 2)).setEcGv true).finish)

/-- EC_LDPT (47_ec.md R312). -/
def execEcLdpt (rd : PReg) (s : State) : Outcome :=
  let p := if (s.din 64).getLsbD 0 then Point.infinity
    else .affine (BitVec.ofNat 256 (s.slot 0)) (BitVec.ofNat 256 (s.slot 1))
  .next ((s.writePr rd p).finish)

/-- EC_STPT (47_ec.md R313): x, y, inf, then DOUT[65..67] ← 0. -/
def execEcStpt (ra : PReg) (s : State) : Outcome :=
  .next ((s.writeDout 0 (Ec.pointBytes (s.readPr ra) ++ [0, 0, 0])).finish)

/-- EC_LDK (47_ec.md R314). -/
def execEcLdk (ks : SReg) (s : State) : Outcome :=
  .next ((s.writeSk ks (BitVec.ofNat 256 (s.slot 0))).finish)

/-- EC_ONCURVE (47_ec.md R315). -/
def execEcOncurve (ra : PReg) (s : State) : Outcome :=
  if s.status.ecCv = false then .next (s.raise .notConfigured)
  else .next ((s.writeDout 0 [if Ec.onCurve s.curve (s.readPr ra) then 1 else 0, 0, 0, 0]).finish)

/-- EC_NEG (47_ec.md R316). -/
def execEcNeg (rd ra : PReg) (s : State) : Outcome :=
  let p := s.readPr ra
  if s.status.ecCv = false then .next (s.raise .notConfigured)
  else if Ec.onCurve s.curve p = false then .next (s.raise .pointNotOnCurve)
  else .next (s.finishPoint rd (Ec.resultRecord (Ec.neg s.curve p)) (some (Ec.neg s.curve p)))

/-- EC_ADD (47_ec.md R317). -/
def execEcAdd (rd ra rb : PReg) (s : State) : Outcome :=
  let p := s.readPr ra
  let q := s.readPr rb
  if s.status.ecCv = false then .next (s.raise .notConfigured)
  else if Ec.onCurve s.curve p = false then .next (s.raise .pointNotOnCurve)
  else if Ec.onCurve s.curve q = false then .next (s.raise .pointNotOnCurve)
  else
    let r := Ec.add s.curve p q
    .next (s.finishPoint rd (State.pointRecords r) r)

/-- EC_DBL (47_ec.md R318). -/
def execEcDbl (rd ra : PReg) (s : State) : Outcome :=
  let p := s.readPr ra
  if s.status.ecCv = false then .next (s.raise .notConfigured)
  else if Ec.onCurve s.curve p = false then .next (s.raise .pointNotOnCurve)
  else
    let r := Ec.double s.curve p
    .next (s.finishPoint rd (State.pointRecords r) r)

/-- EC_MUL (47_ec.md R319). -/
def execEcMul (rd ra : PReg) (ks : SReg) (s : State) : Outcome :=
  let p := s.readPr ra
  if s.status.ecCv = false then .next (s.raise .notConfigured)
  else if Ec.onCurve s.curve p = false then .next (s.raise .pointNotOnCurve)
  else
    let m := Ec.scalarMultiply s.curve p (s.readSk ks)
    .next (s.finishPoint rd (Ec.mulRecords 0 m.1) m.2)

/-- EC_PUB (47_ec.md R320). -/
def execEcPub (rd : PReg) (ks : SReg) (s : State) : Outcome :=
  if s.status.ecCv = false ∨ s.status.ecGv = false then .next (s.raise .notConfigured)
  else
    let m := Ec.scalarMultiply s.curve s.ecG (s.readSk ks)
    .next (s.finishPoint rd (Ec.mulRecords 0 m.1) m.2)

/-- EC_ENC's computation (47_ec.md R299, R321, R323): its records, and C1 and C2 unless something was not invertible. -/
def ecEncrypt (c : Curve) (g m pu : Point) (k : Word256) : List (Nat × List Byte) × Option (Point × Point) :=
  let kg := Ec.scalarMultiply c g k
  match kg.2 with
  | none => (Ec.mulRecords 0 kg.1, none)
  | some c1 =>
    let kp := Ec.scalarMultiply c pu k
    let records := Ec.mulRecords 0 kg.1 ++ Ec.mulRecords 256 kp.1
    match kp.2 with
    | none => (records, none)
    | some shared =>
      match Ec.add c m shared with
      | none => (records, none)
      | some c2 => (records, some (c1, c2))

/-- EC_ENC (47_ec.md R321). A term with an odd RD stands for no legal word and raises IllegalCommand, as the decoder does
for its word (30_encoding.md R84). -/
def execEcEnc (rd ra rb : PReg) (ks : SReg) (s : State) : Outcome :=
  let m := s.readPr ra
  let pu := s.readPr rb
  if rd.val % 2 ≠ 0 then .next (s.raise .illegalCommand)
  else if s.status.ecCv = false ∨ s.status.ecGv = false then .next (s.raise .notConfigured)
  else if Ec.onCurve s.curve m = false then .next (s.raise .pointNotOnCurve)
  else if Ec.onCurve s.curve pu = false then .next (s.raise .pointNotOnCurve)
  else
    let e := ecEncrypt s.curve s.ecG m pu (s.readSk ks)
    match e.2 with
    | none => .next ((s.emit e.1).raise .nonInvertible)
    | some c => .next ((((s.emit e.1).writePr rd c.1).writePr (rd + 1) c.2).finish)

/-- EC_DEC's computation (47_ec.md R299, R322, R323). -/
def ecDecrypt (c : Curve) (c1 c2 : Point) (d : Word256) : List (Nat × List Byte) × Option Point :=
  let dc := Ec.scalarMultiply c c1 d
  match dc.2 with
  | none => (Ec.mulRecords 0 dc.1, none)
  | some shared => (Ec.mulRecords 0 dc.1, Ec.add c c2 (Ec.neg c shared))

/-- EC_DEC (47_ec.md R322). -/
def execEcDec (rd ra rb : PReg) (ks : SReg) (s : State) : Outcome :=
  let c1 := s.readPr ra
  let c2 := s.readPr rb
  if s.status.ecCv = false then .next (s.raise .notConfigured)
  else if Ec.onCurve s.curve c1 = false then .next (s.raise .pointNotOnCurve)
  else if Ec.onCurve s.curve c2 = false then .next (s.raise .pointNotOnCurve)
  else
    let e := ecDecrypt s.curve c1 c2 (s.readSk ks)
    .next (s.finishPoint rd e.1 e.2)

end Sys2Proof.Machine
end

