-- ==== Sys2Proof/Machine/Feistel.lean ====
section
/-! DEFINITION. The Feistel unit, S-DES (41_feistel.md): key schedule, round function, FEI_KEY, FEI_ENC, FEI_DEC. -/

namespace Sys2Proof.Machine

namespace Feistel

/-- `perm(T, n, v)`: output position j is input position T[j], positions counted from the left (41_feistel.md R121). -/
def perm (table : List Nat) {n : Nat} (m : Nat) (v : BitVec n) : BitVec m :=
  table.foldl (fun out j => (out <<< 1) ||| (BitVec.ofBool (v.getLsbD (n - j))).setWidth m) 0

/-- `LS(h, s)`: circular left shift of a 5-bit half (41_feistel.md R122). -/
def ls (h : BitVec 5) (s : Nat) : BitVec 5 := h.rotateLeft s

/-- The key schedule (K1, K2) (41_feistel.md R123). -/
def schedule (key : BitVec 10) : Byte × Byte :=
  let p := perm Config.p10 10 key
  let l0 := p.extractLsb' 5 5
  let r0 := p.extractLsb' 0 5
  let l1 := ls l0 1
  let r1 := ls r0 1
  let l2 := ls l1 2
  let r2 := ls r1 2
  (perm Config.p8 8 (l1 ++ r1), perm Config.p8 8 (l2 ++ r2))

/-- S-box lookup of a 4-bit group (41_feistel.md R124). -/
def sbox (table : List (List (BitVec 2))) (g : BitVec 4) : BitVec 2 :=
  let row := (g.getLsbD 3).toNat * 2 + (g.getLsbD 0).toNat
  let col := (g.getLsbD 2).toNat * 2 + (g.getLsbD 1).toNat
  (table.getD row []).getD col 0

/-- The mixing function F (41_feistel.md R125). -/
def f (r : BitVec 4) (sk : Byte) : BitVec 4 :=
  let t := perm Config.ep 8 r ^^^ sk
  let g0 := sbox Config.s0 (t.extractLsb' 4 4)
  let g1 := sbox Config.s1 (t.extractLsb' 0 4)
  perm Config.p4 4 (g0 ++ g1)

/-- The round fK (41_feistel.md R126). -/
def fk (x : Byte) (sk : Byte) : Byte :=
  (x.extractLsb' 4 4 ^^^ f (x.extractLsb' 0 4) sk) ++ x.extractLsb' 0 4

/-- The swap SW (41_feistel.md R127). -/
def sw (x : Byte) : Byte := x.extractLsb' 0 4 ++ x.extractLsb' 4 4

/-- Encryption's values a, b, c and its result, in that order (41_feistel.md R129). -/
def encSteps (k1 k2 p : Byte) : Byte × Byte × Byte × Byte :=
  let a := perm Config.ip 8 p
  let b := sw (fk a k1)
  let c := fk b k2
  (a, b, c, perm Config.ipInv 8 c)

/-- Decryption's values a, b, c and its result: K2 first, then K1 (41_feistel.md R130). -/
def decSteps (k1 k2 c0 : Byte) : Byte × Byte × Byte × Byte :=
  let a := perm Config.ip 8 c0
  let b := sw (fk a k2)
  let c := fk b k1
  (a, b, c, perm Config.ipInv 8 c)

/-- `sdes_enc` (41_feistel.md R129). -/
def sdesEnc (k1 k2 p : Byte) : Byte := (encSteps k1 k2 p).2.2.2

/-- `sdes_dec` (41_feistel.md R130). -/
def sdesDec (k1 k2 c : Byte) : Byte := (decSteps k1 k2 c).2.2.2

/-- The four records of FEI_ENC and FEI_DEC (41_feistel.md R136). -/
def records (v : Byte × Byte × Byte × Byte) : List (Nat × List Byte) :=
  [(1, [v.1]), (2, [v.2.1]), (3, [v.2.2.1]), (4, [v.2.2.2])]

end Feistel

/-- FEI_KEY (41_feistel.md R133; records R136). -/
def execFeiKey (len : Byte) (s : State) : Outcome :=
  if len ≠ 10 then .next ((s.setFeiKv false).raise .invalidKeyLength)
  else
    let ks := Feistel.schedule s.feistelKey
    .next (((((s.emit [(1, [ks.1]), (2, [ks.2])]).writeBytes feiK1Addr [ks.1, ks.2])).setFeiKv true).finish)

/-- The shape FEI_ENC and FEI_DEC share: the checks, then DOUT[0] ← result and DOUT[1..3] ← 0 (41_feistel.md R134, R135). -/
def feistelBlock (steps : Byte → Byte → Byte → Byte × Byte × Byte × Byte) (len : Byte) (s : State) : Outcome :=
  if s.status.feiKv = false then .next (s.raise .notConfigured)
  else if len ≠ 8 then .next (s.raise .invalidBlockLength)
  else
    let v := steps s.feiK1 s.feiK2 (s.din 0)
    .next (((s.emit (Feistel.records v)).writeDout 0 [v.2.2.2, 0, 0, 0]).finish)

/-- FEI_ENC (41_feistel.md R134). -/
def execFeiEnc (len : Byte) (s : State) : Outcome := feistelBlock Feistel.encSteps len s

/-- FEI_DEC (41_feistel.md R135). -/
def execFeiDec (len : Byte) (s : State) : Outcome := feistelBlock Feistel.decSteps len s

end Sys2Proof.Machine
end

