-- ==== Sys2Proof/Machine/Dispatch.lean ====
section
/-! DEFINITION. One arm per command: its meaning (40_command_cycle.md R102). -/

namespace Sys2Proof.Machine

def exec (i : Instr) (s : State) : Host.Outcome State Fault Refusal :=
  match i with
  | .nop => Sys2Proof.Machine.execNop s
  | .feiKey len => Sys2Proof.Machine.execFeiKey len s
  | .feiEnc len => Sys2Proof.Machine.execFeiEnc len s
  | .feiDec len => Sys2Proof.Machine.execFeiDec len s
  | .aesKeyexp len => Sys2Proof.Machine.execAesKeyexp len s
  | .aesEnc len => Sys2Proof.Machine.execAesEnc len s
  | .aesDec len => Sys2Proof.Machine.execAesDec len s
  | .aesSb => Sys2Proof.Machine.execAesSb s
  | .aesSr => Sys2Proof.Machine.execAesSr s
  | .aesMc => Sys2Proof.Machine.execAesMc s
  | .aesArk rnd => Sys2Proof.Machine.execAesArk rnd s
  | .aesIsb => Sys2Proof.Machine.execAesIsb s
  | .aesIsr => Sys2Proof.Machine.execAesIsr s
  | .aesImc => Sys2Proof.Machine.execAesImc s
  | .sha512Init => Sys2Proof.Machine.execSha512Init s
  | .md5Init => Sys2Proof.Machine.execMd5Init s
  | .hashUpdate len => Sys2Proof.Machine.execHashUpdate len s
  | .hashFinal => Sys2Proof.Machine.execHashFinal s
  | .ecSetcurve => Sys2Proof.Machine.execEcSetcurve s
  | .ecSetbase => Sys2Proof.Machine.execEcSetbase s
  | .ecLdpt rd => Sys2Proof.Machine.execEcLdpt rd s
  | .ecStpt ra => Sys2Proof.Machine.execEcStpt ra s
  | .ecLdk ks => Sys2Proof.Machine.execEcLdk ks s
  | .ecOncurve ra => Sys2Proof.Machine.execEcOncurve ra s
  | .ecNeg rd ra => Sys2Proof.Machine.execEcNeg rd ra s
  | .ecAdd rd ra rb => Sys2Proof.Machine.execEcAdd rd ra rb s
  | .ecDbl rd ra => Sys2Proof.Machine.execEcDbl rd ra s
  | .ecMul rd ra ks => Sys2Proof.Machine.execEcMul rd ra ks s
  | .ecPub rd ks => Sys2Proof.Machine.execEcPub rd ks s
  | .ecEnc rd ra rb ks => Sys2Proof.Machine.execEcEnc rd ra rb ks s
  | .ecDec rd ra rb ks => Sys2Proof.Machine.execEcDec rd ra rb ks s

end Sys2Proof.Machine
end

