-- ==== Sys2Proof/Machine/Reset.lean ====
section
/-! DEFINITION. Soft reset, and what becomes of a command it abandons (70_reset_and_hazards.md R372). -/

namespace Sys2Proof.Machine

namespace State

/-- H and BUFCNT become unspecified (70_reset_and_hazards.md R372). -/
def forgetHashWords (s : State) : State :=
  { s with
    h := Vector.ofFn fun i : Fin 8 => Config.abandonedHashWord s.draws i.val
    bufCnt := Config.abandonedBufCnt s.draws }

/-- MSGLEN becomes unspecified (70_reset_and_hazards.md R372). -/
def forgetMsgLen (s : State) : State := { s with msgLen := Config.abandonedMsgLen s.draws }

/-- BUF becomes unspecified (70_reset_and_hazards.md R372). -/
def forgetBuf (s : State) : State :=
  { s with buf := Vector.ofFn fun i : Fin 128 => Config.abandonedBufByte s.draws i.val }

/-- EC_A, EC_B and EC_P become unspecified (70_reset_and_hazards.md R372). -/
def forgetCurve (s : State) : State :=
  { s with
    ecA := Config.abandonedWord256 s.draws 0
    ecB := Config.abandonedWord256 s.draws 1
    ecP := Config.abandonedWord256 s.draws 2 }

/-- EC_G and EC_N become unspecified (70_reset_and_hazards.md R372). -/
def forgetBase (s : State) : State :=
  { s with ecG := Config.abandonedPoint s.draws, ecN := Config.abandonedWord256 s.draws 3 }

/-- Every piece of storage the command's rule could write becomes unspecified (70_reset_and_hazards.md R372). What a
command could write is read from its rule, whatever its length field and the flags say. HASH_FINAL does not write MSGLEN
(44_digest.md R225, R227), and the INIT commands do not write BUF (R221, R222). -/
def abandon (s : State) : Instr → State
  | .nop => s
  | .feiKey _ => s.eraseBytes feiK1Addr 2
  | .feiEnc _ | .feiDec _ => s.eraseBytes doutBase 4
  | .aesKeyexp _ => s.eraseBytes rkBase 176
  | .aesEnc _ | .aesDec _ => (s.eraseBytes stateBase 16).eraseBytes doutBase 16
  | .aesSb | .aesSr | .aesMc | .aesArk _ | .aesIsb | .aesIsr | .aesImc => s.eraseBytes stateBase 16
  | .sha512Init | .md5Init => s.forgetHashWords.forgetMsgLen
  | .hashUpdate _ => s.forgetHashWords.forgetBuf.forgetMsgLen
  | .hashFinal => s.forgetHashWords.forgetBuf.eraseBytes doutBase 64
  | .ecSetcurve => s.forgetCurve
  | .ecSetbase => s.forgetBase
  | .ecLdpt rd => s.forgetPr rd
  | .ecStpt _ => s.eraseBytes doutBase 68
  | .ecLdk ks => s.forgetSk ks
  | .ecOncurve _ => s.eraseBytes doutBase 4
  | .ecNeg rd _ | .ecAdd rd _ _ | .ecDbl rd _ | .ecMul rd _ _ | .ecPub rd _ | .ecDec rd _ _ _ => s.forgetPr rd
  | .ecEnc rd _ _ _ => (s.forgetPr rd).forgetPr (rd + 1)

/-- The pending command of a soft reset while BUSY = 1; an illegal word could write nothing (30_encoding.md R86). -/
def abandonPending (s : State) : State :=
  match s.pending.instr? with
  | some i => s.abandon i
  | none => s

/-- CTRL ← 0, STATUS ← 0, CMD ← 0, PEND ← 0, ERRCODE ← 0 (70_reset_and_hazards.md R372). -/
def clearControl (s : State) : State :=
  { s with
    ctrl := ⟨false, false⟩
    status := ⟨false, false, false, false, false, false, false, false, .sha512⟩
    cmd := 0
    pend := 0
    errcode := 0 }

/-- Soft reset (70_reset_and_hazards.md R372). -/
def softReset (s : State) : State := (if s.status.busy then s.abandonPending else s).clearControl

/-- Hardware reset: every piece of the engine's state as 70_reset_and_hazards.md R371 gives it; the host's accesses still
to come, the data of its last read and the number of draws are not the engine's. -/
def hardwareReset (s : State) : State := State.afterReset s.inputs s.readData s.draws

end State

end Sys2Proof.Machine
end

