-- ==== Sys2Proof/Machine/Window.lean ====
section
/-! DEFINITION. The host's accesses to the window (10_state.md R20 to R32, 20_memory.md R60 to R67). -/

namespace Sys2Proof.Machine

/-- A host read at a physical address as the engine sees it: only addresses of the window reach it (20_memory.md R60). -/
def hostReadAt (addr width : Nat) : Option HostInput :=
  if Config.coreBase ≤ addr ∧ addr < Config.coreBase + windowSize then some (.read (addr - Config.coreBase) width)
  else none

/-- A host write at a physical address as the engine sees it (20_memory.md R60). -/
def hostWriteAt (addr width : Nat) (v : Word) : Option HostInput :=
  if Config.coreBase ≤ addr ∧ addr < Config.coreBase + windowSize then
    some (.write (addr - Config.coreBase) width v)
  else none

/-- Four bytes as a 32-bit access word: lane k is byte k (20_memory.md R62). -/
def wordOfBytes (bs : List Byte) : Word := BitVec.ofNat 32 (leToNat bs)

/-- The four bytes of a 32-bit access word (20_memory.md R62). -/
def bytesOfWord (v : Word) : List Byte := natToLe 4 v.toNat

namespace State

/-- The storage word at an aligned offset (20_memory.md R62). -/
def storageWord (s : State) (off : Nat) : Word := wordOfBytes (s.bytes off 4)

/-- The word at 0x3B0: FEI_K1 in lane 0, FEI_K2 in lane 1, lanes 2 and 3 read 0 (10_state.md R20, R26, R31). -/
def feiWord (s : State) : Word := wordOfBytes [s.feiK1, s.feiK2, 0, 0]

/-- What a host read of the aligned word at `off` returns. While BUSY = 1 a read of ERRCODE, DOUT, STATE, RK or the
subkeys returns a free value (10_state.md R21 to R31, 20_memory.md R67); the reserved bytes beside the subkeys read 0
then too (10_state.md R26). -/
def windowWord (s : State) (off : Nat) : Word :=
  match regionOf off with
  | .id => Config.coreId
  | .ctrl => s.ctrlWord
  | .status => s.statusWord
  | .cmd => s.cmd
  | .errcode => if s.status.busy then Config.busyRead s.draws else s.errcode.setWidth 32
  | .din => s.storageWord off
  | .dout | .aesState | .rk => if s.status.busy then Config.busyRead s.draws else s.storageWord off
  | .fei => if s.status.busy then Config.busyRead s.draws &&& 0x0000FFFF else s.feiWord
  | .reserved => 0

/-- A write of CTRL: bit 31 is a soft reset; else IRQ_EN ← bit 0 and TRACE_EN ← bit 1, hardwired 0 without HAS_TRACE
(10_state.md R22, 70_reset_and_hazards.md R372). -/
def writeCtrl (s : State) (v : Word) : State :=
  if v.getLsbD 31 then s.softReset
  else { s with ctrl := ⟨v.getLsbD 0, v.getLsbD 1 && Config.hasTrace⟩ }

/-- A write of STATUS: 1 clears DONE (bit 1) and OVR (bit 3); every other bit is ignored (10_state.md R23). -/
def writeStatus (s : State) (v : Word) : State :=
  { s with status := { s.status with
      done := s.status.done && !v.getLsbD 1
      ovr := s.status.ovr && !v.getLsbD 3 } }

/-- A host write of the aligned word at `off` (20_memory.md R64 to R66). -/
def writeWindow (s : State) (off : Nat) (v : Word) : State :=
  match regionOf off with
  | .ctrl => s.writeCtrl v
  | .status => s.writeStatus v
  | .cmd => if s.status.busy then s.setOvr else s.issue v
  | .din | .aesState => if s.status.busy then s.setOvr else s.writeBytes off (bytesOfWord v)
  | .id | .errcode | .dout | .rk | .fei | .reserved => s

end State

/-- An access the engine answers: 32 bits at a multiple of 4 inside the window (20_memory.md R60, R61). -/
def accessFault (off width : Nat) : Option Fault :=
  if width ≠ 4 ∨ off % 4 ≠ 0 then some .busError
  else if windowSize ≤ off then some .outsideWindow
  else none

/-- A host read: no side effect but the data it returns (20_memory.md R64). -/
def hostRead (off width : Nat) (s : State) : Outcome :=
  match accessFault off width with
  | some e => .fault e
  | none => .next { s with readData := some (s.windowWord off) }

/-- A host write (20_memory.md R64 to R66). -/
def hostWrite (off width : Nat) (v : Word) (s : State) : Outcome :=
  match accessFault off width with
  | some e => .fault e
  | none => .next (s.writeWindow off v)

end Sys2Proof.Machine
end

