-- ==== Sys2Proof/Machine/Step.lean ====
section
/-! DEFINITION. One step of the machine: a host access, an engine step, or a hardware reset, whichever is next
(20_memory.md R68, 40_command_cycle.md R103). -/

namespace Sys2Proof.Machine

/-- The engine's step when BUSY = 1: it decodes PEND, and the command's effect and its completion are one transition
(40_command_cycle.md R102 to R104). An idle engine has no step and nothing changes (40_command_cycle.md R100). -/
def engineStep (s : State) : Outcome :=
  if s.status.busy then
    match s.pending with
    | .legal i => exec i s.tick
    | .illegal _ => execIllegal s.tick
  else .next s

/-- One step. Inputs are taken in order; when none is left the engine takes its step, which is its weak fairness
(70_reset_and_hazards.md R380), and an idle engine rests with every piece of state kept (60_exceptions.md R353). -/
def step (s : State) : Host.Outcome State Fault Refusal :=
  match s.inputs with
  | [] => engineStep s
  | .engineTurn :: rest => engineStep { s with inputs := rest }
  | .read off width :: rest => hostRead off width ({ s with inputs := rest } : State).tick
  | .write off width v :: rest => hostWrite off width v ({ s with inputs := rest } : State).tick
  | .hardwareReset :: rest => .next ({ s with inputs := rest } : State).tick.hardwareReset

/-- `s` with the command word of a table row issued and the engine's turn next: the CMD write of 40_command_cycle.md R101
has been made, so that the very next step decodes and runs exactly this word. Bits from `nbits` up are 0. -/
def State.withFetchWord (s : State) (nbits w : Nat) : State :=
  let t := s.issue (BitVec.ofNat 32 (w % 2 ^ nbits))
  { t with inputs := .engineTurn :: s.inputs }

end Sys2Proof.Machine
end

