-- ==== Sys2Proof/Safety.lean ====
section
/-! DEFINITION. What a safe state is, and the words frames are written in: what stays the same between two states. -/

namespace Sys2Proof.Machine

/-- The codes ERRCODE can hold; 0x03, 0x07 to 0x0F and 0x12 to 0xFF are never written (60_exceptions.md R340). -/
def legalCodes : List Byte := [0x00, 0x01, 0x02, 0x04, 0x05, 0x06, 0x10, 0x11]

namespace State

/-- Every byte of RK has been written (42_aes_key_expansion.md R160). -/
def scheduleStored (s : State) : Prop := ∀ j, j < 176 → (s.stored (rkBase + j)).isSome = true

/-- EC_A, EC_B, EC_P are a curve EC_SETCURVE accepts (47_ec.md R310). -/
def curveValid (s : State) : Prop :=
  2 ≤ s.curve.p ∧ s.curve.a < s.curve.p ∧ s.curve.b < s.curve.p ∧
  (4 * s.curve.a ^ 3 + 27 * s.curve.b ^ 2) % s.curve.p ≠ 0

/-- In an MD5 computation H[0..3] hold 32-bit values and H[4..7] are 0 (10_state.md R36, 46_md5.md R275). -/
def md5Words (s : State) : Prop :=
  (∀ i : Fin 8, i.val < 4 → s.h[i].toNat < 2 ^ 32) ∧ (∀ i : Fin 8, 4 ≤ i.val → s.h[i] = 0)

/-- The states a run can reach satisfy this, and every step keeps it. -/
structure Inv (s : State) : Prop where
  /-- Window storage is in its canonical form. -/
  storage : Memory.wf s.mem
  /-- DONE is 0 while BUSY = 1 (60_exceptions.md R348). -/
  busyNotDone : s.status.busy = true → s.status.done = false
  /-- CMD's read-back equals PEND (10_state.md R37). -/
  cmdIsPend : s.cmd = s.pend
  /-- ERRCODE holds a code that can be written (60_exceptions.md R340). -/
  code : s.errcode ∈ legalCodes
  /-- TRACE_EN is hardwired 0 without HAS_TRACE (10_state.md R22). -/
  traceEn : s.ctrl.traceEn = true → Config.hasTrace = true
  /-- A command never reads RK unwritten (10_state.md R42). -/
  aes : s.status.aesKv = true → s.scheduleStored
  /-- A command never reads the subkeys unwritten (10_state.md R42). -/
  fei : s.status.feiKv = true → (s.stored feiK1Addr).isSome = true ∧ (s.stored feiK2Addr).isSome = true
  /-- p ≥ 2 whenever EC_CV = 1 (47_ec.md R291), and the rest of what EC_SETCURVE checked. -/
  curve : s.status.ecCv = true → s.curveValid
  /-- EC_G stays valid while EC_GV = 1 (47_ec.md R306). -/
  base : s.status.ecGv = true → s.status.ecCv = true ∧ Ec.onCurve s.curve s.ecG = true
  /-- BUFCNT is the number of message bytes of the last, incomplete block (10_state.md R36, 44_digest.md R223). -/
  count : s.status.hashAct = true → s.bufCnt = s.msgLen.toNat / 8 % s.status.hashAlg.blockSize
  /-- MSGLEN counts the bits of whole bytes (44_digest.md R224). -/
  wholeBytes : s.status.hashAct = true → s.msgLen.toNat % 8 = 0
  /-- MD5 uses 32-bit words (10_state.md R36). -/
  md5 : s.status.hashAct = true → s.status.hashAlg = .md5 → s.md5Words

end State

/-- No command changes these: CTRL, CMD, PEND, and the host's side of the bus. -/
def SameControl (s t : State) : Prop :=
  t.ctrl = s.ctrl ∧ t.cmd = s.cmd ∧ t.pend = s.pend ∧ t.inputs = s.inputs ∧ t.readData = s.readData ∧
  t.draws = s.draws

/-- The point registers are unchanged. -/
def SamePoints (s t : State) : Prop := t.pr = s.pr ∧ t.prWritten = s.prWritten

/-- The point registers other than those of `regs` are unchanged. -/
def SamePointsBut (regs : List PReg) (s t : State) : Prop :=
  ∀ i : PReg, i ∉ regs → t.pr[i] = s.pr[i] ∧ t.prWritten[i] = s.prWritten[i]

/-- PR[i] has been written and holds `p`. -/
def HoldsPoint (t : State) (i : PReg) (p : Point) : Prop := t.prWritten[i] = true ∧ t.pr[i] = p

/-- The scalar registers are unchanged. -/
def SameScalars (s t : State) : Prop := t.sk = s.sk ∧ t.skWritten = s.skWritten

/-- EC_A, EC_B, EC_P are unchanged. -/
def SameCurve (s t : State) : Prop := t.ecA = s.ecA ∧ t.ecB = s.ecB ∧ t.ecP = s.ecP

/-- EC_G and EC_N are unchanged. -/
def SameBase (s t : State) : Prop := t.ecG = s.ecG ∧ t.ecN = s.ecN

/-- H, BUF, BUFCNT and MSGLEN are unchanged. -/
def SameDigest (s t : State) : Prop :=
  t.h = s.h ∧ t.buf = s.buf ∧ t.bufCnt = s.bufCnt ∧ t.msgLen = s.msgLen

/-- Every register that is not in the window is unchanged. -/
def SameRegisters (s t : State) : Prop :=
  SamePoints s t ∧ SameScalars s t ∧ SameCurve s t ∧ SameBase s t ∧ SameDigest s t

/-- Every byte of window storage outside `n` bytes from `lo` is unchanged. -/
def SameStorageOutside (lo n : Nat) (s t : State) : Prop :=
  ∀ a, ¬ (lo ≤ a ∧ a < lo + n) → t.stored a = s.stored a

/-- Every byte of window storage is unchanged. -/
def SameStorage (s t : State) : Prop := ∀ a, t.stored a = s.stored a

/-- The bytes stand in storage from `lo` on. -/
def StoredAt (t : State) (lo : Nat) (bs : List Byte) : Prop := ∀ j, j < bs.length → t.stored (lo + j) = bs[j]?

/-- Completion without error: ERRCODE = 0, and STATUS is `st` but for BUSY = 0 and DONE = 1 (40_command_cycle.md R104). -/
def CompletedWith (t : State) (st : Status) : Prop :=
  t.errcode = 0 ∧ t.status = { st with busy := false, done := true }

/-- The command raised `e`: ERRCODE is its code, and STATUS is `st` but for BUSY = 0 and DONE = 1
(40_command_cycle.md R104). -/
def RaisedWith (t : State) (st : Status) (e : ErrorKind) : Prop :=
  t.errcode = e.code ∧ t.status = { st with busy := false, done := true }

/-- The trace sink has the old records and, if HAS_TRACE and TRACE_EN = 1, these after them, each with PEND's low byte
(60_exceptions.md R352). -/
def TraceGrowsBy (records : List (Nat × List Byte)) (s t : State) : Prop :=
  t.trace = if s.ctrl.traceEn = true ∧ Config.hasTrace = true then
    s.trace ++ records.map (fun r => ⟨s.pend.setWidth 8, BitVec.ofNat 16 r.1, r.2⟩) else s.trace

/-- Nothing but ERRCODE and STATUS differs (40_command_cycle.md R105). -/
def OnlyStatusWritten (s t : State) : Prop :=
  SameControl s t ∧ SameRegisters s t ∧ SameStorage s t ∧ t.trace = s.trace

/-- Every register outside the window is unchanged but the point registers of `regs`. -/
def SameRegistersBut (regs : List PReg) (s t : State) : Prop :=
  SamePointsBut regs s t ∧ SameScalars s t ∧ SameCurve s t ∧ SameBase s t ∧ SameDigest s t

/-- The construction step a command needs has not succeeded (60_exceptions.md R341). -/
def notConfigured (s : State) : Instr → Bool
  | .feiEnc _ | .feiDec _ => !s.status.feiKv
  | .aesEnc _ | .aesDec _ | .aesArk _ => !s.status.aesKv
  | .hashUpdate _ | .hashFinal => !s.status.hashAct
  | .ecSetbase | .ecOncurve _ | .ecNeg _ _ | .ecAdd _ _ _ | .ecDbl _ _ | .ecMul _ _ _ | .ecDec _ _ _ _ =>
    !s.status.ecCv
  | .ecPub _ _ | .ecEnc _ _ _ _ => !s.status.ecCv || !s.status.ecGv
  | .nop | .feiKey _ | .aesKeyexp _ | .aesSb | .aesSr | .aesMc | .aesIsb | .aesIsr | .aesImc | .sha512Init | .md5Init
  | .ecSetcurve | .ecLdpt _ | .ecStpt _ | .ecLdk _ => false

/-- The length error of a command's LEN, if it has one (60_exceptions.md R340, R341). -/
def lengthError : Instr → Option ErrorKind
  | .feiKey len => if len.toNat = 10 then none else some .invalidKeyLength
  | .aesKeyexp len => if len.toNat = 16 then none else some .invalidKeyLength
  | .feiEnc len | .feiDec len => if len.toNat = 8 then none else some .invalidBlockLength
  | .aesEnc len | .aesDec len => if len.toNat = 16 then none else some .invalidBlockLength
  | .hashUpdate len => if len.toNat ≤ 128 then none else some .invalidBlockLength
  | .nop | .aesSb | .aesSr | .aesMc | .aesArk _ | .aesIsb | .aesIsr | .aesImc | .sha512Init | .md5Init | .hashFinal
  | .ecSetcurve | .ecSetbase | .ecLdpt _ | .ecStpt _ | .ecLdk _ | .ecOncurve _ | .ecNeg _ _ | .ecAdd _ _ _
  | .ecDbl _ _ | .ecMul _ _ _ | .ecPub _ _ | .ecEnc _ _ _ _ | .ecDec _ _ _ _ => none

/-- EC_SETCURVE's operands make no curve (47_ec.md R310). -/
def singular (a b p : Nat) : Prop := p ≤ 1 ∨ (4 * (a % p) ^ 3 + 27 * (b % p) ^ 2) % p = 0

/-- The error of a command's operand values, if they have one: the curve's, or the first off-curve point in the order RA,
RB (60_exceptions.md R342, 47_ec.md R306). -/
def OperandError (s : State) (e : ErrorKind) : Instr → Prop
  | .ecSetcurve => e = .singularCurve ∧ singular (s.slot 0) (s.slot 1) (s.slot 2)
  | .ecSetbase => e = .pointNotOnCurve ∧
      Ec.onCurve s.curve (.affine (BitVec.ofNat 256 (s.slot 0)) (BitVec.ofNat 256 (s.slot 1))) = false
  | .ecNeg _ ra | .ecDbl _ ra | .ecMul _ ra _ => e = .pointNotOnCurve ∧ Ec.onCurve s.curve (s.readPr ra) = false
  | .ecAdd _ ra rb | .ecEnc _ ra rb _ | .ecDec _ ra rb _ => e = .pointNotOnCurve ∧
      (Ec.onCurve s.curve (s.readPr ra) = false ∨ Ec.onCurve s.curve (s.readPr rb) = false)
  | .nop | .feiKey _ | .feiEnc _ | .feiDec _ | .aesKeyexp _ | .aesEnc _ | .aesDec _ | .aesSb | .aesSr | .aesMc
  | .aesArk _ | .aesIsb | .aesIsr | .aesImc | .sha512Init | .md5Init | .hashUpdate _ | .hashFinal | .ecLdpt _
  | .ecStpt _ | .ecLdk _ | .ecOncurve _ | .ecPub _ _ => False

/-- The commands whose computation can meet a number that is not invertible (60_exceptions.md R340, R341). -/
def mayBeNonInvertible : Instr → Bool
  | .ecAdd _ _ _ | .ecDbl _ _ | .ecMul _ _ _ | .ecPub _ _ | .ecEnc _ _ _ _ | .ecDec _ _ _ _ => true
  | .nop | .feiKey _ | .feiEnc _ | .feiDec _ | .aesKeyexp _ | .aesEnc _ | .aesDec _ | .aesSb | .aesSr | .aesMc
  | .aesArk _ | .aesIsb | .aesIsr | .aesImc | .sha512Init | .md5Init | .hashUpdate _ | .hashFinal | .ecSetcurve
  | .ecSetbase | .ecLdpt _ | .ecStpt _ | .ecLdk _ | .ecOncurve _ | .ecNeg _ _ => false

/-- STATUS after a failed command: the failed construction command has cleared its unit's validity flags, and no other
command has cleared any (40_command_cycle.md R106). -/
def statusAfterFailure (st : Status) : Instr → Status
  | .feiKey _ => { st with busy := false, done := true, feiKv := false }
  | .aesKeyexp _ => { st with busy := false, done := true, aesKv := false }
  | .ecSetcurve => { st with busy := false, done := true, ecCv := false, ecGv := false }
  | .ecSetbase => { st with busy := false, done := true, ecGv := false }
  | .nop | .feiEnc _ | .feiDec _ | .aesEnc _ | .aesDec _ | .aesSb | .aesSr | .aesMc | .aesArk _ | .aesIsb | .aesIsr
  | .aesImc | .sha512Init | .md5Init | .hashUpdate _ | .hashFinal | .ecLdpt _ | .ecStpt _ | .ecLdk _ | .ecOncurve _
  | .ecNeg _ _ | .ecAdd _ _ _ | .ecDbl _ _ | .ecMul _ _ _ | .ecPub _ _ | .ecEnc _ _ _ _ | .ecDec _ _ _ _ =>
    { st with busy := false, done := true }

/-- The commands that need no construction step (60_exceptions.md R341, 70_reset_and_hazards.md R373). -/
def needsNoConstruction : Instr → Bool
  | .nop | .feiKey _ | .aesKeyexp _ | .aesSb | .aesSr | .aesMc | .aesIsb | .aesIsr | .aesImc | .sha512Init | .md5Init
  | .ecSetcurve | .ecLdpt _ | .ecStpt _ | .ecLdk _ => true
  | .feiEnc _ | .feiDec _ | .aesEnc _ | .aesDec _ | .aesArk _ | .hashUpdate _ | .hashFinal | .ecSetbase | .ecOncurve _
  | .ecNeg _ _ | .ecAdd _ _ _ | .ecDbl _ _ | .ecMul _ _ _ | .ecPub _ _ | .ecEnc _ _ _ _ | .ecDec _ _ _ _ => false

/-- The window storage a command's rule can write, as (first offset, number of bytes) (10_state.md R27 to R31). -/
def destinationBytes : Instr → List (Nat × Nat)
  | .feiKey _ => [(0x3B0, 2)]
  | .feiEnc _ | .feiDec _ | .ecOncurve _ => [(0x180, 4)]
  | .aesKeyexp _ => [(0x300, 176)]
  | .aesEnc _ | .aesDec _ => [(0x200, 16), (0x180, 16)]
  | .aesSb | .aesSr | .aesMc | .aesArk _ | .aesIsb | .aesIsr | .aesImc => [(0x200, 16)]
  | .hashFinal => [(0x180, 64)]
  | .ecStpt _ => [(0x180, 68)]
  | .nop | .sha512Init | .md5Init | .hashUpdate _ | .ecSetcurve | .ecSetbase | .ecLdpt _ | .ecLdk _ | .ecNeg _ _
  | .ecAdd _ _ _ | .ecDbl _ _ | .ecMul _ _ _ | .ecPub _ _ | .ecEnc _ _ _ _ | .ecDec _ _ _ _ => []

/-- The point registers a command's rule can write (10_state.md R34). -/
def destinationPoints : Instr → List PReg
  | .ecLdpt rd | .ecNeg rd _ | .ecAdd rd _ _ | .ecDbl rd _ | .ecMul rd _ _ | .ecPub rd _ | .ecDec rd _ _ _ => [rd]
  | .ecEnc rd _ _ _ => [rd, rd + 1]
  | .nop | .feiKey _ | .feiEnc _ | .feiDec _ | .aesKeyexp _ | .aesEnc _ | .aesDec _ | .aesSb | .aesSr | .aesMc
  | .aesArk _ | .aesIsb | .aesIsr | .aesImc | .sha512Init | .md5Init | .hashUpdate _ | .hashFinal | .ecSetcurve
  | .ecSetbase | .ecStpt _ | .ecLdk _ | .ecOncurve _ => []

/-- The scalar registers a command's rule can write (10_state.md R35). -/
def destinationScalars : Instr → List SReg
  | .ecLdk ks => [ks]
  | .nop | .feiKey _ | .feiEnc _ | .feiDec _ | .aesKeyexp _ | .aesEnc _ | .aesDec _ | .aesSb | .aesSr | .aesMc
  | .aesArk _ | .aesIsb | .aesIsr | .aesImc | .sha512Init | .md5Init | .hashUpdate _ | .hashFinal | .ecSetcurve
  | .ecSetbase | .ecLdpt _ | .ecStpt _ | .ecOncurve _ | .ecNeg _ _ | .ecAdd _ _ _ | .ecDbl _ _ | .ecMul _ _ _
  | .ecPub _ _ | .ecEnc _ _ _ _ | .ecDec _ _ _ _ => []

/-- The commands that can write the digest registers (10_state.md R36). -/
def isDigestCommand : Instr → Bool
  | .sha512Init | .md5Init | .hashUpdate _ | .hashFinal => true
  | .nop | .feiKey _ | .feiEnc _ | .feiDec _ | .aesKeyexp _ | .aesEnc _ | .aesDec _ | .aesSb | .aesSr | .aesMc
  | .aesArk _ | .aesIsb | .aesIsr | .aesImc | .ecSetcurve | .ecSetbase | .ecLdpt _ | .ecStpt _ | .ecLdk _
  | .ecOncurve _ | .ecNeg _ _ | .ecAdd _ _ _ | .ecDbl _ _ | .ecMul _ _ _ | .ecPub _ _ | .ecEnc _ _ _ _
  | .ecDec _ _ _ _ => false

/-- An offset lies in storage the command's rule can write. -/
def InDestination (i : Instr) (a : Nat) : Prop := ∃ r ∈ destinationBytes i, r.1 ≤ a ∧ a < r.1 + r.2

/-- Of the digest registers only what the command's rule can write differs: HASH_FINAL keeps MSGLEN (44_digest.md R225,
R227), the INIT commands keep BUF (44_digest.md R221, R222), every other command but HASH_UPDATE keeps them all. -/
def SameDigestBut (i : Instr) (s t : State) : Prop :=
  (isDigestCommand i = false → SameDigest s t) ∧ (i = .hashFinal → t.msgLen = s.msgLen) ∧
  (i = .sha512Init ∨ i = .md5Init → t.buf = s.buf)

/-- Only what the command's rule can write differs, of all storage and registers (40_command_cycle.md R105). -/
def SameButDestinations (i : Instr) (s t : State) : Prop :=
  (∀ a, ¬ InDestination i a → t.stored a = s.stored a) ∧ SamePointsBut (destinationPoints i) s t ∧
  (∀ k : SReg, k ∉ destinationScalars i → t.sk[k] = s.sk[k] ∧ t.skWritten[k] = s.skWritten[k]) ∧
  (i ≠ .ecSetcurve → SameCurve s t) ∧ (i ≠ .ecSetbase → SameBase s t) ∧ SameDigestBut i s t

/-- STATE after AddRoundKey(r) of the cipher, r = 0..10 (43_aes_rounds.md R188, R199). -/
def Aes.encState (rk : Nat → Block) (b : Block) : Nat → Block
  | 0 => Aes.addRoundKey (rk 0) b
  | r + 1 =>
    let u := Aes.shiftRows (Aes.subBytes (Aes.encState rk b r))
    Aes.addRoundKey (rk (r + 1)) (if r + 1 = 10 then u else Aes.mixColumns u)

/-- STATE after the AddRoundKey of round 10 - j of the inverse cipher, j = 0..10 (43_aes_rounds.md R189, R199). -/
def Aes.decState (rk : Nat → Block) (b : Block) : Nat → Block
  | 0 => Aes.addRoundKey (rk 10) b
  | j + 1 =>
    let u := Aes.decState rk b j
    let u := if j = 0 then u else Aes.invMixColumns u
    Aes.addRoundKey (rk (10 - (j + 1))) (Aes.invSubBytes (Aes.invShiftRows u))

/-- Word i of the key schedule as RK holds it (10_state.md R30). -/
def State.rkWord (t : State) (i : Nat) : Aes.KeyWord := Vector.ofFn fun j : Fin 4 => t.byte (rkBase + 4 * i + j.val)

/-- The length field of a message of `n` bytes: 128 bits big-endian or 64 bits little-endian (44_digest.md R226). -/
def HashAlg.lengthField (alg : HashAlg) (n : Nat) : List Byte :=
  match alg with
  | .sha512 => natToBe 16 (8 * n % 2 ^ 128)
  | .md5 => natToLe 8 (8 * n % 2 ^ 64)

/-- The bytes `pad()` absorbs when BUFCNT is `cnt` and MSGLEN is `l`: 0x80, the fewest zero bytes that reach the length
field's place, the length field (44_digest.md R225, R226). -/
def HashAlg.padding (alg : HashAlg) (cnt : Nat) (l : BitVec 128) : List Byte :=
  let zeros := (2 * alg.blockSize - alg.lengthSize - (cnt + 1) % alg.blockSize) % alg.blockSize
  [0x80] ++ List.replicate zeros 0 ++
    match alg with
    | .sha512 => natToBe 16 l.toNat
    | .md5 => natToLe 8 (l.toNat % 2 ^ 64)

/-- The message with its padding: 0x80, the fewest zero bytes that reach the length field's place, the length field
(44_digest.md R225, R226). -/
def HashAlg.padded (alg : HashAlg) (m : List Byte) : List Byte :=
  let zeros := (2 * alg.blockSize - alg.lengthSize - (m.length + 1) % alg.blockSize) % alg.blockSize
  m ++ [0x80] ++ List.replicate zeros 0 ++ alg.lengthField m.length

/-- The initial hash words (44_digest.md R221, R222). -/
def HashAlg.iv (alg : HashAlg) : Vector Word64 8 :=
  match alg with
  | .sha512 => Config.iv512
  | .md5 => md5Iv

/-- Block k of a padded message. -/
def HashAlg.blockAt (alg : HashAlg) (m : List Byte) (k : Nat) : List Byte :=
  (m.drop (alg.blockSize * k)).take alg.blockSize

/-- `hash(message)`, the stateless function: the compressions of the padded message's blocks in order, then the digest
(44_digest.md R229, R231). It uses no buffer and no count, unlike the commands. -/
def HashAlg.hash (alg : HashAlg) (m : List Byte) : List Byte :=
  let p := alg.padded m
  alg.digest ((List.range (p.length / alg.blockSize)).foldl (fun h k => (alg.compress h (alg.blockAt p k)).1) alg.iv)

/-- The INIT command of an algorithm (44_digest.md R221, R222). -/
def HashAlg.initCommand : HashAlg → Instr
  | .sha512 => .sha512Init
  | .md5 => .md5Init

/-- A command run by the engine on an outcome that is a next state; anything else is passed on. -/
def andThen (o : Outcome) (f : State → Outcome) : Outcome :=
  match o with
  | .next s => f s
  | .fault e => .fault e
  | .refused r => .refused r

/-- The host writes each piece to DIN[0..] and runs HASH_UPDATE on it (44_digest.md R231). -/
def updateAll : List (List Byte) → State → Outcome
  | [], s => .next s
  | m :: ms, s =>
    andThen (exec (.hashUpdate (BitVec.ofNat 8 m.length)) (s.writeBytes dinBase m)) (updateAll ms)

/-- The result r is the third point of slope m through (x1, y1), the second point's coordinate being x2: the `x3` and `y3`
formulas of doubling and addition (47_ec.md R296, R297). -/
def Ec.SlopeResult (p : Nat) (m x1 y1 x2 : Int) (r : Option Point) : Prop :=
  ∃ x3 y3 : Word256, r = some (.affine x3 y3) ∧ (x3.toNat : Int) = (m ^ 2 - x1 - x2) % p ∧
    (y3.toNat : Int) = (m * (x1 - x3.toNat) - y1) % p

/-- An odd prime modulus and a curve on it that EC_SETCURVE accepts (47_ec.md R324). -/
def Curve.overPrime (c : Curve) : Prop :=
  Nat.Prime c.p ∧ c.p ≠ 2 ∧ c.p < 2 ^ 256 ∧ c.a < c.p ∧ c.b < c.p ∧ ¬ singular c.a c.b c.p

/-- The curve (1, 1, 11) of the spec's examples (47_ec.md R324). -/
def exampleCurve : Curve := ⟨1, 1, 11⟩

/-- The base point (1, 5) of the spec's examples (47_ec.md R324). -/
def exampleBase : Point := .affine 1 5

end Sys2Proof.Machine
end

