-- ==== Sys2Proof/Certificates/Slice0/Obligations.lean ====
section
/-! DEFINITION. The statements for the provers, one per obligation of OBLIGATIONS.json. Offsets are written as the window's
map gives them (10_state.md R20): DIN 0x100, DOUT 0x180, STATE 0x200, RK 0x300, FEI_K1 0x3B0, FEI_K2 0x3B1. -/

section

open Sys2Proof Sys2Proof.Machine

/-! ### The command word (30_encoding.md) -/

/-- Decoding the word of a well-formed command gives it back, every operand at every value (30_encoding.md R83, R88). -/
def Obligations.DecodeEncodeRoundTrip : Prop :=
  ∀ i : Instr, i.wellFormed = true → decode (encode i) = .legal i

/-- A legal word is the word of the command it decodes to, and that command is well-formed: no two words mean the same
command (30_encoding.md R84, R86). -/
def Obligations.LegalWordIsTheEncoding : Prop :=
  ∀ (w : Word) (i : Instr), decode w = .legal i → i.wellFormed = true ∧ encode i = w

/-- Each field of R81, the reserved bit among them, is its bits of the word, unsigned (30_encoding.md R81, R82). -/
def Obligations.FieldsAreTheBits : Prop :=
  ∀ w : Word,
    (fields w).op.val = (w.extractLsb' 0 8).toNat ∧ (fields w).rd.val = (w.extractLsb' 8 3).toNat ∧
    (fields w).ra.val = (w.extractLsb' 11 3).toNat ∧ (fields w).rb.val = (w.extractLsb' 14 3).toNat ∧
    (fields w).ks.val = (w.extractLsb' 17 2).toNat ∧ (fields w).rsv.val = (w.extractLsb' 19 1).toNat ∧
    (fields w).rnd.val = (w.extractLsb' 20 4).toNat ∧
    (fields w).len = w.extractLsb' 24 8

/-- The decoder is the opcode table's: at most one row matches, the matching row gives the command and its fields, except
AES_ARK with RND > 10, and a word no row matches is illegal (30_encoding.md R87). -/
def Obligations.DecoderIsTheOpcodeTable : Prop :=
  (∀ w : Word, (opcodeTable.filter (·.selects w)).length ≤ 1) ∧
  (∀ (w : Word) (r : Row), r ∈ opcodeTable → r.selects w = true →
    ((r.mnemonic = "AES_ARK" ∧ 10 < (w.extractLsb' 20 4).toNat → ∃ why, decode w = .illegal why) ∧
     (¬ (r.mnemonic = "AES_ARK" ∧ 10 < (w.extractLsb' 20 4).toNat) → decode w = .legal (r.build (fields w))))) ∧
  (∀ w : Word, (∀ r ∈ opcodeTable, r.selects w = false) → ∃ why, decode w = .illegal why)

/-- A word is illegal exactly when its OP is unassigned, or a bit outside its command's fields is set, or it is AES_ARK
with RND > 10; and a busy engine's step on an illegal word raises IllegalCommand and changes nothing else
(30_encoding.md R86). -/
def Obligations.IllegalWordsCompleteWithIllegalCommand : Prop :=
  (∀ w : Word, (∃ why, decode w = .illegal why) ↔
    ((∀ r ∈ opcodeTable, r.bits.extractLsb' 0 8 ≠ w.extractLsb' 0 8) ∨
     (∃ r ∈ opcodeTable, r.bits.extractLsb' 0 8 = w.extractLsb' 0 8 ∧ w &&& r.mask ≠ r.bits) ∨
     (w.extractLsb' 0 8 = 0x2B ∧ 10 < (w.extractLsb' 20 4).toNat))) ∧
  (∀ w : Word, (∀ r ∈ opcodeTable, r.bits.extractLsb' 0 8 ≠ w.extractLsb' 0 8) ↔
    (let op := (w.extractLsb' 0 8).toNat
     (0x01 ≤ op ∧ op ≤ 0x0F) ∨ (0x13 ≤ op ∧ op ≤ 0x1F) ∨ (0x23 ≤ op ∧ op ≤ 0x27) ∨ op = 0x2F ∨
     (0x34 ≤ op ∧ op ≤ 0x3F) ∨ 0x4D ≤ op)) ∧
  (∀ (s : State) (why : IllegalReason), s.status.busy = true → decode s.pend = .illegal why →
    ∃ t, engineStep s = .next t ∧ RaisedWith t s.status .illegalCommand ∧ OnlyStatusWritten s.tick t)

/-- Words written out from the spec's encodings decode to the commands they stand for (30_encoding.md R88 and the
examples of the commands' rules). A sanity statement. -/
def Obligations.SpecWordsDecode : Prop :=
  decode 0x00000000 = .legal .nop ∧ decode 0x0A000010 = .legal (.feiKey 10) ∧
  decode 0x10000020 = .legal (.aesKeyexp 16) ∧ decode 0x00A0002B = .legal (.aesArk 10) ∧
  decode 0x03000032 = .legal (.hashUpdate 3) ∧ decode 0x00040044 = .legal (.ecLdk 2) ∧
  decode 0x00001843 = .legal (.ecStpt 3) ∧ decode 0x00008B47 = .legal (.ecAdd 3 1 2) ∧
  decode 0x0002014A = .legal (.ecPub 1 1) ∧ decode 0x0004544B = .legal (.ecEnc 4 2 1 2) ∧
  decode 0x0003664C = .legal (.ecDec 6 4 5 1) ∧ decode 0x00B0002B = .illegal .fieldOutOfRange ∧
  decode 0x0000014B = .illegal .unusedFieldSet ∧ decode 0x0000004D = .illegal .unassignedOpcode

/-! ### The step, the command cycle and the host's accesses (20_memory.md, 40_command_cycle.md) -/

/-- When the pending word decodes to a command, the engine's step is exec of that command on the state in which the step's
draw is counted and, if the turn was an input, that input is taken (40_command_cycle.md R102, R103). -/
def Obligations.StepRunsThePendingCommand : Prop :=
  ∀ (s : State) (i : Instr) (rest : List HostInput), s.status.busy = true → decode s.pend = .legal i →
    (s.inputs = [] → step s = exec i s.tick) ∧
    (s.inputs = .engineTurn :: rest → step s = exec i ({ s with inputs := rest } : State).tick)

/-- An idle engine rests: with no host access to come, or a turn given to it, every piece of its state keeps its value
(60_exceptions.md R353). The turn given to an idle engine is the model's own (notes/assumptions/6.md). -/
def Obligations.IdleEngineRests : Prop :=
  ∀ s : State, s.status.busy = false →
    (s.inputs = [] → step s = .next s) ∧
    (∀ rest, s.inputs = .engineTurn :: rest → step s = .next { s with inputs := rest })

/-- A CMD write while BUSY = 0 is one transition: PEND and CMD take the word, BUSY is set, DONE is cleared and nothing
else of the engine changes; while BUSY = 1 it is ignored and sets OVR (40_command_cycle.md R101). The list of inputs and
the count of draws are the model's own (notes/assumptions/1.md, notes/assumptions/2.md). -/
def Obligations.IssueLatchesTheWord : Prop :=
  ∀ (s : State) (w : Word) (rest : List HostInput), s.inputs = .write 0x00C 4 w :: rest →
    (s.status.busy = false → step s = .next { s with
        inputs := rest, draws := s.draws + 1, pend := w, cmd := w
        status := { s.status with busy := true, done := false } }) ∧
    (s.status.busy = true → step s = .next { s with
        inputs := rest, draws := s.draws + 1, status := { s.status with ovr := true } })

/-- Any access that is not 32 bits wide at a multiple of 4 is a bus error; every access that is, inside the window, is
answered (20_memory.md R61). -/
def Obligations.UndefinedAccessIsABusError : Prop :=
  ∀ (s : State) (off width : Nat) (v : Word),
    (width ≠ 4 ∨ off % 4 ≠ 0 →
      hostRead off width s = .fault .busError ∧ hostWrite off width v s = .fault .busError) ∧
    (width = 4 → off % 4 = 0 → off < 0x400 →
      (∃ t, hostRead off width s = .next t) ∧ ∃ t, hostWrite off width v s = .next t)

/-- Host writes while BUSY = 1: CMD, DIN and STATE are ignored and set OVR; CTRL and STATUS are performed as if idle;
read-only and reserved offsets are ignored and do not set OVR (20_memory.md R66). -/
def Obligations.WritesWhileBusy : Prop :=
  ∀ (s : State) (off : Nat) (v : Word), s.status.busy = true → off % 4 = 0 → off < 0x400 →
    (off = 0x00C ∨ (0x100 ≤ off ∧ off < 0x180) ∨ (0x200 ≤ off ∧ off < 0x210) →
      hostWrite off 4 v s = .next { s with status := { s.status with ovr := true } }) ∧
    (off = 0x004 → v.getLsbD 31 = false → hostWrite off 4 v s =
      .next { s with ctrl := ⟨v.getLsbD 0, v.getLsbD 1 && Config.hasTrace⟩ }) ∧
    (off = 0x004 → v.getLsbD 31 = true → ∃ t, hostWrite off 4 v s = .next t ∧ t.status.busy = false ∧
      t.ctrl = ⟨false, false⟩) ∧
    (off = 0x008 → hostWrite off 4 v s = .next { s with status := { s.status with
        done := s.status.done && !v.getLsbD 1
        ovr := s.status.ovr && !v.getLsbD 3 } }) ∧
    (off = 0x000 ∨ off = 0x010 ∨ (0x014 ≤ off ∧ off < 0x100) ∨ (0x180 ≤ off ∧ off < 0x200) ∨
        (0x210 ≤ off ∧ off < 0x400) → hostWrite off 4 v s = .next s)

/-- Writes of read-only registers and of reserved offsets are ignored, busy or idle; of STATUS only DONE and OVR can
change, and only to 0 where a 1 is written (20_memory.md R65, 10_state.md R23). -/
def Obligations.ReadOnlyWritesIgnored : Prop :=
  ∀ (s : State) (off : Nat) (v : Word), off % 4 = 0 →
    (off = 0x000 ∨ off = 0x010 ∨ (0x014 ≤ off ∧ off < 0x100) ∨ (0x180 ≤ off ∧ off < 0x200) ∨
        (0x210 ≤ off ∧ off < 0x400) → hostWrite off 4 v s = .next s) ∧
    hostWrite 0x008 4 v s = .next { s with status := { s.status with
        done := if v.getLsbD 1 then false else s.status.done
        ovr := if v.getLsbD 3 then false else s.status.ovr } }

/-- An idle write to DIN or STATE puts bits 8k+7:8k of the word at byte off + k, changes no other byte and no register,
and the word reads back (20_memory.md R62). -/
def Obligations.WrittenWordReadsBack : Prop :=
  ∀ (s : State) (off : Nat) (v : Word), s.status.busy = false → off % 4 = 0 →
    (0x100 ≤ off ∧ off < 0x180) ∨ (0x200 ≤ off ∧ off < 0x210) →
    ∃ t, hostWrite off 4 v s = .next t ∧
      (∀ k, k < 4 → t.stored (off + k) = some (v.extractLsb' (8 * k) 8)) ∧ SameStorageOutside off 4 s t ∧
      SameControl s t ∧ SameRegisters s t ∧ t.status = s.status ∧ t.errcode = s.errcode ∧ t.trace = s.trace ∧
      hostRead off 4 t = .next { t with readData := some v }

/-- What a host read returns, by the register the offset lies in, and that it changes nothing but the data returned: ID,
CTRL, STATUS, CMD, DIN and reserved offsets at any time, the rest while BUSY = 0 (10_state.md R21 to R31, 20_memory.md
R62, R64, R67). That the reserved bytes 0x3B2 and 0x3B3 read 0 also while BUSY = 1 is the model's reading of R26 beside R67
(notes/assumptions/12.md). -/
def Obligations.HostReadReturnsTheRegister : Prop :=
  ∀ (s : State) (off : Nat), off % 4 = 0 → off < 0x400 →
    ∃ v : Word, hostRead off 4 s = .next { s with readData := some v } ∧
      (off = 0x000 → v = 0x434E5337) ∧
      (off = 0x004 → ∀ b, v.getLsbD b = ((b == 0 && s.ctrl.irqEn) || (b == 1 && s.ctrl.traceEn))) ∧
      (off = 0x008 → ∀ b, v.getLsbD b = ((b == 0 && s.status.busy) || (b == 1 && s.status.done) ||
        (b == 2 && s.errcode != 0) || (b == 3 && s.status.ovr) || (b == 4 && s.status.aesKv) ||
        (b == 5 && s.status.feiKv) || (b == 6 && s.status.ecCv) || (b == 7 && s.status.ecGv) ||
        (b == 8 && s.status.hashAct) || (b == 9 && s.status.hashAlg == .md5))) ∧
      (off = 0x00C → v = s.cmd) ∧
      (off = 0x010 → s.status.busy = false → v = s.errcode.setWidth 32) ∧
      ((0x014 ≤ off ∧ off < 0x100) ∨ (0x210 ≤ off ∧ off < 0x300) ∨ 0x3B4 ≤ off → v = 0) ∧
      ((0x100 ≤ off ∧ off < 0x180) → ∀ k, k < 4 → v.extractLsb' (8 * k) 8 = s.byte (off + k)) ∧
      ((0x180 ≤ off ∧ off < 0x210) ∨ (0x300 ≤ off ∧ off < 0x3B0) → s.status.busy = false →
        ∀ k, k < 4 → v.extractLsb' (8 * k) 8 = s.byte (off + k)) ∧
      (off = 0x3B0 → v.extractLsb' 16 16 = 0 ∧ (s.status.busy = false →
        v.extractLsb' 0 8 = s.byte 0x3B0 ∧ v.extractLsb' 8 8 = s.byte 0x3B1))

/-- A host write that is not a soft reset changes no register outside the window, no byte of DOUT, RK or the subkeys, no
validity flag, no error code and no trace record (10_state.md R28, R30, R31, R33 to R36, R38). -/
def Obligations.HostWritesReachOnlyTheirRegisters : Prop :=
  ∀ (s t : State) (off : Nat) (v : Word), hostWrite off 4 v s = .next t → ¬ (off = 0x004 ∧ v.getLsbD 31 = true) →
    SameRegisters s t ∧ t.trace = s.trace ∧ t.errcode = s.errcode ∧
    (∀ a, ¬ (0x100 ≤ a ∧ a < 0x180) → ¬ (0x200 ≤ a ∧ a < 0x210) → t.stored a = s.stored a) ∧
    t.status.aesKv = s.status.aesKv ∧ t.status.feiKv = s.status.feiKv ∧ t.status.ecCv = s.status.ecCv ∧
    t.status.ecGv = s.status.ecGv ∧ t.status.hashAct = s.status.hashAct ∧ t.status.hashAlg = s.status.hashAlg

/-! ### Rules of the whole machine (40_command_cycle.md, 60_exceptions.md, 70_reset_and_hazards.md) -/

/-- Every command completes, in every state: the engine is idle again, DONE is set, ERRCODE holds a code that can be
written, and CTRL, CMD and PEND are as before (40_command_cycle.md R104, R108; 60_exceptions.md R343). -/
def Obligations.EveryCommandCompletes : Prop :=
  ∀ (i : Instr) (s : State), ∃ t, exec i s = .next t ∧ t.status.busy = false ∧ t.status.done = true ∧
    t.errcode ∈ legalCodes ∧ t.status.ovr = s.status.ovr ∧ SameControl s t

/-- A command that ends with an error changes no storage and no register; STATUS changes by completion and by the
validity flags a failed construction command clears, and trace records are added only before NonInvertible
(40_command_cycle.md R105, R106). -/
def Obligations.FailureWritesNothingElse : Prop :=
  ∀ (i : Instr) (s t : State), s.Inv → exec i s = .next t → t.errcode ≠ 0 →
    t.status = statusAfterFailure s.status i ∧ SameControl s t ∧ SameRegisters s t ∧ SameStorage s t ∧
    (t.errcode ≠ ErrorKind.nonInvertible.code → t.trace = s.trace) ∧ s.trace <+: t.trace

/-- A command changes no storage and no register but its destinations; in particular no command writes DIN
(10_state.md R27 to R36; 40_command_cycle.md R105). -/
def Obligations.CommandsWriteOnlyTheirDestinations : Prop :=
  ∀ (i : Instr) (s t : State), exec i s = .next t →
    SameButDestinations i s t ∧ ∀ a, 0x100 ≤ a → a < 0x180 → t.stored a = s.stored a

/-- Which error a command reports: IllegalCommand at decode, else NotConfigured, else a length error, else an operand
error, else success or, for the commands that can meet one, NonInvertible (60_exceptions.md R341, R342). -/
def Obligations.ReportedErrorFollowsThePriority : Prop :=
  (∀ (s : State) (why : IllegalReason), s.status.busy = true → decode s.pend = .illegal why →
    ∃ t, engineStep s = .next t ∧ t.errcode = 0x10) ∧
  (∀ (i : Instr) (s : State), i.wellFormed = true → ∃ t, exec i s = .next t ∧
    (notConfigured s i = true → t.errcode = 0x11) ∧
    (notConfigured s i = false → ∀ e, lengthError i = some e → t.errcode = e.code) ∧
    (notConfigured s i = false → lengthError i = none → ∀ e, OperandError s e i → t.errcode = e.code) ∧
    (notConfigured s i = false → lengthError i = none → (∀ e, ¬ OperandError s e i) →
      t.errcode = 0 ∨ (mayBeNonInvertible i = true ∧ t.errcode = 0x06)))

/-- The interrupt output is DONE and IRQ_EN; a completion, successful or not, raises it when enabled; clearing DONE,
issuing the next command, clearing IRQ_EN and either reset lower it (60_exceptions.md R347). -/
def Obligations.InterruptFollowsDone : Prop :=
  (∀ s : State, s.irq = true ↔ s.status.done = true ∧ s.ctrl.irqEn = true) ∧
  (∀ (i : Instr) (s t : State), exec i s = .next t → t.irq = s.ctrl.irqEn) ∧
  (∀ (s : State) (v : Word), v.getLsbD 1 = true → ∃ t, hostWrite 0x008 4 v s = .next t ∧ t.irq = false) ∧
  (∀ (s : State) (w : Word), s.status.busy = false → ∃ t, hostWrite 0x00C 4 w s = .next t ∧ t.irq = false) ∧
  (∀ (s : State) (v : Word), v.getLsbD 0 = false → ∃ t, hostWrite 0x004 4 v s = .next t ∧ t.irq = false) ∧
  (∀ s : State, s.softReset.irq = false ∧ s.hardwareReset.irq = false)

/-- A step that changes DONE is a completion (to 1), or a host write that clears it, a command issue, or a reset (to 0);
a step that completes sets it (60_exceptions.md R347, R348). -/
def Obligations.DoneChangesOnlyByTheRules : Prop :=
  ∀ s t : State, step s = .next t →
    (s.status.busy = true → (s.inputs = [] ∨ ∃ rest, s.inputs = .engineTurn :: rest) → t.status.done = true) ∧
    (s.status.done = false → t.status.done = true →
      s.status.busy = true ∧ (s.inputs = [] ∨ ∃ rest, s.inputs = .engineTurn :: rest)) ∧
    (s.status.done = true → t.status.done = false →
      (∃ v rest, s.inputs = .write 0x008 4 v :: rest ∧ v.getLsbD 1 = true) ∨
      (∃ w rest, s.inputs = .write 0x00C 4 w :: rest ∧ s.status.busy = false) ∨
      (∃ v rest, s.inputs = .write 0x004 4 v :: rest ∧ v.getLsbD 31 = true) ∨
      ∃ rest, s.inputs = .hardwareReset :: rest)

/-- Nothing a command computes depends on the trace sink or on TRACE_EN (60_exceptions.md R352, 10_state.md R38). -/
def Obligations.NothingDependsOnTheTrace : Prop :=
  ∀ (i : Instr) (s t : State) (en : Bool) (sink : List TraceRecord), exec i s = .next t →
    ∃ u, exec i { s with ctrl := { s.ctrl with traceEn := en }, trace := sink } = .next u ∧
      { u with ctrl := t.ctrl, trace := t.trace } = t

/-- The invariant State.Inv holds after a hardware reset. -/
def Obligations.ResetMeetsTheInvariant : Prop :=
  State.reset.Inv ∧ ∀ s : State, s.hardwareReset.Inv

/-- Every step keeps the invariant State.Inv, from every state that meets it. -/
def Obligations.StepKeepsTheInvariant : Prop :=
  ∀ s t : State, s.Inv → step s = .next t → t.Inv

/-- After a hardware reset: CTRL, STATUS, CMD, PEND, ERRCODE and IRQ are 0, ID reads CORE_ID, no byte of storage, no point
and no scalar register is written (70_reset_and_hazards.md R371). That the trace sink is emptied and the inputs still to
come are kept is the model's choice (notes/assumptions/13.md). -/
def Obligations.HardwareResetState : Prop :=
  ∀ (s : State) (rest : List HostInput), s.inputs = .hardwareReset :: rest →
    ∃ t, step s = .next t ∧ t.ctrlWord = 0 ∧ t.statusWord = 0 ∧ t.cmd = 0 ∧ t.pend = 0 ∧ t.errcode = 0 ∧
      t.irq = false ∧ t.windowWord 0x000 = 0x434E5337 ∧ (∀ a, t.stored a = none) ∧
      (∀ i : PReg, t.prWritten[i] = false) ∧ (∀ k : SReg, t.skWritten[k] = false) ∧ t.trace = [] ∧
      t.inputs = rest

/-- A write of CTRL with SRST = 1, whatever its other bits, clears CTRL, STATUS, CMD, PEND and ERRCODE and keeps the trace;
all other storage is kept if no command is pending or the pending word is illegal, and else all of it but what the pending
command could write, whose bytes and point and scalar registers become unwritten (70_reset_and_hazards.md R372). What a
command could write is read from its rule alone (notes/assumptions/5.md). -/
def Obligations.SoftResetState : Prop :=
  ∀ (s : State) (v : Word), v.getLsbD 31 = true →
    ∃ t, hostWrite 0x004 4 v s = .next t ∧ t.ctrlWord = 0 ∧ t.statusWord = 0 ∧ t.cmd = 0 ∧ t.pend = 0 ∧
      t.errcode = 0 ∧ t.irq = false ∧ t.trace = s.trace ∧
      (s.status.busy = false ∨ (∃ why, decode s.pend = .illegal why) → SameStorage s t ∧ SameRegisters s t) ∧
      (∀ i, s.status.busy = true → decode s.pend = .legal i → SameButDestinations i s t ∧
        (∀ a, InDestination i a → t.stored a = none) ∧ (∀ p ∈ destinationPoints i, t.prWritten[p] = false) ∧
        ∀ k ∈ destinationScalars i, t.skWritten[k] = false)

/-- After either reset the engine is idle and accepts the next CMD write, every validity flag is 0, a command that needs a
construction reports NotConfigured, and one that needs none does not (70_reset_and_hazards.md R373). -/
def Obligations.AfterResetCommandsNeedConstruction : Prop :=
  ∀ s t : State, t = s.softReset ∨ t = s.hardwareReset →
    t.status.busy = false ∧ t.status.aesKv = false ∧ t.status.feiKv = false ∧ t.status.ecCv = false ∧
    t.status.ecGv = false ∧ t.status.hashAct = false ∧
    (∀ w, ∃ u, hostWrite 0x00C 4 w t = .next u ∧ u.pend = w ∧ u.status.busy = true ∧
      ∀ i, i.wellFormed = true → decode w = .legal i → ∃ r, engineStep u = .next r ∧
        (needsNoConstruction i = false → r.errcode = 0x11) ∧ (needsNoConstruction i = true → r.errcode ≠ 0x11))

/-! ### NOP and the Feistel unit (40_command_cycle.md R109, 41_feistel.md) -/

/-- NOP is the word 0x00000000 and no other word with OP = 0; it completes without error and changes nothing else; CMD
reads it after reset (40_command_cycle.md R109). -/
def Obligations.NopOnlyCompletes : Prop :=
  decode 0x00000000 = .legal .nop ∧ (∀ w : Word, w.extractLsb' 0 8 = 0 → w ≠ 0 → ∃ why, decode w = .illegal why) ∧
  State.reset.cmd = 0 ∧
  ∀ s : State, ∃ t, exec .nop s = .next t ∧ CompletedWith t s.status ∧ OnlyStatusWritten s t

/-- FEI_KEY: any LEN but 10 raises InvalidKeyLength and clears FEI_KV only; LEN = 10 stores the schedule of the key
DIN[1][1:0] ‖ DIN[0] in FEI_K1 and FEI_K2, sets FEI_KV, and emits (1, K1), (2, K2) (41_feistel.md R131, R133, R136). -/
def Obligations.FeiKeyStoresTheSchedule : Prop :=
  (∀ (s : State) (len : Byte), len ≠ 10 → ∃ t, exec (.feiKey len) s = .next t ∧
    RaisedWith t { s.status with feiKv := false } .invalidKeyLength ∧ OnlyStatusWritten s t) ∧
  (∀ s : State, ∃ t k1 k2, exec (.feiKey 10) s = .next t ∧
    (k1, k2) = Feistel.schedule ((s.byte 0x101).extractLsb' 0 2 ++ s.byte 0x100) ∧
    CompletedWith t { s.status with feiKv := true } ∧ t.stored 0x3B0 = some k1 ∧ t.stored 0x3B1 = some k2 ∧
    SameStorageOutside 0x3B0 2 s t ∧ SameControl s t ∧ SameRegisters s t ∧
    TraceGrowsBy [(1, [k1]), (2, [k2])] s t) ∧
  Feistel.schedule 0b1010000010 = (0b10100100, 0b01000011)

/-- FEI_ENC and FEI_DEC: NotConfigured without a key, then InvalidBlockLength unless LEN = 8; else DOUT[0] is the cipher
of DIN[0] under FEI_K1 and FEI_K2 (K2 first for FEI_DEC), DOUT[1..3] are 0, and the four records are emitted
(41_feistel.md R129, R130, R134 to R136). -/
def Obligations.FeiBlockCommands : Prop :=
  (∀ (s : State) (len : Byte) (i : Instr), i = .feiEnc len ∨ i = .feiDec len →
    (s.status.feiKv = false → ∃ t, exec i s = .next t ∧ RaisedWith t s.status .notConfigured ∧
      OnlyStatusWritten s t) ∧
    (s.status.feiKv = true → len ≠ 8 → ∃ t, exec i s = .next t ∧ RaisedWith t s.status .invalidBlockLength ∧
      OnlyStatusWritten s t)) ∧
  (∀ (s : State) (i : Instr) (first second : Byte), s.status.feiKv = true →
    (i = .feiEnc 8 ∧ first = s.byte 0x3B0 ∧ second = s.byte 0x3B1) ∨
    (i = .feiDec 8 ∧ first = s.byte 0x3B1 ∧ second = s.byte 0x3B0) →
    ∃ t, exec i s = .next t ∧ CompletedWith t s.status ∧
      (let a := Feistel.perm Config.ip 8 (s.byte 0x100)
       let b := Feistel.sw (Feistel.fk a first)
       let c := Feistel.fk b second
       let r := Feistel.perm Config.ipInv 8 c
       StoredAt t 0x180 [r, 0, 0, 0] ∧ TraceGrowsBy [(1, [a]), (2, [b]), (3, [c]), (4, [r])] s t) ∧
      SameStorageOutside 0x180 4 s t ∧ SameControl s t ∧ SameRegisters s t)

/-- Decrypting what was encrypted under the same key gives the block back, for every key and block
(41_feistel.md R137). -/
def Obligations.FeistelRoundTrip : Prop :=
  ∀ (key : BitVec 10) (p : Byte),
    Feistel.sdesDec (Feistel.schedule key).1 (Feistel.schedule key).2
      (Feistel.sdesEnc (Feistel.schedule key).1 (Feistel.schedule key).2 p) = p

/-! ### The AES units (42_aes_key_expansion.md, 43_aes_rounds.md) -/

/-- SBOX[x] = A(inv(x)), with inv(0) = 0 and otherwise x ⊗ inv(x) = 1, and A the affine map
(42_aes_key_expansion.md R153). -/
def Obligations.SboxIsInverseThenAffine : Prop :=
  ∀ x : Byte, ∃ y : Byte, ((x = 0 ∧ y = 0) ∨ Aes.gmul x y = 1) ∧
    Aes.sbox x = y ^^^ y.rotateLeft 1 ^^^ y.rotateLeft 2 ^^^ y.rotateLeft 3 ^^^ y.rotateLeft 4 ^^^ 0x63

/-- The inverse transforms undo SubBytes, ShiftRows and MixColumns, in both orders, and AddRoundKey undoes itself
(42_aes_key_expansion.md R154; 43_aes_rounds.md R185 to R187, R195 to R198). -/
def Obligations.InverseTransformsUndo : Prop :=
  ∀ b key : Block,
    Aes.invSubBytes (Aes.subBytes b) = b ∧ Aes.subBytes (Aes.invSubBytes b) = b ∧
    Aes.invShiftRows (Aes.shiftRows b) = b ∧ Aes.shiftRows (Aes.invShiftRows b) = b ∧
    Aes.invMixColumns (Aes.mixColumns b) = b ∧ Aes.mixColumns (Aes.invMixColumns b) = b ∧
    Aes.addRoundKey key (Aes.addRoundKey key b) = b

/-- AES_KEYEXP: any LEN but 16 raises InvalidKeyLength and clears AES_KV only; LEN = 16 stores a schedule that begins with
the key DIN[0..15] and follows the Rijndael recurrence to word 43, sets AES_KV and emits the eleven round keys
(42_aes_key_expansion.md R157, R160, R161). -/
def Obligations.AesKeyexpStoresTheSchedule : Prop :=
  (∀ (s : State) (len : Byte), len ≠ 16 → ∃ t, exec (.aesKeyexp len) s = .next t ∧
    RaisedWith t { s.status with aesKv := false } .invalidKeyLength ∧ OnlyStatusWritten s t) ∧
  (∀ s : State, ∃ t, exec (.aesKeyexp 16) s = .next t ∧ CompletedWith t { s.status with aesKv := true } ∧
    t.scheduleStored ∧
    (∀ j, j < 16 → t.stored (0x300 + j) = some (s.byte (0x100 + j))) ∧
    (∀ i, 4 ≤ i → i < 44 → t.rkWord i = Aes.xorWord (t.rkWord (i - 4))
      (if i % 4 = 0 then
        Aes.xorWord (Aes.subWord (Aes.rotWord (t.rkWord (i - 1)))) #v[Config.rcon.getD (i / 4) 0, 0, 0, 0]
       else t.rkWord (i - 1))) ∧
    SameStorageOutside 0x300 176 s t ∧ SameControl s t ∧ SameRegisters s t ∧
    TraceGrowsBy ((List.range 11).map fun r => (r, t.bytes (0x300 + 16 * r) 16)) s t)

/-- AES_ENC and AES_DEC: NotConfigured without a key, then InvalidBlockLength unless LEN = 16; else STATE and DOUT[0..15]
are the ten-round cipher, or the inverse cipher, of DIN[0..15] under RK, and the state after each AddRoundKey is recorded
(43_aes_rounds.md R188 to R191, R199). -/
def Obligations.AesBlockCommands : Prop :=
  (∀ (s : State) (len : Byte) (i : Instr), i = .aesEnc len ∨ i = .aesDec len →
    (s.status.aesKv = false → ∃ t, exec i s = .next t ∧ RaisedWith t s.status .notConfigured ∧
      OnlyStatusWritten s t) ∧
    (s.status.aesKv = true → len ≠ 16 → ∃ t, exec i s = .next t ∧ RaisedWith t s.status .invalidBlockLength ∧
      OnlyStatusWritten s t)) ∧
  (∀ (s : State) (i : Instr) (after : Nat → Block), s.status.aesKv = true →
    (i = .aesEnc 16 ∧ after = Aes.encState s.roundKey s.dinBlock) ∨
    (i = .aesDec 16 ∧ after = Aes.decState s.roundKey s.dinBlock) →
    ∃ t, exec i s = .next t ∧ CompletedWith t s.status ∧
      StoredAt t 0x200 (after 10).toList ∧ StoredAt t 0x180 (after 10).toList ∧
      (∀ a, ¬ (0x200 ≤ a ∧ a < 0x210) → ¬ (0x180 ≤ a ∧ a < 0x190) → t.stored a = s.stored a) ∧
      SameControl s t ∧ SameRegisters s t ∧
      TraceGrowsBy ((List.range 11).map fun r => (r, (after r).toList)) s t)

/-- Decrypting what was encrypted under the same round keys gives the block back, whatever the round keys
(43_aes_rounds.md R200). -/
def Obligations.AesRoundTrip : Prop :=
  ∀ (rk : Nat → Block) (b : Block), Aes.invCipher rk (Aes.cipher rk b) = b

/-- AES_SB and AES_ISB: each byte of STATE goes through the S-box or its inverse (43_aes_rounds.md R181, R187, R192, R196,
R199). -/
def Obligations.AesByteSteps : Prop :=
  ∀ (s : State) (i : Instr) (g : Byte → Byte), (i = .aesSb ∧ g = Aes.sbox) ∨ (i = .aesIsb ∧ g = Aes.invSbox) →
    ∃ t, exec i s = .next t ∧ CompletedWith t s.status ∧
      (∀ j, j < 16 → t.stored (0x200 + j) = some (g (s.byte (0x200 + j)))) ∧
      SameStorageOutside 0x200 16 s t ∧ SameControl s t ∧ SameRegisters s t ∧
      TraceGrowsBy [(0, t.bytes 0x200 16)] s t

/-- AES_SR and AES_ISR: row r moves r columns to the left or to the right (43_aes_rounds.md R182, R185, R193, R197,
R199). -/
def Obligations.AesRowSteps : Prop :=
  ∀ (s : State) (i : Instr) (source : Nat → Nat → Nat),
    (i = .aesSr ∧ source = fun r c => (c + r) % 4) ∨ (i = .aesIsr ∧ source = fun r c => (c + 4 - r) % 4) →
    ∃ t, exec i s = .next t ∧ CompletedWith t s.status ∧
      (∀ r c, r < 4 → c < 4 → t.stored (0x200 + r + 4 * c) = some (s.byte (0x200 + r + 4 * source r c))) ∧
      SameStorageOutside 0x200 16 s t ∧ SameControl s t ∧ SameRegisters s t ∧
      TraceGrowsBy [(0, t.bytes 0x200 16)] s t

/-- AES_MC and AES_IMC: each column of STATE times the matrix over GF(2^8), from the old column (43_aes_rounds.md R183,
R186, R194, R198, R199). -/
def Obligations.AesColumnSteps : Prop :=
  ∀ (s : State) (i : Instr) (m : List (List Byte)),
    (i = .aesMc ∧ m = [[2, 3, 1, 1], [1, 2, 3, 1], [1, 1, 2, 3], [3, 1, 1, 2]]) ∨
    (i = .aesImc ∧ m = [[0x0e, 0x0b, 0x0d, 0x09], [0x09, 0x0e, 0x0b, 0x0d], [0x0d, 0x09, 0x0e, 0x0b],
      [0x0b, 0x0d, 0x09, 0x0e]]) →
    ∃ t, exec i s = .next t ∧ CompletedWith t s.status ∧
      (∀ r c, r < 4 → c < 4 → t.stored (0x200 + r + 4 * c) = some
        (Aes.gmul ((m.getD r []).getD 0 0) (s.byte (0x200 + 4 * c)) ^^^
         Aes.gmul ((m.getD r []).getD 1 0) (s.byte (0x200 + 1 + 4 * c)) ^^^
         Aes.gmul ((m.getD r []).getD 2 0) (s.byte (0x200 + 2 + 4 * c)) ^^^
         Aes.gmul ((m.getD r []).getD 3 0) (s.byte (0x200 + 3 + 4 * c)))) ∧
      SameStorageOutside 0x200 16 s t ∧ SameControl s t ∧ SameRegisters s t ∧
      TraceGrowsBy [(0, t.bytes 0x200 16)] s t

/-- AES_ARK: NotConfigured without a key; else round key RND is XORed byte for byte onto STATE, for every RND up to 10;
RND > 10 stands for no legal word and raises IllegalCommand (43_aes_rounds.md R184, R195, R199; the last is the model's own
reading for terms no word decodes to, notes/assumptions/9.md). -/
def Obligations.AesArkAddsTheRoundKey : Prop :=
  (∀ (s : State) (rnd : Fin 16), 10 < rnd.val → ∃ t, exec (.aesArk rnd) s = .next t ∧
    RaisedWith t s.status .illegalCommand ∧ OnlyStatusWritten s t) ∧
  (∀ (s : State) (rnd : Fin 16), rnd.val ≤ 10 → s.status.aesKv = false → ∃ t, exec (.aesArk rnd) s = .next t ∧
    RaisedWith t s.status .notConfigured ∧ OnlyStatusWritten s t) ∧
  (∀ (s : State) (rnd : Fin 16), rnd.val ≤ 10 → s.status.aesKv = true →
    ∃ t, exec (.aesArk rnd) s = .next t ∧ CompletedWith t s.status ∧
      (∀ j, j < 16 → t.stored (0x200 + j) =
        some (s.byte (0x200 + j) ^^^ s.byte (0x300 + 4 * (4 * rnd.val + j / 4) + j % 4))) ∧
      SameStorageOutside 0x200 16 s t ∧ SameControl s t ∧ SameRegisters s t ∧
      TraceGrowsBy [(0, t.bytes 0x200 16)] s t)

/-! ### The digest unit (44_digest.md, 45_sha512.md, 46_md5.md) -/

/-- `compress512`: the schedule is the block's big-endian words and then the recurrence, each of the 80 rounds follows the
round equations, and the last working variables are added into H (45_sha512.md R253 to R255). -/
def Obligations.Sha512CompressFollowsTheRounds : Prop :=
  ∀ (h : Vector Word64 8) (blk : List Byte), blk.length = 128 →
    ∃ (w : Nat → Word64) (v : Nat → Vector Word64 8),
      (∀ t, t < 16 → w t = BitVec.ofNat 64 (beToNat ((blk.drop (8 * t)).take 8))) ∧
      (∀ t, 16 ≤ t → t < 80 → w t =
        Sha512.smallSigma1 (w (t - 2)) + w (t - 7) + Sha512.smallSigma0 (w (t - 15)) + w (t - 16)) ∧
      v 0 = h ∧
      (∀ t, t < 80 →
        let t1 := (v t)[7] + Sha512.bigSigma1 (v t)[4] + Sha512.ch (v t)[4] (v t)[5] (v t)[6] +
          Config.k512.getD t 0 + w t
        let t2 := Sha512.bigSigma0 (v t)[0] + Sha512.maj (v t)[0] (v t)[1] (v t)[2]
        v (t + 1) = #v[t1 + t2, (v t)[0], (v t)[1], (v t)[2], (v t)[3] + t1, (v t)[4], (v t)[5], (v t)[6]]) ∧
      (∀ i : Fin 8, (HashAlg.sha512.compress h blk).1[i] = h[i] + (v 80)[i]) ∧
      (HashAlg.sha512.compress h blk).2 = (List.range 80).map fun t => Sha512.payload (v (t + 1))

/-- `compress5`: the words are the block's little-endian words, each of the 64 steps follows the step equation, the last
values are added into H[0..3] modulo 2^32, and H[4..7] keep their values (46_md5.md R274, R275). -/
def Obligations.Md5CompressFollowsTheSteps : Prop :=
  ∀ (h : Vector Word64 8) (blk : List Byte), blk.length = 64 →
    ∃ v : Nat → Vector Word 4,
      v 0 = #v[h[0].setWidth 32, h[1].setWidth 32, h[2].setWidth 32, h[3].setWidth 32] ∧
      (∀ n, n < 64 →
        let x := BitVec.ofNat 32 (leToNat ((blk.drop (4 * Md5.wordIndex n)).take 4))
        let t := (v n)[1] + Md5.rotl ((v n)[0] + Md5.mix n (v n)[1] (v n)[2] (v n)[3] + Config.t5.getD n 0 + x)
          (Md5.shiftAmount n)
        v (n + 1) = #v[(v n)[3], t, (v n)[1], (v n)[2]]) ∧
      (∀ i : Fin 4, (HashAlg.md5.compress h blk).1[i.val]'(by omega) =
        ((h[i.val]'(by omega)).setWidth 32 + (v 64)[i]).setWidth 64) ∧
      (∀ i : Fin 8, 4 ≤ i.val → (HashAlg.md5.compress h blk).1[i] = h[i]) ∧
      (HashAlg.md5.compress h blk).2 = (List.range 64).map fun n => Md5.payload (v (n + 1))

/-- SHA512_INIT and MD5_INIT: H takes the algorithm's initial words (for MD5 H[4..7] ← 0), BUFCNT and MSGLEN are 0,
HASH_ALG is the algorithm and HASH_ACT is set, whatever computation was active; BUF is left as it is
(44_digest.md R221, R222). -/
def Obligations.HashInitStartsAComputation : Prop :=
  ∀ (s : State) (alg : HashAlg), ∃ t, exec alg.initCommand s = .next t ∧
    CompletedWith t { s.status with hashAct := true, hashAlg := alg } ∧
    (alg = .sha512 → t.h = Config.iv512) ∧
    (alg = .md5 → t.h = #v[0x67452301, 0xefcdab89, 0x98badcfe, 0x10325476, 0, 0, 0, 0]) ∧
    t.bufCnt = 0 ∧ t.msgLen = 0 ∧ t.buf = s.buf ∧
    SamePoints s t ∧ SameScalars s t ∧ SameCurve s t ∧ SameBase s t ∧ SameStorage s t ∧ SameControl s t ∧
    t.trace = s.trace

/-- HASH_UPDATE: NotConfigured when no computation is active, then InvalidBlockLength when LEN > 128; else DIN[0..LEN-1]
are absorbed in order, MSGLEN grows by 8·LEN modulo 2^128, and each compression's rounds are recorded
(44_digest.md R223, R224, R230). -/
def Obligations.HashUpdateAbsorbsDin : Prop :=
  (∀ (s : State) (len : Byte), s.status.hashAct = false → ∃ t, exec (.hashUpdate len) s = .next t ∧
    RaisedWith t s.status .notConfigured ∧ OnlyStatusWritten s t) ∧
  (∀ (s : State) (len : Byte), s.status.hashAct = true → 128 < len.toNat → ∃ t, exec (.hashUpdate len) s = .next t ∧
    RaisedWith t s.status .invalidBlockLength ∧ OnlyStatusWritten s t) ∧
  (∀ (s : State) (len : Byte), s.status.hashAct = true → len.toNat ≤ 128 →
    ∃ t, exec (.hashUpdate len) s = .next t ∧ CompletedWith t s.status ∧
      (let d := ((List.range len.toNat).map fun j => s.byte (0x100 + j)).foldl
         (DigestRun.absorb s.status.hashAlg) ⟨s.h, s.buf, s.bufCnt, []⟩
       t.h = d.h ∧ t.buf = d.buf ∧ t.bufCnt = d.cnt ∧
       TraceGrowsBy (d.payloads.zipIdx.map fun p => (p.2, p.1)) s t) ∧
      t.msgLen.toNat = (s.msgLen.toNat + 8 * len.toNat) % 2 ^ 128 ∧
      SamePoints s t ∧ SameScalars s t ∧ SameCurve s t ∧ SameBase s t ∧ SameStorage s t ∧ SameControl s t)

/-- HASH_FINAL: NotConfigured when no computation is active; else the padding is absorbed (0x80, the fewest zero bytes that
reach the length field's place, the length field), DOUT takes the 64 or 16 digest bytes of H after it, words big-endian or
little-endian, HASH_ACT is cleared, MSGLEN is kept and BUFCNT ends at 0; BUFCNT below the block size is 10_state.md R36
(44_digest.md R225 to R227). -/
def Obligations.HashFinalWritesTheDigest : Prop :=
  (∀ s : State, s.status.hashAct = false → ∃ t, exec .hashFinal s = .next t ∧
    RaisedWith t s.status .notConfigured ∧ OnlyStatusWritten s t) ∧
  (∀ s : State, s.status.hashAct = true → ∃ t, exec .hashFinal s = .next t ∧
    CompletedWith t { s.status with hashAct := false } ∧
    (s.status.hashAlg = .sha512 → SameStorageOutside 0x180 64 s t ∧
      ∀ (i : Fin 8) (j : Nat), j < 8 → t.stored (0x180 + 8 * i.val + j) = some (t.h[i].extractLsb' (56 - 8 * j) 8)) ∧
    (s.status.hashAlg = .md5 → SameStorageOutside 0x180 16 s t ∧
      ∀ (i : Fin 4) (j : Nat), j < 4 →
        t.stored (0x180 + 4 * i.val + j) = some ((t.h[i.val]'(by omega)).extractLsb' (8 * j) 8)) ∧
    (s.bufCnt < s.status.hashAlg.blockSize →
      (let d := (s.status.hashAlg.padding s.bufCnt s.msgLen).foldl (DigestRun.absorb s.status.hashAlg)
         ⟨s.h, s.buf, s.bufCnt, []⟩
       t.h = d.h ∧ t.buf = d.buf ∧ TraceGrowsBy (d.payloads.zipIdx.map fun p => (p.2, p.1)) s t) ∧
      t.bufCnt = 0) ∧ t.msgLen = s.msgLen ∧
    SamePoints s t ∧ SameScalars s t ∧ SameCurve s t ∧ SameBase s t ∧ SameControl s t)

/-- A message split anywhere into pieces of at most 128 bytes, absorbed by INIT, one HASH_UPDATE a piece and HASH_FINAL,
leaves in DOUT the digest of the whole message, as the stateless function gives it, from every state and for both
algorithms (44_digest.md R231). -/
def Obligations.DigestOfASplitMessage : Prop :=
  ∀ (alg : HashAlg) (s : State) (pieces : List (List Byte)), (∀ m ∈ pieces, m.length ≤ 128) →
    ∃ t, andThen (andThen (exec alg.initCommand s) (updateAll pieces)) (exec .hashFinal) = .next t ∧
      t.errcode = 0 ∧ StoredAt t 0x180 (alg.hash pieces.flatten)

/-! ### The elliptic-curve unit (47_ec.md) -/

/-- `inverse(u, p)` for every integer u and 256-bit p ≥ 2 is the unique v in [1, p) with u·v ≡ 1 mod p when u and p are
coprime, and NonInvertible otherwise (47_ec.md R292). -/
def Obligations.InverseIsTheModularInverse : Prop :=
  ∀ (u : Int) (p : Nat), 2 ≤ p → p < 2 ^ 256 →
    (Nat.Coprime (u % p).toNat p → ∃ v, Ec.inverse u p = some v ∧ 1 ≤ v ∧ v < p ∧ (u * v) % p = 1 ∧
      ∀ v' : Nat, 1 ≤ v' → v' < p → (u * v') % p = 1 → v' = v) ∧
    (¬ Nat.Coprime (u % p).toNat p → Ec.inverse u p = none)

/-- On a curve over an odd prime, for points on it, addition, doubling and scalar multiplication never raise NonInvertible,
and their results are on the curve, with coordinates below p (47_ec.md R300, R301). -/
def Obligations.PrimeCurveArithmeticIsClosed : Prop :=
  ∀ (c : Curve) (p q : Point) (k : Word256), c.overPrime → Ec.onCurve c p = true → Ec.onCurve c q = true →
    (∃ r, Ec.add c p q = some r ∧ Ec.onCurve c r = true) ∧
    (∃ r, Ec.double c p = some r ∧ Ec.onCurve c r = true) ∧
    (∃ r, (Ec.scalarMultiply c p k).2 = some r ∧ Ec.onCurve c r = true) ∧
    Ec.onCurve c (Ec.neg c p) = true

/-- On a curve over an odd prime: P + Infinity = P, P + neg(P) = Infinity, 1·P = P, 2·P = double(P), 0·P = Infinity, and a
scalar multiplication runs one iteration per bit of the scalar (47_ec.md R298, R324). -/
def Obligations.GroupLawsOfThePrimeCurve : Prop :=
  ∀ (c : Curve) (p : Point) (k : Word256), c.overPrime → Ec.onCurve c p = true →
    Ec.add c p .infinity = some p ∧ Ec.add c .infinity p = some p ∧
    Ec.add c p (Ec.neg c p) = some .infinity ∧
    (Ec.scalarMultiply c p 0).2 = some .infinity ∧ (Ec.scalarMultiply c p 1).2 = some p ∧
    (Ec.scalarMultiply c p 2).2 = Ec.double c p ∧ (Ec.scalarMultiply c p k).1.length = Nat.size k.toNat

/-- Curve ElGamal on (1, 1, 11) with G = (1, 5): decrypting the encryption of any point M on the curve, for every private
key d and every ephemeral scalar k of 256 bits, gives M (47_ec.md R299, R324). -/
def Obligations.ElGamalRoundTrip : Prop :=
  ∀ (m : Point) (d k : Word256), Ec.onCurve exampleCurve m = true →
    ∃ pu c1 c2, (Ec.scalarMultiply exampleCurve exampleBase d).2 = some pu ∧
      (ecEncrypt exampleCurve exampleBase m pu k).2 = some (c1, c2) ∧
      (ecDecrypt exampleCurve c1 c2 d).2 = some m

/-- EC_SETCURVE: SingularCurve, with EC_CV and EC_GV cleared and the curve kept, when p ≤ 1 or the discriminant is 0 mod p;
else EC_A ← a mod p, EC_B ← b mod p, EC_P ← p, EC_CV set and EC_GV cleared (47_ec.md R310). -/
def Obligations.EcSetcurveSetsTheCurve : Prop :=
  (∀ s : State, singular (s.slot 0) (s.slot 1) (s.slot 2) → ∃ t, exec .ecSetcurve s = .next t ∧
    RaisedWith t { s.status with ecCv := false, ecGv := false } .singularCurve ∧ OnlyStatusWritten s t) ∧
  (∀ s : State, ¬ singular (s.slot 0) (s.slot 1) (s.slot 2) → ∃ t, exec .ecSetcurve s = .next t ∧
    CompletedWith t { s.status with ecCv := true, ecGv := false } ∧
    t.ecA.toNat = s.slot 0 % s.slot 2 ∧ t.ecB.toNat = s.slot 1 % s.slot 2 ∧ t.ecP.toNat = s.slot 2 ∧
    SameBase s t ∧ SamePoints s t ∧ SameScalars s t ∧ SameDigest s t ∧ SameStorage s t ∧ SameControl s t ∧
    t.trace = s.trace)

/-- EC_SETBASE: NotConfigured without a curve; PointNotOnCurve, with EC_GV cleared and G and n kept, when (slot 0, slot 1)
is off the curve; else EC_G and EC_N take the slots and EC_GV is set (47_ec.md R311). -/
def Obligations.EcSetbaseSetsTheBase : Prop :=
  (∀ s : State, s.status.ecCv = false → ∃ t, exec .ecSetbase s = .next t ∧
    RaisedWith t s.status .notConfigured ∧ OnlyStatusWritten s t) ∧
  (∀ (s : State) (x y : Word256), s.status.ecCv = true → x.toNat = s.slot 0 → y.toNat = s.slot 1 →
    Ec.onCurve s.curve (.affine x y) = false → ∃ t, exec .ecSetbase s = .next t ∧
      RaisedWith t { s.status with ecGv := false } .pointNotOnCurve ∧ OnlyStatusWritten s t) ∧
  (∀ (s : State) (x y : Word256), s.status.ecCv = true → x.toNat = s.slot 0 → y.toNat = s.slot 1 →
    Ec.onCurve s.curve (.affine x y) = true → ∃ t, exec .ecSetbase s = .next t ∧
      CompletedWith t { s.status with ecGv := true } ∧ t.ecG = .affine x y ∧ t.ecN.toNat = s.slot 2 ∧
      SameCurve s t ∧ SamePoints s t ∧ SameScalars s t ∧ SameDigest s t ∧ SameStorage s t ∧ SameControl s t ∧
      t.trace = s.trace)

/-- EC_LDPT and EC_LDK load a point register and a scalar register from DIN in every state: the point is Infinity when
DIN[64] bit 0 is 1 (47_ec.md R312, R314). -/
def Obligations.EcLoads : Prop :=
  (∀ (s : State) (rd : PReg), ∃ t, exec (.ecLdpt rd) s = .next t ∧ CompletedWith t s.status ∧
    ((s.byte 0x140).getLsbD 0 = true → HoldsPoint t rd .infinity) ∧
    ((s.byte 0x140).getLsbD 0 = false → ∃ x y : Word256, x.toNat = s.slot 0 ∧ y.toNat = s.slot 1 ∧
      HoldsPoint t rd (.affine x y)) ∧
    SameRegistersBut [rd] s t ∧ SameStorage s t ∧ SameControl s t ∧ t.trace = s.trace) ∧
  (∀ (s : State) (ks : SReg), ∃ t, exec (.ecLdk ks) s = .next t ∧ CompletedWith t s.status ∧
    t.skWritten[ks] = true ∧ t.sk[ks].toNat = s.slot 0 ∧
    (∀ j : SReg, j ≠ ks → t.sk[j] = s.sk[j] ∧ t.skWritten[j] = s.skWritten[j]) ∧
    SamePoints s t ∧ SameCurve s t ∧ SameBase s t ∧ SameDigest s t ∧ SameStorage s t ∧ SameControl s t ∧
    t.trace = s.trace)

/-- EC_STPT writes x, y (32 bytes each, little-endian), the inf flag and three zero bytes to DOUT[0..67], Infinity as x =
y = 0 (47_ec.md R313). -/
def Obligations.EcStptStoresThePoint : Prop :=
  ∀ (s : State) (ra : PReg), ∃ t, exec (.ecStpt ra) s = .next t ∧ CompletedWith t s.status ∧
    (s.readPr ra = .infinity → (∀ j, j < 64 → t.stored (0x180 + j) = some 0) ∧ t.stored 0x1C0 = some 1) ∧
    (∀ x y : Word256, s.readPr ra = .affine x y →
      (∀ j, j < 32 → t.stored (0x180 + j) = some (x.extractLsb' (8 * j) 8)) ∧
      (∀ j, j < 32 → t.stored (0x1A0 + j) = some (y.extractLsb' (8 * j) 8)) ∧ t.stored 0x1C0 = some 0) ∧
    StoredAt t 0x1C1 [0, 0, 0] ∧ SameStorageOutside 0x180 68 s t ∧ SameRegisters s t ∧ SameControl s t ∧
    t.trace = s.trace

/-- EC_ONCURVE: NotConfigured without a curve; else DOUT[0] is 1 if the point is on the curve and 0 if not, which is no
error, and DOUT[1..3] are 0 (47_ec.md R294, R315). -/
def Obligations.EcOncurveAnswersInDout : Prop :=
  (∀ (s : State) (ra : PReg), s.status.ecCv = false → ∃ t, exec (.ecOncurve ra) s = .next t ∧
    RaisedWith t s.status .notConfigured ∧ OnlyStatusWritten s t) ∧
  (∀ (s : State) (ra : PReg), s.status.ecCv = true → ∃ t, exec (.ecOncurve ra) s = .next t ∧
    CompletedWith t s.status ∧
    StoredAt t 0x180 [match s.readPr ra with
      | .infinity => 1
      | .affine x y =>
        if x.toNat < s.ecP.toNat ∧ y.toNat < s.ecP.toNat ∧
          ((y.toNat : Int) ^ 2 - (x.toNat : Int) ^ 3 - s.ecA.toNat * x.toNat - s.ecB.toNat) % s.ecP.toNat = 0
        then 1 else 0, 0, 0, 0] ∧
    SameStorageOutside 0x180 4 s t ∧ SameRegisters s t ∧ SameControl s t ∧ t.trace = s.trace)

/-- `neg`, `double` and `add` follow the formulas of their rules, their cases in the rules' order, an inverse that does not
exist giving NonInvertible (47_ec.md R295 to R297). EC_NEG, EC_ADD and EC_DBL, with a curve and every operand on it: PR[RD]
takes the negative, the sum or the double of the registers' values before the command, whatever RD, RA and RB, and one
record of the result is emitted; if the computation is not invertible, nothing is written (47_ec.md R300, R316 to R318,
R323). -/
def Obligations.EcNegAddDbl : Prop :=
  (∀ c : Curve, 2 ≤ c.p → c.p < 2 ^ 256 →
    Ec.neg c .infinity = .infinity ∧ Ec.double c .infinity = some .infinity ∧
    (∀ q : Point, Ec.add c .infinity q = some q ∧ Ec.add c q .infinity = some q) ∧
    (∀ x y : Word256, ∃ y' : Word256, Ec.neg c (.affine x y) = .affine x y' ∧
      (y'.toNat : Int) = ((c.p : Int) - y.toNat) % c.p) ∧
    (∀ x y : Word256,
      (y = 0 → Ec.double c (.affine x y) = some .infinity) ∧
      (y ≠ 0 → Ec.inverse (2 * (y.toNat : Int)) c.p = none → Ec.double c (.affine x y) = none) ∧
      (y ≠ 0 → ∀ v, Ec.inverse (2 * (y.toNat : Int)) c.p = some v →
        Ec.SlopeResult c.p (((3 * (x.toNat : Int) ^ 2 + c.a) * v) % c.p) x.toNat y.toNat x.toNat
          (Ec.double c (.affine x y)))) ∧
    (∀ x1 y1 x2 y2 : Word256,
      (x1 = x2 → (y1.toNat + y2.toNat) % c.p = 0 →
        Ec.add c (.affine x1 y1) (.affine x2 y2) = some .infinity) ∧
      (x1 = x2 → (y1.toNat + y2.toNat) % c.p ≠ 0 → y1 = y2 →
        Ec.add c (.affine x1 y1) (.affine x2 y2) = Ec.double c (.affine x1 y1)) ∧
      (¬ (x1 = x2 ∧ ((y1.toNat + y2.toNat) % c.p = 0 ∨ y1 = y2)) →
        (Ec.inverse ((x2.toNat : Int) - x1.toNat) c.p = none →
          Ec.add c (.affine x1 y1) (.affine x2 y2) = none) ∧
        ∀ v, Ec.inverse ((x2.toNat : Int) - x1.toNat) c.p = some v →
          Ec.SlopeResult c.p ((((y2.toNat : Int) - y1.toNat) * v) % c.p) x1.toNat y1.toNat x2.toNat
            (Ec.add c (.affine x1 y1) (.affine x2 y2))))) ∧
  ∀ (s : State) (i : Instr) (rd : PReg) (result : Option Point), s.status.ecCv = true →
    ((∃ ra, i = .ecNeg rd ra ∧ Ec.onCurve s.curve (s.readPr ra) = true ∧
        result = some (Ec.neg s.curve (s.readPr ra))) ∨
     (∃ ra rb, i = .ecAdd rd ra rb ∧ Ec.onCurve s.curve (s.readPr ra) = true ∧
        Ec.onCurve s.curve (s.readPr rb) = true ∧ result = Ec.add s.curve (s.readPr ra) (s.readPr rb)) ∨
     (∃ ra, i = .ecDbl rd ra ∧ Ec.onCurve s.curve (s.readPr ra) = true ∧
        result = Ec.double s.curve (s.readPr ra))) →
    (result = none → ∃ t, exec i s = .next t ∧ RaisedWith t s.status .nonInvertible ∧ OnlyStatusWritten s t) ∧
    (∀ r, result = some r → ∃ t, exec i s = .next t ∧ CompletedWith t s.status ∧ HoldsPoint t rd r ∧
      SameRegistersBut [rd] s t ∧ SameStorage s t ∧ SameControl s t ∧ TraceGrowsBy [(0, Ec.pointBytes r)] s t)

/-- `scalarMultiply` is the loop of its rule: from R = Infinity and Q = P, iteration i adds Q to R when bit i of k is 1 and
doubles Q unless it is the last, it gives R after as many iterations as k has bits, and NonInvertible as soon as an addition
or a doubling gives it (47_ec.md R298). EC_MUL and EC_PUB, configured and, for EC_MUL, with the point on the curve: PR[RD]
takes the scalar multiple of PR[RA] or of G, one record R ‖ Q per iteration is emitted, and if the computation is not
invertible nothing is written but the records it had emitted (47_ec.md R300, R319, R320, R323). -/
def Obligations.EcMulPub : Prop :=
  (∀ (c : Curve) (p : Point) (k : Word256),
    (let m := Ec.scalarMultiply c p k
     let len := Nat.size k.toNat
     ∃ (n : Nat) (r q : Nat → Point), n ≤ len ∧ r 0 = .infinity ∧ q 0 = p ∧
       (∀ i, i < n → (k.getLsbD i = true → Ec.add c (r i) (q i) = some (r (i + 1))) ∧
         (k.getLsbD i = false → r (i + 1) = r i) ∧
         (i + 1 < len → Ec.double c (q i) = some (q (i + 1))) ∧ (i + 1 = len → q (i + 1) = q i)) ∧
       m.1 = (List.range n).map (fun i => (r (i + 1), q (i + 1))) ∧ (n = len → m.2 = some (r n)) ∧
       (n < len → m.2 = none ∧ ((k.getLsbD n = true ∧ Ec.add c (r n) (q n) = none) ∨
         (n + 1 < len ∧ Ec.double c (q n) = none))))) ∧
  (∀ (s : State) (i : Instr) (rd : PReg) (ks : SReg) (p : Point), s.status.ecCv = true →
     ((∃ ra, i = .ecMul rd ra ks ∧ p = s.readPr ra ∧ Ec.onCurve s.curve p = true) ∨
      (i = .ecPub rd ks ∧ s.status.ecGv = true ∧ p = s.ecG)) →
     (let m := Ec.scalarMultiply s.curve p (s.readSk ks)
      let records := m.1.zipIdx.map fun x => (x.2, Ec.pointBytes x.1.1 ++ Ec.pointBytes x.1.2)
      (m.2 = none → ∃ t, exec i s = .next t ∧ RaisedWith t s.status .nonInvertible ∧ SameRegisters s t ∧
        SameStorage s t ∧ SameControl s t ∧ TraceGrowsBy records s t) ∧
      (∀ r, m.2 = some r → ∃ t, exec i s = .next t ∧ CompletedWith t s.status ∧ HoldsPoint t rd r ∧
        SameRegistersBut [rd] s t ∧ SameStorage s t ∧ SameControl s t ∧ TraceGrowsBy records s t)))

/-- EC_ENC, configured, with an even RD and M and Pu on the curve: PR[RD] takes k·G and PR[RD+1] takes M + k·Pu, both
computed before either is written, and the records of both multiplications are emitted; if any part is not invertible
nothing is written but the records emitted up to there (47_ec.md R299, R300, R321, R323). An odd RD stands for no legal word
and raises IllegalCommand, the model's own reading for terms no word decodes to (notes/assumptions/9.md). -/
def Obligations.EcEncWritesBothPoints : Prop :=
  (∀ (s : State) (rd ra rb : PReg) (ks : SReg), rd.val % 2 = 1 → ∃ t, exec (.ecEnc rd ra rb ks) s = .next t ∧
    RaisedWith t s.status .illegalCommand ∧ OnlyStatusWritten s t) ∧
  (∀ (s : State) (rd ra rb : PReg) (ks : SReg), rd.val % 2 = 0 → s.status.ecCv = true → s.status.ecGv = true →
    Ec.onCurve s.curve (s.readPr ra) = true → Ec.onCurve s.curve (s.readPr rb) = true →
    (let kg := Ec.scalarMultiply s.curve s.ecG (s.readSk ks)
     let kp := Ec.scalarMultiply s.curve (s.readPr rb) (s.readSk ks)
     (∀ c1 shared c2, kg.2 = some c1 → kp.2 = some shared → Ec.add s.curve (s.readPr ra) shared = some c2 →
       ∃ t, exec (.ecEnc rd ra rb ks) s = .next t ∧ CompletedWith t s.status ∧ HoldsPoint t rd c1 ∧
         HoldsPoint t (rd + 1) c2 ∧ SameRegistersBut [rd, rd + 1] s t ∧ SameStorage s t ∧ SameControl s t ∧
         TraceGrowsBy (Ec.mulRecords 0 kg.1 ++ Ec.mulRecords 256 kp.1) s t) ∧
     (kg.2 = none → ∃ t, exec (.ecEnc rd ra rb ks) s = .next t ∧ RaisedWith t s.status .nonInvertible ∧
       SameRegisters s t ∧ SameStorage s t ∧ SameControl s t ∧ TraceGrowsBy (Ec.mulRecords 0 kg.1) s t) ∧
     (∀ c1, kg.2 = some c1 →
       kp.2 = none ∨ (∃ shared, kp.2 = some shared ∧ Ec.add s.curve (s.readPr ra) shared = none) →
       ∃ t, exec (.ecEnc rd ra rb ks) s = .next t ∧ RaisedWith t s.status .nonInvertible ∧ SameRegisters s t ∧
         SameStorage s t ∧ SameControl s t ∧ TraceGrowsBy (Ec.mulRecords 0 kg.1 ++ Ec.mulRecords 256 kp.1) s t)))

/-- EC_DEC, with a curve and C1 and C2 on it: PR[RD] takes C2 + neg(d·C1); G is not used; if any part is not invertible
nothing is written (47_ec.md R299, R300, R322, R323). -/
def Obligations.EcDecWritesThePoint : Prop :=
  ∀ (s : State) (rd ra rb : PReg) (ks : SReg), s.status.ecCv = true →
    Ec.onCurve s.curve (s.readPr ra) = true → Ec.onCurve s.curve (s.readPr rb) = true →
    (let dc := Ec.scalarMultiply s.curve (s.readPr ra) (s.readSk ks)
     (∀ shared m, dc.2 = some shared → Ec.add s.curve (s.readPr rb) (Ec.neg s.curve shared) = some m →
       ∃ t, exec (.ecDec rd ra rb ks) s = .next t ∧ CompletedWith t s.status ∧ HoldsPoint t rd m ∧
         SameRegistersBut [rd] s t ∧ SameStorage s t ∧ SameControl s t ∧ TraceGrowsBy (Ec.mulRecords 0 dc.1) s t) ∧
     (dc.2 = none ∨ (∃ shared, dc.2 = some shared ∧
         Ec.add s.curve (s.readPr rb) (Ec.neg s.curve shared) = none) →
       ∃ t, exec (.ecDec rd ra rb ks) s = .next t ∧ RaisedWith t s.status .nonInvertible ∧ SameRegisters s t ∧
         SameStorage s t ∧ SameControl s t ∧ TraceGrowsBy (Ec.mulRecords 0 dc.1) s t))

/-- Every point an arithmetic command writes has its coordinates below p, whether p is prime or not (47_ec.md R290,
R301). -/
def Obligations.ArithmeticResultsAreReduced : Prop :=
  ∀ (i : Instr) (s t : State) (rd : PReg), s.Inv → mayBeNonInvertible i = true ∨ (∃ d ra, i = .ecNeg d ra) →
    exec i s = .next t → t.errcode = 0 → rd ∈ destinationPoints i →
    t.prWritten[rd] = true ∧
    (t.pr[rd] = .infinity ∨ ∃ x y : Word256, t.pr[rd] = .affine x y ∧ x.toNat < s.ecP.toNat ∧ y.toNat < s.ecP.toNat)

end
end

