-- ==== Sys2Proof/Laws/State.lean ====
section
/-! SUPPORT. What each shared update of the state does to each field: one lemma per field per update, so that no proof
unfolds a record update. An update of the form `f_x` says what field x is after the update f. -/

namespace Sys2Proof.Machine.State

variable (s : State)


@[simp] theorem writeBytes_ctrl (a : Nat) (bs : List Byte) : (s.writeBytes a bs).ctrl = s.ctrl := rfl
@[simp] theorem writeBytes_status (a : Nat) (bs : List Byte) : (s.writeBytes a bs).status = s.status := rfl
@[simp] theorem writeBytes_cmd (a : Nat) (bs : List Byte) : (s.writeBytes a bs).cmd = s.cmd := rfl
@[simp] theorem writeBytes_pend (a : Nat) (bs : List Byte) : (s.writeBytes a bs).pend = s.pend := rfl
@[simp] theorem writeBytes_errcode (a : Nat) (bs : List Byte) : (s.writeBytes a bs).errcode = s.errcode := rfl
@[simp] theorem writeBytes_mem (a : Nat) (bs : List Byte) : (s.writeBytes a bs).mem = Memory.write s.mem a bs := rfl
@[simp] theorem writeBytes_ecA (a : Nat) (bs : List Byte) : (s.writeBytes a bs).ecA = s.ecA := rfl
@[simp] theorem writeBytes_ecB (a : Nat) (bs : List Byte) : (s.writeBytes a bs).ecB = s.ecB := rfl
@[simp] theorem writeBytes_ecP (a : Nat) (bs : List Byte) : (s.writeBytes a bs).ecP = s.ecP := rfl
@[simp] theorem writeBytes_ecN (a : Nat) (bs : List Byte) : (s.writeBytes a bs).ecN = s.ecN := rfl
@[simp] theorem writeBytes_ecG (a : Nat) (bs : List Byte) : (s.writeBytes a bs).ecG = s.ecG := rfl
@[simp] theorem writeBytes_pr (a : Nat) (bs : List Byte) : (s.writeBytes a bs).pr = s.pr := rfl
@[simp] theorem writeBytes_prWritten (a : Nat) (bs : List Byte) : (s.writeBytes a bs).prWritten = s.prWritten := rfl
@[simp] theorem writeBytes_sk (a : Nat) (bs : List Byte) : (s.writeBytes a bs).sk = s.sk := rfl
@[simp] theorem writeBytes_skWritten (a : Nat) (bs : List Byte) : (s.writeBytes a bs).skWritten = s.skWritten := rfl
@[simp] theorem writeBytes_h (a : Nat) (bs : List Byte) : (s.writeBytes a bs).h = s.h := rfl
@[simp] theorem writeBytes_buf (a : Nat) (bs : List Byte) : (s.writeBytes a bs).buf = s.buf := rfl
@[simp] theorem writeBytes_bufCnt (a : Nat) (bs : List Byte) : (s.writeBytes a bs).bufCnt = s.bufCnt := rfl
@[simp] theorem writeBytes_msgLen (a : Nat) (bs : List Byte) : (s.writeBytes a bs).msgLen = s.msgLen := rfl
@[simp] theorem writeBytes_trace (a : Nat) (bs : List Byte) : (s.writeBytes a bs).trace = s.trace := rfl
@[simp] theorem writeBytes_inputs (a : Nat) (bs : List Byte) : (s.writeBytes a bs).inputs = s.inputs := rfl
@[simp] theorem writeBytes_readData (a : Nat) (bs : List Byte) : (s.writeBytes a bs).readData = s.readData := rfl
@[simp] theorem writeBytes_draws (a : Nat) (bs : List Byte) : (s.writeBytes a bs).draws = s.draws := rfl

@[simp] theorem eraseBytes_ctrl (a n : Nat) : (s.eraseBytes a n).ctrl = s.ctrl := rfl
@[simp] theorem eraseBytes_status (a n : Nat) : (s.eraseBytes a n).status = s.status := rfl
@[simp] theorem eraseBytes_cmd (a n : Nat) : (s.eraseBytes a n).cmd = s.cmd := rfl
@[simp] theorem eraseBytes_pend (a n : Nat) : (s.eraseBytes a n).pend = s.pend := rfl
@[simp] theorem eraseBytes_errcode (a n : Nat) : (s.eraseBytes a n).errcode = s.errcode := rfl
@[simp] theorem eraseBytes_mem (a n : Nat) : (s.eraseBytes a n).mem = Memory.erase s.mem a n := rfl
@[simp] theorem eraseBytes_ecA (a n : Nat) : (s.eraseBytes a n).ecA = s.ecA := rfl
@[simp] theorem eraseBytes_ecB (a n : Nat) : (s.eraseBytes a n).ecB = s.ecB := rfl
@[simp] theorem eraseBytes_ecP (a n : Nat) : (s.eraseBytes a n).ecP = s.ecP := rfl
@[simp] theorem eraseBytes_ecN (a n : Nat) : (s.eraseBytes a n).ecN = s.ecN := rfl
@[simp] theorem eraseBytes_ecG (a n : Nat) : (s.eraseBytes a n).ecG = s.ecG := rfl
@[simp] theorem eraseBytes_pr (a n : Nat) : (s.eraseBytes a n).pr = s.pr := rfl
@[simp] theorem eraseBytes_prWritten (a n : Nat) : (s.eraseBytes a n).prWritten = s.prWritten := rfl
@[simp] theorem eraseBytes_sk (a n : Nat) : (s.eraseBytes a n).sk = s.sk := rfl
@[simp] theorem eraseBytes_skWritten (a n : Nat) : (s.eraseBytes a n).skWritten = s.skWritten := rfl
@[simp] theorem eraseBytes_h (a n : Nat) : (s.eraseBytes a n).h = s.h := rfl
@[simp] theorem eraseBytes_buf (a n : Nat) : (s.eraseBytes a n).buf = s.buf := rfl
@[simp] theorem eraseBytes_bufCnt (a n : Nat) : (s.eraseBytes a n).bufCnt = s.bufCnt := rfl
@[simp] theorem eraseBytes_msgLen (a n : Nat) : (s.eraseBytes a n).msgLen = s.msgLen := rfl
@[simp] theorem eraseBytes_trace (a n : Nat) : (s.eraseBytes a n).trace = s.trace := rfl
@[simp] theorem eraseBytes_inputs (a n : Nat) : (s.eraseBytes a n).inputs = s.inputs := rfl
@[simp] theorem eraseBytes_readData (a n : Nat) : (s.eraseBytes a n).readData = s.readData := rfl
@[simp] theorem eraseBytes_draws (a n : Nat) : (s.eraseBytes a n).draws = s.draws := rfl

@[simp] theorem writePr_ctrl (i : PReg) (p : Point) : (s.writePr i p).ctrl = s.ctrl := rfl
@[simp] theorem writePr_status (i : PReg) (p : Point) : (s.writePr i p).status = s.status := rfl
@[simp] theorem writePr_cmd (i : PReg) (p : Point) : (s.writePr i p).cmd = s.cmd := rfl
@[simp] theorem writePr_pend (i : PReg) (p : Point) : (s.writePr i p).pend = s.pend := rfl
@[simp] theorem writePr_errcode (i : PReg) (p : Point) : (s.writePr i p).errcode = s.errcode := rfl
@[simp] theorem writePr_mem (i : PReg) (p : Point) : (s.writePr i p).mem = s.mem := rfl
@[simp] theorem writePr_ecA (i : PReg) (p : Point) : (s.writePr i p).ecA = s.ecA := rfl
@[simp] theorem writePr_ecB (i : PReg) (p : Point) : (s.writePr i p).ecB = s.ecB := rfl
@[simp] theorem writePr_ecP (i : PReg) (p : Point) : (s.writePr i p).ecP = s.ecP := rfl
@[simp] theorem writePr_ecN (i : PReg) (p : Point) : (s.writePr i p).ecN = s.ecN := rfl
@[simp] theorem writePr_ecG (i : PReg) (p : Point) : (s.writePr i p).ecG = s.ecG := rfl
@[simp] theorem writePr_pr (i : PReg) (p : Point) : (s.writePr i p).pr = s.pr.set i.val p i.isLt := rfl
@[simp] theorem writePr_prWritten (i : PReg) (p : Point) : (s.writePr i p).prWritten = s.prWritten.set i.val true i.isLt := rfl
@[simp] theorem writePr_sk (i : PReg) (p : Point) : (s.writePr i p).sk = s.sk := rfl
@[simp] theorem writePr_skWritten (i : PReg) (p : Point) : (s.writePr i p).skWritten = s.skWritten := rfl
@[simp] theorem writePr_h (i : PReg) (p : Point) : (s.writePr i p).h = s.h := rfl
@[simp] theorem writePr_buf (i : PReg) (p : Point) : (s.writePr i p).buf = s.buf := rfl
@[simp] theorem writePr_bufCnt (i : PReg) (p : Point) : (s.writePr i p).bufCnt = s.bufCnt := rfl
@[simp] theorem writePr_msgLen (i : PReg) (p : Point) : (s.writePr i p).msgLen = s.msgLen := rfl
@[simp] theorem writePr_trace (i : PReg) (p : Point) : (s.writePr i p).trace = s.trace := rfl
@[simp] theorem writePr_inputs (i : PReg) (p : Point) : (s.writePr i p).inputs = s.inputs := rfl
@[simp] theorem writePr_readData (i : PReg) (p : Point) : (s.writePr i p).readData = s.readData := rfl
@[simp] theorem writePr_draws (i : PReg) (p : Point) : (s.writePr i p).draws = s.draws := rfl

@[simp] theorem forgetPr_ctrl (i : PReg) : (s.forgetPr i).ctrl = s.ctrl := rfl
@[simp] theorem forgetPr_status (i : PReg) : (s.forgetPr i).status = s.status := rfl
@[simp] theorem forgetPr_cmd (i : PReg) : (s.forgetPr i).cmd = s.cmd := rfl
@[simp] theorem forgetPr_pend (i : PReg) : (s.forgetPr i).pend = s.pend := rfl
@[simp] theorem forgetPr_errcode (i : PReg) : (s.forgetPr i).errcode = s.errcode := rfl
@[simp] theorem forgetPr_mem (i : PReg) : (s.forgetPr i).mem = s.mem := rfl
@[simp] theorem forgetPr_ecA (i : PReg) : (s.forgetPr i).ecA = s.ecA := rfl
@[simp] theorem forgetPr_ecB (i : PReg) : (s.forgetPr i).ecB = s.ecB := rfl
@[simp] theorem forgetPr_ecP (i : PReg) : (s.forgetPr i).ecP = s.ecP := rfl
@[simp] theorem forgetPr_ecN (i : PReg) : (s.forgetPr i).ecN = s.ecN := rfl
@[simp] theorem forgetPr_ecG (i : PReg) : (s.forgetPr i).ecG = s.ecG := rfl
@[simp] theorem forgetPr_pr (i : PReg) : (s.forgetPr i).pr = s.pr.set i.val .infinity i.isLt := rfl
@[simp] theorem forgetPr_prWritten (i : PReg) : (s.forgetPr i).prWritten = s.prWritten.set i.val false i.isLt := rfl
@[simp] theorem forgetPr_sk (i : PReg) : (s.forgetPr i).sk = s.sk := rfl
@[simp] theorem forgetPr_skWritten (i : PReg) : (s.forgetPr i).skWritten = s.skWritten := rfl
@[simp] theorem forgetPr_h (i : PReg) : (s.forgetPr i).h = s.h := rfl
@[simp] theorem forgetPr_buf (i : PReg) : (s.forgetPr i).buf = s.buf := rfl
@[simp] theorem forgetPr_bufCnt (i : PReg) : (s.forgetPr i).bufCnt = s.bufCnt := rfl
@[simp] theorem forgetPr_msgLen (i : PReg) : (s.forgetPr i).msgLen = s.msgLen := rfl
@[simp] theorem forgetPr_trace (i : PReg) : (s.forgetPr i).trace = s.trace := rfl
@[simp] theorem forgetPr_inputs (i : PReg) : (s.forgetPr i).inputs = s.inputs := rfl
@[simp] theorem forgetPr_readData (i : PReg) : (s.forgetPr i).readData = s.readData := rfl
@[simp] theorem forgetPr_draws (i : PReg) : (s.forgetPr i).draws = s.draws := rfl

@[simp] theorem writeSk_ctrl (i : SReg) (k : Word256) : (s.writeSk i k).ctrl = s.ctrl := rfl
@[simp] theorem writeSk_status (i : SReg) (k : Word256) : (s.writeSk i k).status = s.status := rfl
@[simp] theorem writeSk_cmd (i : SReg) (k : Word256) : (s.writeSk i k).cmd = s.cmd := rfl
@[simp] theorem writeSk_pend (i : SReg) (k : Word256) : (s.writeSk i k).pend = s.pend := rfl
@[simp] theorem writeSk_errcode (i : SReg) (k : Word256) : (s.writeSk i k).errcode = s.errcode := rfl
@[simp] theorem writeSk_mem (i : SReg) (k : Word256) : (s.writeSk i k).mem = s.mem := rfl
@[simp] theorem writeSk_ecA (i : SReg) (k : Word256) : (s.writeSk i k).ecA = s.ecA := rfl
@[simp] theorem writeSk_ecB (i : SReg) (k : Word256) : (s.writeSk i k).ecB = s.ecB := rfl
@[simp] theorem writeSk_ecP (i : SReg) (k : Word256) : (s.writeSk i k).ecP = s.ecP := rfl
@[simp] theorem writeSk_ecN (i : SReg) (k : Word256) : (s.writeSk i k).ecN = s.ecN := rfl
@[simp] theorem writeSk_ecG (i : SReg) (k : Word256) : (s.writeSk i k).ecG = s.ecG := rfl
@[simp] theorem writeSk_pr (i : SReg) (k : Word256) : (s.writeSk i k).pr = s.pr := rfl
@[simp] theorem writeSk_prWritten (i : SReg) (k : Word256) : (s.writeSk i k).prWritten = s.prWritten := rfl
@[simp] theorem writeSk_sk (i : SReg) (k : Word256) : (s.writeSk i k).sk = s.sk.set i.val k i.isLt := rfl
@[simp] theorem writeSk_skWritten (i : SReg) (k : Word256) : (s.writeSk i k).skWritten = s.skWritten.set i.val true i.isLt := rfl
@[simp] theorem writeSk_h (i : SReg) (k : Word256) : (s.writeSk i k).h = s.h := rfl
@[simp] theorem writeSk_buf (i : SReg) (k : Word256) : (s.writeSk i k).buf = s.buf := rfl
@[simp] theorem writeSk_bufCnt (i : SReg) (k : Word256) : (s.writeSk i k).bufCnt = s.bufCnt := rfl
@[simp] theorem writeSk_msgLen (i : SReg) (k : Word256) : (s.writeSk i k).msgLen = s.msgLen := rfl
@[simp] theorem writeSk_trace (i : SReg) (k : Word256) : (s.writeSk i k).trace = s.trace := rfl
@[simp] theorem writeSk_inputs (i : SReg) (k : Word256) : (s.writeSk i k).inputs = s.inputs := rfl
@[simp] theorem writeSk_readData (i : SReg) (k : Word256) : (s.writeSk i k).readData = s.readData := rfl
@[simp] theorem writeSk_draws (i : SReg) (k : Word256) : (s.writeSk i k).draws = s.draws := rfl

@[simp] theorem forgetSk_ctrl (i : SReg) : (s.forgetSk i).ctrl = s.ctrl := rfl
@[simp] theorem forgetSk_status (i : SReg) : (s.forgetSk i).status = s.status := rfl
@[simp] theorem forgetSk_cmd (i : SReg) : (s.forgetSk i).cmd = s.cmd := rfl
@[simp] theorem forgetSk_pend (i : SReg) : (s.forgetSk i).pend = s.pend := rfl
@[simp] theorem forgetSk_errcode (i : SReg) : (s.forgetSk i).errcode = s.errcode := rfl
@[simp] theorem forgetSk_mem (i : SReg) : (s.forgetSk i).mem = s.mem := rfl
@[simp] theorem forgetSk_ecA (i : SReg) : (s.forgetSk i).ecA = s.ecA := rfl
@[simp] theorem forgetSk_ecB (i : SReg) : (s.forgetSk i).ecB = s.ecB := rfl
@[simp] theorem forgetSk_ecP (i : SReg) : (s.forgetSk i).ecP = s.ecP := rfl
@[simp] theorem forgetSk_ecN (i : SReg) : (s.forgetSk i).ecN = s.ecN := rfl
@[simp] theorem forgetSk_ecG (i : SReg) : (s.forgetSk i).ecG = s.ecG := rfl
@[simp] theorem forgetSk_pr (i : SReg) : (s.forgetSk i).pr = s.pr := rfl
@[simp] theorem forgetSk_prWritten (i : SReg) : (s.forgetSk i).prWritten = s.prWritten := rfl
@[simp] theorem forgetSk_sk (i : SReg) : (s.forgetSk i).sk = s.sk.set i.val 0 i.isLt := rfl
@[simp] theorem forgetSk_skWritten (i : SReg) : (s.forgetSk i).skWritten = s.skWritten.set i.val false i.isLt := rfl
@[simp] theorem forgetSk_h (i : SReg) : (s.forgetSk i).h = s.h := rfl
@[simp] theorem forgetSk_buf (i : SReg) : (s.forgetSk i).buf = s.buf := rfl
@[simp] theorem forgetSk_bufCnt (i : SReg) : (s.forgetSk i).bufCnt = s.bufCnt := rfl
@[simp] theorem forgetSk_msgLen (i : SReg) : (s.forgetSk i).msgLen = s.msgLen := rfl
@[simp] theorem forgetSk_trace (i : SReg) : (s.forgetSk i).trace = s.trace := rfl
@[simp] theorem forgetSk_inputs (i : SReg) : (s.forgetSk i).inputs = s.inputs := rfl
@[simp] theorem forgetSk_readData (i : SReg) : (s.forgetSk i).readData = s.readData := rfl
@[simp] theorem forgetSk_draws (i : SReg) : (s.forgetSk i).draws = s.draws := rfl

@[simp] theorem complete_ctrl (c : Byte) : (s.complete c).ctrl = s.ctrl := rfl
@[simp] theorem complete_status (c : Byte) : (s.complete c).status = { s.status with busy := false, done := true } := rfl
@[simp] theorem complete_cmd (c : Byte) : (s.complete c).cmd = s.cmd := rfl
@[simp] theorem complete_pend (c : Byte) : (s.complete c).pend = s.pend := rfl
@[simp] theorem complete_errcode (c : Byte) : (s.complete c).errcode = c := rfl
@[simp] theorem complete_mem (c : Byte) : (s.complete c).mem = s.mem := rfl
@[simp] theorem complete_ecA (c : Byte) : (s.complete c).ecA = s.ecA := rfl
@[simp] theorem complete_ecB (c : Byte) : (s.complete c).ecB = s.ecB := rfl
@[simp] theorem complete_ecP (c : Byte) : (s.complete c).ecP = s.ecP := rfl
@[simp] theorem complete_ecN (c : Byte) : (s.complete c).ecN = s.ecN := rfl
@[simp] theorem complete_ecG (c : Byte) : (s.complete c).ecG = s.ecG := rfl
@[simp] theorem complete_pr (c : Byte) : (s.complete c).pr = s.pr := rfl
@[simp] theorem complete_prWritten (c : Byte) : (s.complete c).prWritten = s.prWritten := rfl
@[simp] theorem complete_sk (c : Byte) : (s.complete c).sk = s.sk := rfl
@[simp] theorem complete_skWritten (c : Byte) : (s.complete c).skWritten = s.skWritten := rfl
@[simp] theorem complete_h (c : Byte) : (s.complete c).h = s.h := rfl
@[simp] theorem complete_buf (c : Byte) : (s.complete c).buf = s.buf := rfl
@[simp] theorem complete_bufCnt (c : Byte) : (s.complete c).bufCnt = s.bufCnt := rfl
@[simp] theorem complete_msgLen (c : Byte) : (s.complete c).msgLen = s.msgLen := rfl
@[simp] theorem complete_trace (c : Byte) : (s.complete c).trace = s.trace := rfl
@[simp] theorem complete_inputs (c : Byte) : (s.complete c).inputs = s.inputs := rfl
@[simp] theorem complete_readData (c : Byte) : (s.complete c).readData = s.readData := rfl
@[simp] theorem complete_draws (c : Byte) : (s.complete c).draws = s.draws := rfl

@[simp] theorem issue_ctrl (w : Word) : (s.issue w).ctrl = s.ctrl := rfl
@[simp] theorem issue_status (w : Word) : (s.issue w).status = { s.status with busy := true, done := false } := rfl
@[simp] theorem issue_cmd (w : Word) : (s.issue w).cmd = w := rfl
@[simp] theorem issue_pend (w : Word) : (s.issue w).pend = w := rfl
@[simp] theorem issue_errcode (w : Word) : (s.issue w).errcode = s.errcode := rfl
@[simp] theorem issue_mem (w : Word) : (s.issue w).mem = s.mem := rfl
@[simp] theorem issue_ecA (w : Word) : (s.issue w).ecA = s.ecA := rfl
@[simp] theorem issue_ecB (w : Word) : (s.issue w).ecB = s.ecB := rfl
@[simp] theorem issue_ecP (w : Word) : (s.issue w).ecP = s.ecP := rfl
@[simp] theorem issue_ecN (w : Word) : (s.issue w).ecN = s.ecN := rfl
@[simp] theorem issue_ecG (w : Word) : (s.issue w).ecG = s.ecG := rfl
@[simp] theorem issue_pr (w : Word) : (s.issue w).pr = s.pr := rfl
@[simp] theorem issue_prWritten (w : Word) : (s.issue w).prWritten = s.prWritten := rfl
@[simp] theorem issue_sk (w : Word) : (s.issue w).sk = s.sk := rfl
@[simp] theorem issue_skWritten (w : Word) : (s.issue w).skWritten = s.skWritten := rfl
@[simp] theorem issue_h (w : Word) : (s.issue w).h = s.h := rfl
@[simp] theorem issue_buf (w : Word) : (s.issue w).buf = s.buf := rfl
@[simp] theorem issue_bufCnt (w : Word) : (s.issue w).bufCnt = s.bufCnt := rfl
@[simp] theorem issue_msgLen (w : Word) : (s.issue w).msgLen = s.msgLen := rfl
@[simp] theorem issue_trace (w : Word) : (s.issue w).trace = s.trace := rfl
@[simp] theorem issue_inputs (w : Word) : (s.issue w).inputs = s.inputs := rfl
@[simp] theorem issue_readData (w : Word) : (s.issue w).readData = s.readData := rfl
@[simp] theorem issue_draws (w : Word) : (s.issue w).draws = s.draws := rfl

@[simp] theorem setOvr_ctrl : (s.setOvr).ctrl = s.ctrl := rfl
@[simp] theorem setOvr_status : (s.setOvr).status = { s.status with ovr := true } := rfl
@[simp] theorem setOvr_cmd : (s.setOvr).cmd = s.cmd := rfl
@[simp] theorem setOvr_pend : (s.setOvr).pend = s.pend := rfl
@[simp] theorem setOvr_errcode : (s.setOvr).errcode = s.errcode := rfl
@[simp] theorem setOvr_mem : (s.setOvr).mem = s.mem := rfl
@[simp] theorem setOvr_ecA : (s.setOvr).ecA = s.ecA := rfl
@[simp] theorem setOvr_ecB : (s.setOvr).ecB = s.ecB := rfl
@[simp] theorem setOvr_ecP : (s.setOvr).ecP = s.ecP := rfl
@[simp] theorem setOvr_ecN : (s.setOvr).ecN = s.ecN := rfl
@[simp] theorem setOvr_ecG : (s.setOvr).ecG = s.ecG := rfl
@[simp] theorem setOvr_pr : (s.setOvr).pr = s.pr := rfl
@[simp] theorem setOvr_prWritten : (s.setOvr).prWritten = s.prWritten := rfl
@[simp] theorem setOvr_sk : (s.setOvr).sk = s.sk := rfl
@[simp] theorem setOvr_skWritten : (s.setOvr).skWritten = s.skWritten := rfl
@[simp] theorem setOvr_h : (s.setOvr).h = s.h := rfl
@[simp] theorem setOvr_buf : (s.setOvr).buf = s.buf := rfl
@[simp] theorem setOvr_bufCnt : (s.setOvr).bufCnt = s.bufCnt := rfl
@[simp] theorem setOvr_msgLen : (s.setOvr).msgLen = s.msgLen := rfl
@[simp] theorem setOvr_trace : (s.setOvr).trace = s.trace := rfl
@[simp] theorem setOvr_inputs : (s.setOvr).inputs = s.inputs := rfl
@[simp] theorem setOvr_readData : (s.setOvr).readData = s.readData := rfl
@[simp] theorem setOvr_draws : (s.setOvr).draws = s.draws := rfl

@[simp] theorem tick_ctrl : (s.tick).ctrl = s.ctrl := rfl
@[simp] theorem tick_status : (s.tick).status = s.status := rfl
@[simp] theorem tick_cmd : (s.tick).cmd = s.cmd := rfl
@[simp] theorem tick_pend : (s.tick).pend = s.pend := rfl
@[simp] theorem tick_errcode : (s.tick).errcode = s.errcode := rfl
@[simp] theorem tick_mem : (s.tick).mem = s.mem := rfl
@[simp] theorem tick_ecA : (s.tick).ecA = s.ecA := rfl
@[simp] theorem tick_ecB : (s.tick).ecB = s.ecB := rfl
@[simp] theorem tick_ecP : (s.tick).ecP = s.ecP := rfl
@[simp] theorem tick_ecN : (s.tick).ecN = s.ecN := rfl
@[simp] theorem tick_ecG : (s.tick).ecG = s.ecG := rfl
@[simp] theorem tick_pr : (s.tick).pr = s.pr := rfl
@[simp] theorem tick_prWritten : (s.tick).prWritten = s.prWritten := rfl
@[simp] theorem tick_sk : (s.tick).sk = s.sk := rfl
@[simp] theorem tick_skWritten : (s.tick).skWritten = s.skWritten := rfl
@[simp] theorem tick_h : (s.tick).h = s.h := rfl
@[simp] theorem tick_buf : (s.tick).buf = s.buf := rfl
@[simp] theorem tick_bufCnt : (s.tick).bufCnt = s.bufCnt := rfl
@[simp] theorem tick_msgLen : (s.tick).msgLen = s.msgLen := rfl
@[simp] theorem tick_trace : (s.tick).trace = s.trace := rfl
@[simp] theorem tick_inputs : (s.tick).inputs = s.inputs := rfl
@[simp] theorem tick_readData : (s.tick).readData = s.readData := rfl
@[simp] theorem tick_draws : (s.tick).draws = s.draws + 1 := rfl

@[simp] theorem setAesKv_ctrl (b : Bool) : (s.setAesKv b).ctrl = s.ctrl := rfl
@[simp] theorem setAesKv_status (b : Bool) : (s.setAesKv b).status = { s.status with aesKv := b } := rfl
@[simp] theorem setAesKv_cmd (b : Bool) : (s.setAesKv b).cmd = s.cmd := rfl
@[simp] theorem setAesKv_pend (b : Bool) : (s.setAesKv b).pend = s.pend := rfl
@[simp] theorem setAesKv_errcode (b : Bool) : (s.setAesKv b).errcode = s.errcode := rfl
@[simp] theorem setAesKv_mem (b : Bool) : (s.setAesKv b).mem = s.mem := rfl
@[simp] theorem setAesKv_ecA (b : Bool) : (s.setAesKv b).ecA = s.ecA := rfl
@[simp] theorem setAesKv_ecB (b : Bool) : (s.setAesKv b).ecB = s.ecB := rfl
@[simp] theorem setAesKv_ecP (b : Bool) : (s.setAesKv b).ecP = s.ecP := rfl
@[simp] theorem setAesKv_ecN (b : Bool) : (s.setAesKv b).ecN = s.ecN := rfl
@[simp] theorem setAesKv_ecG (b : Bool) : (s.setAesKv b).ecG = s.ecG := rfl
@[simp] theorem setAesKv_pr (b : Bool) : (s.setAesKv b).pr = s.pr := rfl
@[simp] theorem setAesKv_prWritten (b : Bool) : (s.setAesKv b).prWritten = s.prWritten := rfl
@[simp] theorem setAesKv_sk (b : Bool) : (s.setAesKv b).sk = s.sk := rfl
@[simp] theorem setAesKv_skWritten (b : Bool) : (s.setAesKv b).skWritten = s.skWritten := rfl
@[simp] theorem setAesKv_h (b : Bool) : (s.setAesKv b).h = s.h := rfl
@[simp] theorem setAesKv_buf (b : Bool) : (s.setAesKv b).buf = s.buf := rfl
@[simp] theorem setAesKv_bufCnt (b : Bool) : (s.setAesKv b).bufCnt = s.bufCnt := rfl
@[simp] theorem setAesKv_msgLen (b : Bool) : (s.setAesKv b).msgLen = s.msgLen := rfl
@[simp] theorem setAesKv_trace (b : Bool) : (s.setAesKv b).trace = s.trace := rfl
@[simp] theorem setAesKv_inputs (b : Bool) : (s.setAesKv b).inputs = s.inputs := rfl
@[simp] theorem setAesKv_readData (b : Bool) : (s.setAesKv b).readData = s.readData := rfl
@[simp] theorem setAesKv_draws (b : Bool) : (s.setAesKv b).draws = s.draws := rfl

@[simp] theorem setFeiKv_ctrl (b : Bool) : (s.setFeiKv b).ctrl = s.ctrl := rfl
@[simp] theorem setFeiKv_status (b : Bool) : (s.setFeiKv b).status = { s.status with feiKv := b } := rfl
@[simp] theorem setFeiKv_cmd (b : Bool) : (s.setFeiKv b).cmd = s.cmd := rfl
@[simp] theorem setFeiKv_pend (b : Bool) : (s.setFeiKv b).pend = s.pend := rfl
@[simp] theorem setFeiKv_errcode (b : Bool) : (s.setFeiKv b).errcode = s.errcode := rfl
@[simp] theorem setFeiKv_mem (b : Bool) : (s.setFeiKv b).mem = s.mem := rfl
@[simp] theorem setFeiKv_ecA (b : Bool) : (s.setFeiKv b).ecA = s.ecA := rfl
@[simp] theorem setFeiKv_ecB (b : Bool) : (s.setFeiKv b).ecB = s.ecB := rfl
@[simp] theorem setFeiKv_ecP (b : Bool) : (s.setFeiKv b).ecP = s.ecP := rfl
@[simp] theorem setFeiKv_ecN (b : Bool) : (s.setFeiKv b).ecN = s.ecN := rfl
@[simp] theorem setFeiKv_ecG (b : Bool) : (s.setFeiKv b).ecG = s.ecG := rfl
@[simp] theorem setFeiKv_pr (b : Bool) : (s.setFeiKv b).pr = s.pr := rfl
@[simp] theorem setFeiKv_prWritten (b : Bool) : (s.setFeiKv b).prWritten = s.prWritten := rfl
@[simp] theorem setFeiKv_sk (b : Bool) : (s.setFeiKv b).sk = s.sk := rfl
@[simp] theorem setFeiKv_skWritten (b : Bool) : (s.setFeiKv b).skWritten = s.skWritten := rfl
@[simp] theorem setFeiKv_h (b : Bool) : (s.setFeiKv b).h = s.h := rfl
@[simp] theorem setFeiKv_buf (b : Bool) : (s.setFeiKv b).buf = s.buf := rfl
@[simp] theorem setFeiKv_bufCnt (b : Bool) : (s.setFeiKv b).bufCnt = s.bufCnt := rfl
@[simp] theorem setFeiKv_msgLen (b : Bool) : (s.setFeiKv b).msgLen = s.msgLen := rfl
@[simp] theorem setFeiKv_trace (b : Bool) : (s.setFeiKv b).trace = s.trace := rfl
@[simp] theorem setFeiKv_inputs (b : Bool) : (s.setFeiKv b).inputs = s.inputs := rfl
@[simp] theorem setFeiKv_readData (b : Bool) : (s.setFeiKv b).readData = s.readData := rfl
@[simp] theorem setFeiKv_draws (b : Bool) : (s.setFeiKv b).draws = s.draws := rfl

@[simp] theorem setEcValid_ctrl (cv gv : Bool) : (s.setEcValid cv gv).ctrl = s.ctrl := rfl
@[simp] theorem setEcValid_status (cv gv : Bool) : (s.setEcValid cv gv).status = { s.status with ecCv := cv, ecGv := gv } := rfl
@[simp] theorem setEcValid_cmd (cv gv : Bool) : (s.setEcValid cv gv).cmd = s.cmd := rfl
@[simp] theorem setEcValid_pend (cv gv : Bool) : (s.setEcValid cv gv).pend = s.pend := rfl
@[simp] theorem setEcValid_errcode (cv gv : Bool) : (s.setEcValid cv gv).errcode = s.errcode := rfl
@[simp] theorem setEcValid_mem (cv gv : Bool) : (s.setEcValid cv gv).mem = s.mem := rfl
@[simp] theorem setEcValid_ecA (cv gv : Bool) : (s.setEcValid cv gv).ecA = s.ecA := rfl
@[simp] theorem setEcValid_ecB (cv gv : Bool) : (s.setEcValid cv gv).ecB = s.ecB := rfl
@[simp] theorem setEcValid_ecP (cv gv : Bool) : (s.setEcValid cv gv).ecP = s.ecP := rfl
@[simp] theorem setEcValid_ecN (cv gv : Bool) : (s.setEcValid cv gv).ecN = s.ecN := rfl
@[simp] theorem setEcValid_ecG (cv gv : Bool) : (s.setEcValid cv gv).ecG = s.ecG := rfl
@[simp] theorem setEcValid_pr (cv gv : Bool) : (s.setEcValid cv gv).pr = s.pr := rfl
@[simp] theorem setEcValid_prWritten (cv gv : Bool) : (s.setEcValid cv gv).prWritten = s.prWritten := rfl
@[simp] theorem setEcValid_sk (cv gv : Bool) : (s.setEcValid cv gv).sk = s.sk := rfl
@[simp] theorem setEcValid_skWritten (cv gv : Bool) : (s.setEcValid cv gv).skWritten = s.skWritten := rfl
@[simp] theorem setEcValid_h (cv gv : Bool) : (s.setEcValid cv gv).h = s.h := rfl
@[simp] theorem setEcValid_buf (cv gv : Bool) : (s.setEcValid cv gv).buf = s.buf := rfl
@[simp] theorem setEcValid_bufCnt (cv gv : Bool) : (s.setEcValid cv gv).bufCnt = s.bufCnt := rfl
@[simp] theorem setEcValid_msgLen (cv gv : Bool) : (s.setEcValid cv gv).msgLen = s.msgLen := rfl
@[simp] theorem setEcValid_trace (cv gv : Bool) : (s.setEcValid cv gv).trace = s.trace := rfl
@[simp] theorem setEcValid_inputs (cv gv : Bool) : (s.setEcValid cv gv).inputs = s.inputs := rfl
@[simp] theorem setEcValid_readData (cv gv : Bool) : (s.setEcValid cv gv).readData = s.readData := rfl
@[simp] theorem setEcValid_draws (cv gv : Bool) : (s.setEcValid cv gv).draws = s.draws := rfl

@[simp] theorem setEcGv_ctrl (b : Bool) : (s.setEcGv b).ctrl = s.ctrl := rfl
@[simp] theorem setEcGv_status (b : Bool) : (s.setEcGv b).status = { s.status with ecGv := b } := rfl
@[simp] theorem setEcGv_cmd (b : Bool) : (s.setEcGv b).cmd = s.cmd := rfl
@[simp] theorem setEcGv_pend (b : Bool) : (s.setEcGv b).pend = s.pend := rfl
@[simp] theorem setEcGv_errcode (b : Bool) : (s.setEcGv b).errcode = s.errcode := rfl
@[simp] theorem setEcGv_mem (b : Bool) : (s.setEcGv b).mem = s.mem := rfl
@[simp] theorem setEcGv_ecA (b : Bool) : (s.setEcGv b).ecA = s.ecA := rfl
@[simp] theorem setEcGv_ecB (b : Bool) : (s.setEcGv b).ecB = s.ecB := rfl
@[simp] theorem setEcGv_ecP (b : Bool) : (s.setEcGv b).ecP = s.ecP := rfl
@[simp] theorem setEcGv_ecN (b : Bool) : (s.setEcGv b).ecN = s.ecN := rfl
@[simp] theorem setEcGv_ecG (b : Bool) : (s.setEcGv b).ecG = s.ecG := rfl
@[simp] theorem setEcGv_pr (b : Bool) : (s.setEcGv b).pr = s.pr := rfl
@[simp] theorem setEcGv_prWritten (b : Bool) : (s.setEcGv b).prWritten = s.prWritten := rfl
@[simp] theorem setEcGv_sk (b : Bool) : (s.setEcGv b).sk = s.sk := rfl
@[simp] theorem setEcGv_skWritten (b : Bool) : (s.setEcGv b).skWritten = s.skWritten := rfl
@[simp] theorem setEcGv_h (b : Bool) : (s.setEcGv b).h = s.h := rfl
@[simp] theorem setEcGv_buf (b : Bool) : (s.setEcGv b).buf = s.buf := rfl
@[simp] theorem setEcGv_bufCnt (b : Bool) : (s.setEcGv b).bufCnt = s.bufCnt := rfl
@[simp] theorem setEcGv_msgLen (b : Bool) : (s.setEcGv b).msgLen = s.msgLen := rfl
@[simp] theorem setEcGv_trace (b : Bool) : (s.setEcGv b).trace = s.trace := rfl
@[simp] theorem setEcGv_inputs (b : Bool) : (s.setEcGv b).inputs = s.inputs := rfl
@[simp] theorem setEcGv_readData (b : Bool) : (s.setEcGv b).readData = s.readData := rfl
@[simp] theorem setEcGv_draws (b : Bool) : (s.setEcGv b).draws = s.draws := rfl

@[simp] theorem setHashAct_ctrl (b : Bool) : (s.setHashAct b).ctrl = s.ctrl := rfl
@[simp] theorem setHashAct_status (b : Bool) : (s.setHashAct b).status = { s.status with hashAct := b } := rfl
@[simp] theorem setHashAct_cmd (b : Bool) : (s.setHashAct b).cmd = s.cmd := rfl
@[simp] theorem setHashAct_pend (b : Bool) : (s.setHashAct b).pend = s.pend := rfl
@[simp] theorem setHashAct_errcode (b : Bool) : (s.setHashAct b).errcode = s.errcode := rfl
@[simp] theorem setHashAct_mem (b : Bool) : (s.setHashAct b).mem = s.mem := rfl
@[simp] theorem setHashAct_ecA (b : Bool) : (s.setHashAct b).ecA = s.ecA := rfl
@[simp] theorem setHashAct_ecB (b : Bool) : (s.setHashAct b).ecB = s.ecB := rfl
@[simp] theorem setHashAct_ecP (b : Bool) : (s.setHashAct b).ecP = s.ecP := rfl
@[simp] theorem setHashAct_ecN (b : Bool) : (s.setHashAct b).ecN = s.ecN := rfl
@[simp] theorem setHashAct_ecG (b : Bool) : (s.setHashAct b).ecG = s.ecG := rfl
@[simp] theorem setHashAct_pr (b : Bool) : (s.setHashAct b).pr = s.pr := rfl
@[simp] theorem setHashAct_prWritten (b : Bool) : (s.setHashAct b).prWritten = s.prWritten := rfl
@[simp] theorem setHashAct_sk (b : Bool) : (s.setHashAct b).sk = s.sk := rfl
@[simp] theorem setHashAct_skWritten (b : Bool) : (s.setHashAct b).skWritten = s.skWritten := rfl
@[simp] theorem setHashAct_h (b : Bool) : (s.setHashAct b).h = s.h := rfl
@[simp] theorem setHashAct_buf (b : Bool) : (s.setHashAct b).buf = s.buf := rfl
@[simp] theorem setHashAct_bufCnt (b : Bool) : (s.setHashAct b).bufCnt = s.bufCnt := rfl
@[simp] theorem setHashAct_msgLen (b : Bool) : (s.setHashAct b).msgLen = s.msgLen := rfl
@[simp] theorem setHashAct_trace (b : Bool) : (s.setHashAct b).trace = s.trace := rfl
@[simp] theorem setHashAct_inputs (b : Bool) : (s.setHashAct b).inputs = s.inputs := rfl
@[simp] theorem setHashAct_readData (b : Bool) : (s.setHashAct b).readData = s.readData := rfl
@[simp] theorem setHashAct_draws (b : Bool) : (s.setHashAct b).draws = s.draws := rfl

@[simp] theorem startHash_ctrl (alg : HashAlg) : (s.startHash alg).ctrl = s.ctrl := rfl
@[simp] theorem startHash_status (alg : HashAlg) : (s.startHash alg).status = { s.status with hashAct := true, hashAlg := alg } := rfl
@[simp] theorem startHash_cmd (alg : HashAlg) : (s.startHash alg).cmd = s.cmd := rfl
@[simp] theorem startHash_pend (alg : HashAlg) : (s.startHash alg).pend = s.pend := rfl
@[simp] theorem startHash_errcode (alg : HashAlg) : (s.startHash alg).errcode = s.errcode := rfl
@[simp] theorem startHash_mem (alg : HashAlg) : (s.startHash alg).mem = s.mem := rfl
@[simp] theorem startHash_ecA (alg : HashAlg) : (s.startHash alg).ecA = s.ecA := rfl
@[simp] theorem startHash_ecB (alg : HashAlg) : (s.startHash alg).ecB = s.ecB := rfl
@[simp] theorem startHash_ecP (alg : HashAlg) : (s.startHash alg).ecP = s.ecP := rfl
@[simp] theorem startHash_ecN (alg : HashAlg) : (s.startHash alg).ecN = s.ecN := rfl
@[simp] theorem startHash_ecG (alg : HashAlg) : (s.startHash alg).ecG = s.ecG := rfl
@[simp] theorem startHash_pr (alg : HashAlg) : (s.startHash alg).pr = s.pr := rfl
@[simp] theorem startHash_prWritten (alg : HashAlg) : (s.startHash alg).prWritten = s.prWritten := rfl
@[simp] theorem startHash_sk (alg : HashAlg) : (s.startHash alg).sk = s.sk := rfl
@[simp] theorem startHash_skWritten (alg : HashAlg) : (s.startHash alg).skWritten = s.skWritten := rfl
@[simp] theorem startHash_h (alg : HashAlg) : (s.startHash alg).h = s.h := rfl
@[simp] theorem startHash_buf (alg : HashAlg) : (s.startHash alg).buf = s.buf := rfl
@[simp] theorem startHash_bufCnt (alg : HashAlg) : (s.startHash alg).bufCnt = s.bufCnt := rfl
@[simp] theorem startHash_msgLen (alg : HashAlg) : (s.startHash alg).msgLen = s.msgLen := rfl
@[simp] theorem startHash_trace (alg : HashAlg) : (s.startHash alg).trace = s.trace := rfl
@[simp] theorem startHash_inputs (alg : HashAlg) : (s.startHash alg).inputs = s.inputs := rfl
@[simp] theorem startHash_readData (alg : HashAlg) : (s.startHash alg).readData = s.readData := rfl
@[simp] theorem startHash_draws (alg : HashAlg) : (s.startHash alg).draws = s.draws := rfl

@[simp] theorem storeDigest_ctrl (d : DigestRun) : (s.storeDigest d).ctrl = s.ctrl := rfl
@[simp] theorem storeDigest_status (d : DigestRun) : (s.storeDigest d).status = s.status := rfl
@[simp] theorem storeDigest_cmd (d : DigestRun) : (s.storeDigest d).cmd = s.cmd := rfl
@[simp] theorem storeDigest_pend (d : DigestRun) : (s.storeDigest d).pend = s.pend := rfl
@[simp] theorem storeDigest_errcode (d : DigestRun) : (s.storeDigest d).errcode = s.errcode := rfl
@[simp] theorem storeDigest_mem (d : DigestRun) : (s.storeDigest d).mem = s.mem := rfl
@[simp] theorem storeDigest_ecA (d : DigestRun) : (s.storeDigest d).ecA = s.ecA := rfl
@[simp] theorem storeDigest_ecB (d : DigestRun) : (s.storeDigest d).ecB = s.ecB := rfl
@[simp] theorem storeDigest_ecP (d : DigestRun) : (s.storeDigest d).ecP = s.ecP := rfl
@[simp] theorem storeDigest_ecN (d : DigestRun) : (s.storeDigest d).ecN = s.ecN := rfl
@[simp] theorem storeDigest_ecG (d : DigestRun) : (s.storeDigest d).ecG = s.ecG := rfl
@[simp] theorem storeDigest_pr (d : DigestRun) : (s.storeDigest d).pr = s.pr := rfl
@[simp] theorem storeDigest_prWritten (d : DigestRun) : (s.storeDigest d).prWritten = s.prWritten := rfl
@[simp] theorem storeDigest_sk (d : DigestRun) : (s.storeDigest d).sk = s.sk := rfl
@[simp] theorem storeDigest_skWritten (d : DigestRun) : (s.storeDigest d).skWritten = s.skWritten := rfl
@[simp] theorem storeDigest_h (d : DigestRun) : (s.storeDigest d).h = d.h := rfl
@[simp] theorem storeDigest_buf (d : DigestRun) : (s.storeDigest d).buf = d.buf := rfl
@[simp] theorem storeDigest_bufCnt (d : DigestRun) : (s.storeDigest d).bufCnt = d.cnt := rfl
@[simp] theorem storeDigest_msgLen (d : DigestRun) : (s.storeDigest d).msgLen = s.msgLen := rfl
@[simp] theorem storeDigest_trace (d : DigestRun) : (s.storeDigest d).trace = s.trace := rfl
@[simp] theorem storeDigest_inputs (d : DigestRun) : (s.storeDigest d).inputs = s.inputs := rfl
@[simp] theorem storeDigest_readData (d : DigestRun) : (s.storeDigest d).readData = s.readData := rfl
@[simp] theorem storeDigest_draws (d : DigestRun) : (s.storeDigest d).draws = s.draws := rfl

@[simp] theorem initDigest_ctrl (hs : Vector Word64 8) : (s.initDigest hs).ctrl = s.ctrl := rfl
@[simp] theorem initDigest_status (hs : Vector Word64 8) : (s.initDigest hs).status = s.status := rfl
@[simp] theorem initDigest_cmd (hs : Vector Word64 8) : (s.initDigest hs).cmd = s.cmd := rfl
@[simp] theorem initDigest_pend (hs : Vector Word64 8) : (s.initDigest hs).pend = s.pend := rfl
@[simp] theorem initDigest_errcode (hs : Vector Word64 8) : (s.initDigest hs).errcode = s.errcode := rfl
@[simp] theorem initDigest_mem (hs : Vector Word64 8) : (s.initDigest hs).mem = s.mem := rfl
@[simp] theorem initDigest_ecA (hs : Vector Word64 8) : (s.initDigest hs).ecA = s.ecA := rfl
@[simp] theorem initDigest_ecB (hs : Vector Word64 8) : (s.initDigest hs).ecB = s.ecB := rfl
@[simp] theorem initDigest_ecP (hs : Vector Word64 8) : (s.initDigest hs).ecP = s.ecP := rfl
@[simp] theorem initDigest_ecN (hs : Vector Word64 8) : (s.initDigest hs).ecN = s.ecN := rfl
@[simp] theorem initDigest_ecG (hs : Vector Word64 8) : (s.initDigest hs).ecG = s.ecG := rfl
@[simp] theorem initDigest_pr (hs : Vector Word64 8) : (s.initDigest hs).pr = s.pr := rfl
@[simp] theorem initDigest_prWritten (hs : Vector Word64 8) : (s.initDigest hs).prWritten = s.prWritten := rfl
@[simp] theorem initDigest_sk (hs : Vector Word64 8) : (s.initDigest hs).sk = s.sk := rfl
@[simp] theorem initDigest_skWritten (hs : Vector Word64 8) : (s.initDigest hs).skWritten = s.skWritten := rfl
@[simp] theorem initDigest_h (hs : Vector Word64 8) : (s.initDigest hs).h = hs := rfl
@[simp] theorem initDigest_buf (hs : Vector Word64 8) : (s.initDigest hs).buf = s.buf := rfl
@[simp] theorem initDigest_bufCnt (hs : Vector Word64 8) : (s.initDigest hs).bufCnt = 0 := rfl
@[simp] theorem initDigest_msgLen (hs : Vector Word64 8) : (s.initDigest hs).msgLen = 0 := rfl
@[simp] theorem initDigest_trace (hs : Vector Word64 8) : (s.initDigest hs).trace = s.trace := rfl
@[simp] theorem initDigest_inputs (hs : Vector Word64 8) : (s.initDigest hs).inputs = s.inputs := rfl
@[simp] theorem initDigest_readData (hs : Vector Word64 8) : (s.initDigest hs).readData = s.readData := rfl
@[simp] theorem initDigest_draws (hs : Vector Word64 8) : (s.initDigest hs).draws = s.draws := rfl

@[simp] theorem addMsgLen_ctrl (n : Nat) : (s.addMsgLen n).ctrl = s.ctrl := rfl
@[simp] theorem addMsgLen_status (n : Nat) : (s.addMsgLen n).status = s.status := rfl
@[simp] theorem addMsgLen_cmd (n : Nat) : (s.addMsgLen n).cmd = s.cmd := rfl
@[simp] theorem addMsgLen_pend (n : Nat) : (s.addMsgLen n).pend = s.pend := rfl
@[simp] theorem addMsgLen_errcode (n : Nat) : (s.addMsgLen n).errcode = s.errcode := rfl
@[simp] theorem addMsgLen_mem (n : Nat) : (s.addMsgLen n).mem = s.mem := rfl
@[simp] theorem addMsgLen_ecA (n : Nat) : (s.addMsgLen n).ecA = s.ecA := rfl
@[simp] theorem addMsgLen_ecB (n : Nat) : (s.addMsgLen n).ecB = s.ecB := rfl
@[simp] theorem addMsgLen_ecP (n : Nat) : (s.addMsgLen n).ecP = s.ecP := rfl
@[simp] theorem addMsgLen_ecN (n : Nat) : (s.addMsgLen n).ecN = s.ecN := rfl
@[simp] theorem addMsgLen_ecG (n : Nat) : (s.addMsgLen n).ecG = s.ecG := rfl
@[simp] theorem addMsgLen_pr (n : Nat) : (s.addMsgLen n).pr = s.pr := rfl
@[simp] theorem addMsgLen_prWritten (n : Nat) : (s.addMsgLen n).prWritten = s.prWritten := rfl
@[simp] theorem addMsgLen_sk (n : Nat) : (s.addMsgLen n).sk = s.sk := rfl
@[simp] theorem addMsgLen_skWritten (n : Nat) : (s.addMsgLen n).skWritten = s.skWritten := rfl
@[simp] theorem addMsgLen_h (n : Nat) : (s.addMsgLen n).h = s.h := rfl
@[simp] theorem addMsgLen_buf (n : Nat) : (s.addMsgLen n).buf = s.buf := rfl
@[simp] theorem addMsgLen_bufCnt (n : Nat) : (s.addMsgLen n).bufCnt = s.bufCnt := rfl
@[simp] theorem addMsgLen_msgLen (n : Nat) : (s.addMsgLen n).msgLen = s.msgLen + BitVec.ofNat 128 (8 * n) := rfl
@[simp] theorem addMsgLen_trace (n : Nat) : (s.addMsgLen n).trace = s.trace := rfl
@[simp] theorem addMsgLen_inputs (n : Nat) : (s.addMsgLen n).inputs = s.inputs := rfl
@[simp] theorem addMsgLen_readData (n : Nat) : (s.addMsgLen n).readData = s.readData := rfl
@[simp] theorem addMsgLen_draws (n : Nat) : (s.addMsgLen n).draws = s.draws := rfl

@[simp] theorem setCurve_ctrl (a b p : Nat) : (s.setCurve a b p).ctrl = s.ctrl := rfl
@[simp] theorem setCurve_status (a b p : Nat) : (s.setCurve a b p).status = s.status := rfl
@[simp] theorem setCurve_cmd (a b p : Nat) : (s.setCurve a b p).cmd = s.cmd := rfl
@[simp] theorem setCurve_pend (a b p : Nat) : (s.setCurve a b p).pend = s.pend := rfl
@[simp] theorem setCurve_errcode (a b p : Nat) : (s.setCurve a b p).errcode = s.errcode := rfl
@[simp] theorem setCurve_mem (a b p : Nat) : (s.setCurve a b p).mem = s.mem := rfl
@[simp] theorem setCurve_ecA (a b p : Nat) : (s.setCurve a b p).ecA = BitVec.ofNat 256 a := rfl
@[simp] theorem setCurve_ecB (a b p : Nat) : (s.setCurve a b p).ecB = BitVec.ofNat 256 b := rfl
@[simp] theorem setCurve_ecP (a b p : Nat) : (s.setCurve a b p).ecP = BitVec.ofNat 256 p := rfl
@[simp] theorem setCurve_ecN (a b p : Nat) : (s.setCurve a b p).ecN = s.ecN := rfl
@[simp] theorem setCurve_ecG (a b p : Nat) : (s.setCurve a b p).ecG = s.ecG := rfl
@[simp] theorem setCurve_pr (a b p : Nat) : (s.setCurve a b p).pr = s.pr := rfl
@[simp] theorem setCurve_prWritten (a b p : Nat) : (s.setCurve a b p).prWritten = s.prWritten := rfl
@[simp] theorem setCurve_sk (a b p : Nat) : (s.setCurve a b p).sk = s.sk := rfl
@[simp] theorem setCurve_skWritten (a b p : Nat) : (s.setCurve a b p).skWritten = s.skWritten := rfl
@[simp] theorem setCurve_h (a b p : Nat) : (s.setCurve a b p).h = s.h := rfl
@[simp] theorem setCurve_buf (a b p : Nat) : (s.setCurve a b p).buf = s.buf := rfl
@[simp] theorem setCurve_bufCnt (a b p : Nat) : (s.setCurve a b p).bufCnt = s.bufCnt := rfl
@[simp] theorem setCurve_msgLen (a b p : Nat) : (s.setCurve a b p).msgLen = s.msgLen := rfl
@[simp] theorem setCurve_trace (a b p : Nat) : (s.setCurve a b p).trace = s.trace := rfl
@[simp] theorem setCurve_inputs (a b p : Nat) : (s.setCurve a b p).inputs = s.inputs := rfl
@[simp] theorem setCurve_readData (a b p : Nat) : (s.setCurve a b p).readData = s.readData := rfl
@[simp] theorem setCurve_draws (a b p : Nat) : (s.setCurve a b p).draws = s.draws := rfl

@[simp] theorem setBase_ctrl (g : Point) (n : Nat) : (s.setBase g n).ctrl = s.ctrl := rfl
@[simp] theorem setBase_status (g : Point) (n : Nat) : (s.setBase g n).status = s.status := rfl
@[simp] theorem setBase_cmd (g : Point) (n : Nat) : (s.setBase g n).cmd = s.cmd := rfl
@[simp] theorem setBase_pend (g : Point) (n : Nat) : (s.setBase g n).pend = s.pend := rfl
@[simp] theorem setBase_errcode (g : Point) (n : Nat) : (s.setBase g n).errcode = s.errcode := rfl
@[simp] theorem setBase_mem (g : Point) (n : Nat) : (s.setBase g n).mem = s.mem := rfl
@[simp] theorem setBase_ecA (g : Point) (n : Nat) : (s.setBase g n).ecA = s.ecA := rfl
@[simp] theorem setBase_ecB (g : Point) (n : Nat) : (s.setBase g n).ecB = s.ecB := rfl
@[simp] theorem setBase_ecP (g : Point) (n : Nat) : (s.setBase g n).ecP = s.ecP := rfl
@[simp] theorem setBase_ecN (g : Point) (n : Nat) : (s.setBase g n).ecN = BitVec.ofNat 256 n := rfl
@[simp] theorem setBase_ecG (g : Point) (n : Nat) : (s.setBase g n).ecG = g := rfl
@[simp] theorem setBase_pr (g : Point) (n : Nat) : (s.setBase g n).pr = s.pr := rfl
@[simp] theorem setBase_prWritten (g : Point) (n : Nat) : (s.setBase g n).prWritten = s.prWritten := rfl
@[simp] theorem setBase_sk (g : Point) (n : Nat) : (s.setBase g n).sk = s.sk := rfl
@[simp] theorem setBase_skWritten (g : Point) (n : Nat) : (s.setBase g n).skWritten = s.skWritten := rfl
@[simp] theorem setBase_h (g : Point) (n : Nat) : (s.setBase g n).h = s.h := rfl
@[simp] theorem setBase_buf (g : Point) (n : Nat) : (s.setBase g n).buf = s.buf := rfl
@[simp] theorem setBase_bufCnt (g : Point) (n : Nat) : (s.setBase g n).bufCnt = s.bufCnt := rfl
@[simp] theorem setBase_msgLen (g : Point) (n : Nat) : (s.setBase g n).msgLen = s.msgLen := rfl
@[simp] theorem setBase_trace (g : Point) (n : Nat) : (s.setBase g n).trace = s.trace := rfl
@[simp] theorem setBase_inputs (g : Point) (n : Nat) : (s.setBase g n).inputs = s.inputs := rfl
@[simp] theorem setBase_readData (g : Point) (n : Nat) : (s.setBase g n).readData = s.readData := rfl
@[simp] theorem setBase_draws (g : Point) (n : Nat) : (s.setBase g n).draws = s.draws := rfl

@[simp] theorem clearControl_ctrl : (s.clearControl).ctrl = ⟨false, false⟩ := rfl
@[simp] theorem clearControl_status : (s.clearControl).status = ⟨false, false, false, false, false, false, false, false, .sha512⟩ := rfl
@[simp] theorem clearControl_cmd : (s.clearControl).cmd = 0 := rfl
@[simp] theorem clearControl_pend : (s.clearControl).pend = 0 := rfl
@[simp] theorem clearControl_errcode : (s.clearControl).errcode = 0 := rfl
@[simp] theorem clearControl_mem : (s.clearControl).mem = s.mem := rfl
@[simp] theorem clearControl_ecA : (s.clearControl).ecA = s.ecA := rfl
@[simp] theorem clearControl_ecB : (s.clearControl).ecB = s.ecB := rfl
@[simp] theorem clearControl_ecP : (s.clearControl).ecP = s.ecP := rfl
@[simp] theorem clearControl_ecN : (s.clearControl).ecN = s.ecN := rfl
@[simp] theorem clearControl_ecG : (s.clearControl).ecG = s.ecG := rfl
@[simp] theorem clearControl_pr : (s.clearControl).pr = s.pr := rfl
@[simp] theorem clearControl_prWritten : (s.clearControl).prWritten = s.prWritten := rfl
@[simp] theorem clearControl_sk : (s.clearControl).sk = s.sk := rfl
@[simp] theorem clearControl_skWritten : (s.clearControl).skWritten = s.skWritten := rfl
@[simp] theorem clearControl_h : (s.clearControl).h = s.h := rfl
@[simp] theorem clearControl_buf : (s.clearControl).buf = s.buf := rfl
@[simp] theorem clearControl_bufCnt : (s.clearControl).bufCnt = s.bufCnt := rfl
@[simp] theorem clearControl_msgLen : (s.clearControl).msgLen = s.msgLen := rfl
@[simp] theorem clearControl_trace : (s.clearControl).trace = s.trace := rfl
@[simp] theorem clearControl_inputs : (s.clearControl).inputs = s.inputs := rfl
@[simp] theorem clearControl_readData : (s.clearControl).readData = s.readData := rfl
@[simp] theorem clearControl_draws : (s.clearControl).draws = s.draws := rfl

@[simp] theorem forgetBuf_ctrl : (s.forgetBuf).ctrl = s.ctrl := by simp only [forgetBuf]
@[simp] theorem forgetBuf_status : (s.forgetBuf).status = s.status := by simp only [forgetBuf]
@[simp] theorem forgetBuf_cmd : (s.forgetBuf).cmd = s.cmd := by simp only [forgetBuf]
@[simp] theorem forgetBuf_pend : (s.forgetBuf).pend = s.pend := by simp only [forgetBuf]
@[simp] theorem forgetBuf_errcode : (s.forgetBuf).errcode = s.errcode := by simp only [forgetBuf]
@[simp] theorem forgetBuf_mem : (s.forgetBuf).mem = s.mem := by simp only [forgetBuf]
@[simp] theorem forgetBuf_ecA : (s.forgetBuf).ecA = s.ecA := by simp only [forgetBuf]
@[simp] theorem forgetBuf_ecB : (s.forgetBuf).ecB = s.ecB := by simp only [forgetBuf]
@[simp] theorem forgetBuf_ecP : (s.forgetBuf).ecP = s.ecP := by simp only [forgetBuf]
@[simp] theorem forgetBuf_ecN : (s.forgetBuf).ecN = s.ecN := by simp only [forgetBuf]
@[simp] theorem forgetBuf_ecG : (s.forgetBuf).ecG = s.ecG := by simp only [forgetBuf]
@[simp] theorem forgetBuf_pr : (s.forgetBuf).pr = s.pr := by simp only [forgetBuf]
@[simp] theorem forgetBuf_prWritten : (s.forgetBuf).prWritten = s.prWritten := by simp only [forgetBuf]
@[simp] theorem forgetBuf_sk : (s.forgetBuf).sk = s.sk := by simp only [forgetBuf]
@[simp] theorem forgetBuf_skWritten : (s.forgetBuf).skWritten = s.skWritten := by simp only [forgetBuf]
@[simp] theorem forgetBuf_h : (s.forgetBuf).h = s.h := by simp only [forgetBuf]
@[simp] theorem forgetBuf_buf : (s.forgetBuf).buf = Vector.ofFn fun i : Fin 128 => Config.abandonedBufByte s.draws i.val := by simp only [forgetBuf]
@[simp] theorem forgetBuf_bufCnt : (s.forgetBuf).bufCnt = s.bufCnt := by simp only [forgetBuf]
@[simp] theorem forgetBuf_msgLen : (s.forgetBuf).msgLen = s.msgLen := by simp only [forgetBuf]
@[simp] theorem forgetBuf_trace : (s.forgetBuf).trace = s.trace := by simp only [forgetBuf]
@[simp] theorem forgetBuf_inputs : (s.forgetBuf).inputs = s.inputs := by simp only [forgetBuf]
@[simp] theorem forgetBuf_readData : (s.forgetBuf).readData = s.readData := by simp only [forgetBuf]
@[simp] theorem forgetBuf_draws : (s.forgetBuf).draws = s.draws := by simp only [forgetBuf]

@[simp] theorem forgetHashWords_ctrl : (s.forgetHashWords).ctrl = s.ctrl := rfl
@[simp] theorem forgetHashWords_status : (s.forgetHashWords).status = s.status := rfl
@[simp] theorem forgetHashWords_cmd : (s.forgetHashWords).cmd = s.cmd := rfl
@[simp] theorem forgetHashWords_pend : (s.forgetHashWords).pend = s.pend := rfl
@[simp] theorem forgetHashWords_errcode : (s.forgetHashWords).errcode = s.errcode := rfl
@[simp] theorem forgetHashWords_mem : (s.forgetHashWords).mem = s.mem := rfl
@[simp] theorem forgetHashWords_ecA : (s.forgetHashWords).ecA = s.ecA := rfl
@[simp] theorem forgetHashWords_ecB : (s.forgetHashWords).ecB = s.ecB := rfl
@[simp] theorem forgetHashWords_ecP : (s.forgetHashWords).ecP = s.ecP := rfl
@[simp] theorem forgetHashWords_ecN : (s.forgetHashWords).ecN = s.ecN := rfl
@[simp] theorem forgetHashWords_ecG : (s.forgetHashWords).ecG = s.ecG := rfl
@[simp] theorem forgetHashWords_pr : (s.forgetHashWords).pr = s.pr := rfl
@[simp] theorem forgetHashWords_prWritten : (s.forgetHashWords).prWritten = s.prWritten := rfl
@[simp] theorem forgetHashWords_sk : (s.forgetHashWords).sk = s.sk := rfl
@[simp] theorem forgetHashWords_skWritten : (s.forgetHashWords).skWritten = s.skWritten := rfl
@[simp] theorem forgetHashWords_h : (s.forgetHashWords).h = Vector.ofFn fun i : Fin 8 => Config.abandonedHashWord s.draws i.val := rfl
@[simp] theorem forgetHashWords_buf : (s.forgetHashWords).buf = s.buf := rfl
@[simp] theorem forgetHashWords_bufCnt : (s.forgetHashWords).bufCnt = Config.abandonedBufCnt s.draws := rfl
@[simp] theorem forgetHashWords_msgLen : (s.forgetHashWords).msgLen = s.msgLen := rfl
@[simp] theorem forgetHashWords_trace : (s.forgetHashWords).trace = s.trace := rfl
@[simp] theorem forgetHashWords_inputs : (s.forgetHashWords).inputs = s.inputs := rfl
@[simp] theorem forgetHashWords_readData : (s.forgetHashWords).readData = s.readData := rfl
@[simp] theorem forgetHashWords_draws : (s.forgetHashWords).draws = s.draws := rfl

@[simp] theorem forgetMsgLen_ctrl : (s.forgetMsgLen).ctrl = s.ctrl := rfl
@[simp] theorem forgetMsgLen_status : (s.forgetMsgLen).status = s.status := rfl
@[simp] theorem forgetMsgLen_cmd : (s.forgetMsgLen).cmd = s.cmd := rfl
@[simp] theorem forgetMsgLen_pend : (s.forgetMsgLen).pend = s.pend := rfl
@[simp] theorem forgetMsgLen_errcode : (s.forgetMsgLen).errcode = s.errcode := rfl
@[simp] theorem forgetMsgLen_mem : (s.forgetMsgLen).mem = s.mem := rfl
@[simp] theorem forgetMsgLen_ecA : (s.forgetMsgLen).ecA = s.ecA := rfl
@[simp] theorem forgetMsgLen_ecB : (s.forgetMsgLen).ecB = s.ecB := rfl
@[simp] theorem forgetMsgLen_ecP : (s.forgetMsgLen).ecP = s.ecP := rfl
@[simp] theorem forgetMsgLen_ecN : (s.forgetMsgLen).ecN = s.ecN := rfl
@[simp] theorem forgetMsgLen_ecG : (s.forgetMsgLen).ecG = s.ecG := rfl
@[simp] theorem forgetMsgLen_pr : (s.forgetMsgLen).pr = s.pr := rfl
@[simp] theorem forgetMsgLen_prWritten : (s.forgetMsgLen).prWritten = s.prWritten := rfl
@[simp] theorem forgetMsgLen_sk : (s.forgetMsgLen).sk = s.sk := rfl
@[simp] theorem forgetMsgLen_skWritten : (s.forgetMsgLen).skWritten = s.skWritten := rfl
@[simp] theorem forgetMsgLen_h : (s.forgetMsgLen).h = s.h := rfl
@[simp] theorem forgetMsgLen_buf : (s.forgetMsgLen).buf = s.buf := rfl
@[simp] theorem forgetMsgLen_bufCnt : (s.forgetMsgLen).bufCnt = s.bufCnt := rfl
@[simp] theorem forgetMsgLen_msgLen : (s.forgetMsgLen).msgLen = Config.abandonedMsgLen s.draws := rfl
@[simp] theorem forgetMsgLen_trace : (s.forgetMsgLen).trace = s.trace := rfl
@[simp] theorem forgetMsgLen_inputs : (s.forgetMsgLen).inputs = s.inputs := rfl
@[simp] theorem forgetMsgLen_readData : (s.forgetMsgLen).readData = s.readData := rfl
@[simp] theorem forgetMsgLen_draws : (s.forgetMsgLen).draws = s.draws := rfl

@[simp] theorem forgetCurve_ctrl : (s.forgetCurve).ctrl = s.ctrl := rfl
@[simp] theorem forgetCurve_status : (s.forgetCurve).status = s.status := rfl
@[simp] theorem forgetCurve_cmd : (s.forgetCurve).cmd = s.cmd := rfl
@[simp] theorem forgetCurve_pend : (s.forgetCurve).pend = s.pend := rfl
@[simp] theorem forgetCurve_errcode : (s.forgetCurve).errcode = s.errcode := rfl
@[simp] theorem forgetCurve_mem : (s.forgetCurve).mem = s.mem := rfl
@[simp] theorem forgetCurve_ecA : (s.forgetCurve).ecA = Config.abandonedWord256 s.draws 0 := rfl
@[simp] theorem forgetCurve_ecB : (s.forgetCurve).ecB = Config.abandonedWord256 s.draws 1 := rfl
@[simp] theorem forgetCurve_ecP : (s.forgetCurve).ecP = Config.abandonedWord256 s.draws 2 := rfl
@[simp] theorem forgetCurve_ecN : (s.forgetCurve).ecN = s.ecN := rfl
@[simp] theorem forgetCurve_ecG : (s.forgetCurve).ecG = s.ecG := rfl
@[simp] theorem forgetCurve_pr : (s.forgetCurve).pr = s.pr := rfl
@[simp] theorem forgetCurve_prWritten : (s.forgetCurve).prWritten = s.prWritten := rfl
@[simp] theorem forgetCurve_sk : (s.forgetCurve).sk = s.sk := rfl
@[simp] theorem forgetCurve_skWritten : (s.forgetCurve).skWritten = s.skWritten := rfl
@[simp] theorem forgetCurve_h : (s.forgetCurve).h = s.h := rfl
@[simp] theorem forgetCurve_buf : (s.forgetCurve).buf = s.buf := rfl
@[simp] theorem forgetCurve_bufCnt : (s.forgetCurve).bufCnt = s.bufCnt := rfl
@[simp] theorem forgetCurve_msgLen : (s.forgetCurve).msgLen = s.msgLen := rfl
@[simp] theorem forgetCurve_trace : (s.forgetCurve).trace = s.trace := rfl
@[simp] theorem forgetCurve_inputs : (s.forgetCurve).inputs = s.inputs := rfl
@[simp] theorem forgetCurve_readData : (s.forgetCurve).readData = s.readData := rfl
@[simp] theorem forgetCurve_draws : (s.forgetCurve).draws = s.draws := rfl

@[simp] theorem forgetBase_ctrl : (s.forgetBase).ctrl = s.ctrl := rfl
@[simp] theorem forgetBase_status : (s.forgetBase).status = s.status := rfl
@[simp] theorem forgetBase_cmd : (s.forgetBase).cmd = s.cmd := rfl
@[simp] theorem forgetBase_pend : (s.forgetBase).pend = s.pend := rfl
@[simp] theorem forgetBase_errcode : (s.forgetBase).errcode = s.errcode := rfl
@[simp] theorem forgetBase_mem : (s.forgetBase).mem = s.mem := rfl
@[simp] theorem forgetBase_ecA : (s.forgetBase).ecA = s.ecA := rfl
@[simp] theorem forgetBase_ecB : (s.forgetBase).ecB = s.ecB := rfl
@[simp] theorem forgetBase_ecP : (s.forgetBase).ecP = s.ecP := rfl
@[simp] theorem forgetBase_ecN : (s.forgetBase).ecN = Config.abandonedWord256 s.draws 3 := rfl
@[simp] theorem forgetBase_ecG : (s.forgetBase).ecG = Config.abandonedPoint s.draws := rfl
@[simp] theorem forgetBase_pr : (s.forgetBase).pr = s.pr := rfl
@[simp] theorem forgetBase_prWritten : (s.forgetBase).prWritten = s.prWritten := rfl
@[simp] theorem forgetBase_sk : (s.forgetBase).sk = s.sk := rfl
@[simp] theorem forgetBase_skWritten : (s.forgetBase).skWritten = s.skWritten := rfl
@[simp] theorem forgetBase_h : (s.forgetBase).h = s.h := rfl
@[simp] theorem forgetBase_buf : (s.forgetBase).buf = s.buf := rfl
@[simp] theorem forgetBase_bufCnt : (s.forgetBase).bufCnt = s.bufCnt := rfl
@[simp] theorem forgetBase_msgLen : (s.forgetBase).msgLen = s.msgLen := rfl
@[simp] theorem forgetBase_trace : (s.forgetBase).trace = s.trace := rfl
@[simp] theorem forgetBase_inputs : (s.forgetBase).inputs = s.inputs := rfl
@[simp] theorem forgetBase_readData : (s.forgetBase).readData = s.readData := rfl
@[simp] theorem forgetBase_draws : (s.forgetBase).draws = s.draws := rfl

@[simp] theorem emit_ctrl (r : List (Nat × List Byte)) : (s.emit r).ctrl = s.ctrl := by unfold emit; split <;> rfl
@[simp] theorem emit_status (r : List (Nat × List Byte)) : (s.emit r).status = s.status := by unfold emit; split <;> rfl
@[simp] theorem emit_cmd (r : List (Nat × List Byte)) : (s.emit r).cmd = s.cmd := by unfold emit; split <;> rfl
@[simp] theorem emit_pend (r : List (Nat × List Byte)) : (s.emit r).pend = s.pend := by unfold emit; split <;> rfl
@[simp] theorem emit_errcode (r : List (Nat × List Byte)) : (s.emit r).errcode = s.errcode := by unfold emit; split <;> rfl
@[simp] theorem emit_mem (r : List (Nat × List Byte)) : (s.emit r).mem = s.mem := by unfold emit; split <;> rfl
@[simp] theorem emit_ecA (r : List (Nat × List Byte)) : (s.emit r).ecA = s.ecA := by unfold emit; split <;> rfl
@[simp] theorem emit_ecB (r : List (Nat × List Byte)) : (s.emit r).ecB = s.ecB := by unfold emit; split <;> rfl
@[simp] theorem emit_ecP (r : List (Nat × List Byte)) : (s.emit r).ecP = s.ecP := by unfold emit; split <;> rfl
@[simp] theorem emit_ecN (r : List (Nat × List Byte)) : (s.emit r).ecN = s.ecN := by unfold emit; split <;> rfl
@[simp] theorem emit_ecG (r : List (Nat × List Byte)) : (s.emit r).ecG = s.ecG := by unfold emit; split <;> rfl
@[simp] theorem emit_pr (r : List (Nat × List Byte)) : (s.emit r).pr = s.pr := by unfold emit; split <;> rfl
@[simp] theorem emit_prWritten (r : List (Nat × List Byte)) : (s.emit r).prWritten = s.prWritten := by unfold emit; split <;> rfl
@[simp] theorem emit_sk (r : List (Nat × List Byte)) : (s.emit r).sk = s.sk := by unfold emit; split <;> rfl
@[simp] theorem emit_skWritten (r : List (Nat × List Byte)) : (s.emit r).skWritten = s.skWritten := by unfold emit; split <;> rfl
@[simp] theorem emit_h (r : List (Nat × List Byte)) : (s.emit r).h = s.h := by unfold emit; split <;> rfl
@[simp] theorem emit_buf (r : List (Nat × List Byte)) : (s.emit r).buf = s.buf := by unfold emit; split <;> rfl
@[simp] theorem emit_bufCnt (r : List (Nat × List Byte)) : (s.emit r).bufCnt = s.bufCnt := by unfold emit; split <;> rfl
@[simp] theorem emit_msgLen (r : List (Nat × List Byte)) : (s.emit r).msgLen = s.msgLen := by unfold emit; split <;> rfl
@[simp] theorem emit_inputs (r : List (Nat × List Byte)) : (s.emit r).inputs = s.inputs := by unfold emit; split <;> rfl
@[simp] theorem emit_readData (r : List (Nat × List Byte)) : (s.emit r).readData = s.readData := by unfold emit; split <;> rfl
@[simp] theorem emit_draws (r : List (Nat × List Byte)) : (s.emit r).draws = s.draws := by unfold emit; split <;> rfl

/-- An error completes with its code. -/
@[simp] theorem raise_eq (e : ErrorKind) : s.raise e = s.complete e.code := rfl

/-- Success completes with code 0. -/
@[simp] theorem finish_eq : s.finish = s.complete 0 := rfl

/-- A point computation that met a number that is not invertible writes nothing. -/
@[simp] theorem finishPoint_none (rd : PReg) (r : List (Nat × List Byte)) :
    s.finishPoint rd r none = (s.emit r).complete ErrorKind.nonInvertible.code := rfl

/-- A point computation with a result writes it. -/
@[simp] theorem finishPoint_some (rd : PReg) (r : List (Nat × List Byte)) (p : Point) :
    s.finishPoint rd r (some p) = ((s.emit r).writePr rd p).complete 0 := rfl

/-- A write of DOUT is a write of storage. -/
@[simp] theorem writeDout_eq (i : Nat) (bs : List Byte) : s.writeDout i bs = s.writeBytes (doutBase + i) bs := rfl

/-- A write of STATE is a write of storage. -/
@[simp] theorem writeAesState_eq (b : Block) : s.writeAesState b = s.writeBytes stateBase b.toList := rfl

/-- Emitting records does nothing but append them, and only when records are emitted. -/
theorem emit_trace (r : List (Nat × List Byte)) :
    (s.emit r).trace = if s.ctrl.traceEn = true ∧ Config.hasTrace = true then
      s.trace ++ r.map (fun x => ⟨s.pend.setWidth 8, BitVec.ofNat 16 x.1, x.2⟩) else s.trace := by
  unfold emit tracing
  cases s.ctrl.traceEn <;> cases Config.hasTrace <;> simp

/-- The only field `emit` can change is the trace. -/
theorem emit_eq (r : List (Nat × List Byte)) : s.emit r = { s with trace := (s.emit r).trace } := by
  unfold emit; split <;> rfl

/-- A point register just written holds the point. -/
@[simp] theorem readPr_writePr_same (i : PReg) (p : Point) : (s.writePr i p).readPr i = p := by
  simp [readPr, writePr]

/-- Writing one point register leaves the others' reads alone. -/
theorem readPr_writePr_other (i j : PReg) (p : Point) (hij : j ≠ i) : (s.writePr i p).readPr j = s.readPr j := by
  have h : i.val ≠ j.val := fun e => hij (Fin.ext e.symm)
  simp [readPr, writePr, h]

/-- A scalar register just written holds the scalar. -/
@[simp] theorem readSk_writeSk_same (i : SReg) (k : Word256) : (s.writeSk i k).readSk i = k := by
  simp [readSk, writeSk]

/-- Writing one scalar register leaves the others' reads alone. -/
theorem readSk_writeSk_other (i j : SReg) (k : Word256) (hij : j ≠ i) : (s.writeSk i k).readSk j = s.readSk j := by
  have h : i.val ≠ j.val := fun e => hij (Fin.ext e.symm)
  simp [readSk, writeSk, h]

end Sys2Proof.Machine.State
end

