-- ==== Sys2Proof/Laws/Memory.lean ====
section
/-! SUPPORT. The laws of window storage: what a byte holds after a write or an erasure, that every operation keeps the
canonical form, and that equal contents are equal data. -/

namespace Sys2Proof.Machine

namespace Memory

/-- A read of a list meets its first cell first. -/
theorem find?_cons (c : Host.Cell) (m : Memory) (a : Nat) :
    find? (c :: m) a = if a = c.1 then some c.2 else find? m a := by
  obtain ⟨k, b⟩ := c
  simp only [find?, List.lookup_cons]
  by_cases h : a = k
  · simp [h]
  · have hb : (a == k) = false := by simpa using h
    simp [h, hb]

/-- A read through a filter on offsets. -/
theorem find?_filter (m : Memory) (p : Nat → Bool) (a : Nat) :
    find? (m.filter fun c => p c.1) a = if p a then find? m a else none := by
  induction m with
  | nil => simp [find?]
  | cons c m ih =>
    cases hp : p c.1 <;> by_cases he : a = c.1 <;> simp_all [find?_cons]

/-- A read of two lists laid end to end. -/
theorem find?_append (m n : Memory) (a : Nat) : find? (m ++ n) a = (find? m a).or (find? n a) := by
  induction m with
  | nil => simp [find?]
  | cons c m ih =>
    rw [List.cons_append, find?_cons, find?_cons]
    split <;> simp_all

/-- A read of consecutive cells. -/
theorem find?_cells (a : Nat) (bs : List Byte) (x : Nat) :
    find? (cells a bs) x = if a ≤ x ∧ x < a + bs.length then bs[x - a]? else none := by
  induction bs generalizing a with
  | nil => simp [cells, find?]
  | cons b bs ih =>
    rw [cells, find?_cons]
    by_cases h : x = a
    · subst h; simp
    · rw [if_neg h, ih (a + 1)]
      by_cases h2 : a ≤ x ∧ x < a + (b :: bs).length
      · have : x - a = (x - (a + 1)) + 1 := by omega
        rw [if_pos (by simp at h2; omega), if_pos h2, this, List.getElem?_cons_succ]
      · rw [if_neg (by simp at h2; omega), if_neg h2]

/-- After a write a byte holds the byte written there, else what it held. -/
theorem find?_write (m : Memory) (a : Nat) (bs : List Byte) (x : Nat) :
    find? (write m a bs) x = if a ≤ x ∧ x < a + bs.length then bs[x - a]? else find? m x := by
  unfold write
  rw [find?_append, find?_append, find?_cells]
  have h1 := find?_filter m (fun c => decide (c < a)) x
  have h2 := find?_filter m (fun c => decide (a + bs.length ≤ c)) x
  rw [h1, h2]
  by_cases hlt : x < a
  · have : ¬ (a ≤ x ∧ x < a + bs.length) := by omega
    have h3 : ¬ a + bs.length ≤ x := by omega
    simp [hlt, this, h3]
  · by_cases hge : a + bs.length ≤ x
    · have : ¬ (a ≤ x ∧ x < a + bs.length) := by omega
      simp [hlt, hge, this]
    · have : a ≤ x ∧ x < a + bs.length := by omega
      simp [hlt, hge, this]

/-- After an erasure the erased bytes are unwritten and every other byte holds what it held. -/
theorem find?_erase (m : Memory) (a n x : Nat) :
    find? (erase m a n) x = if a ≤ x ∧ x < a + n then none else find? m x := by
  unfold erase
  rw [find?_filter m (fun c => decide (c < a) || decide (a + n ≤ c)) x]
  by_cases h : a ≤ x ∧ x < a + n
  · have : ¬ (x < a) ∧ ¬ (a + n ≤ x) := by omega
    simp [h, this]
  · have : x < a ∨ a + n ≤ x := by omega
    simp only [if_neg h]; simpa using fun h1 h2 => absurd this (by omega)

/-- The offsets of consecutive cells. -/
theorem mem_cells {a : Nat} {bs : List Byte} {c : Host.Cell} (h : c ∈ cells a bs) : a ≤ c.1 ∧ c.1 < a + bs.length := by
  induction bs generalizing a with
  | nil => simp [cells] at h
  | cons b bs ih =>
    rcases List.mem_cons.1 h with rfl | h
    · simp
    · have := ih h; simp; omega

/-- Consecutive cells rise strictly. -/
theorem cells_rise (a : Nat) (bs : List Byte) : (cells a bs).Pairwise fun c d => c.1 < d.1 := by
  induction bs generalizing a with
  | nil => simp [cells]
  | cons b bs ih =>
    refine List.pairwise_cons.2 ⟨fun c hc => ?_, ih (a + 1)⟩
    have := mem_cells hc; simp; omega

/-- A write to storage keeps the canonical form. -/
theorem wf_write {m : Memory} {a : Nat} {bs : List Byte} (hm : wf m)
    (hs : ∀ j, j < bs.length → isStorage (a + j) = true) : wf (write m a bs) := by
  obtain ⟨hp, hi⟩ := hm
  refine ⟨?_, fun c hc => ?_⟩
  · unfold write
    refine List.pairwise_append.2 ⟨List.pairwise_append.2 ⟨hp.filter _, cells_rise a bs, ?_⟩, hp.filter _, ?_⟩
    · intro c hc d hd
      have h1 : c.1 < a := by simpa using (List.mem_filter.1 hc).2
      have := mem_cells hd; omega
    · intro c hc d hd
      have h2 : a + bs.length ≤ d.1 := by simpa using (List.mem_filter.1 hd).2
      rcases List.mem_append.1 hc with hc | hc
      · have h1 : c.1 < a := by simpa using (List.mem_filter.1 hc).2
        omega
      · have := mem_cells hc; omega
  · unfold write at hc
    rcases List.mem_append.1 hc with hc | hc
    · rcases List.mem_append.1 hc with hc | hc
      · exact hi c (List.mem_filter.1 hc).1
      · have := mem_cells hc
        have h := hs (c.1 - a) (by omega)
        rwa [show a + (c.1 - a) = c.1 by omega] at h
    · exact hi c (List.mem_filter.1 hc).1

/-- An erasure keeps the canonical form. -/
theorem wf_erase {m : Memory} (hm : wf m) (a n : Nat) : wf (erase m a n) :=
  ⟨hm.1.filter _, fun c hc => hm.2 c (List.mem_filter.1 hc).1⟩

/-- Memory with nothing listed is in its canonical form. -/
theorem wf_nil : wf [] := ⟨List.Pairwise.nil, by simp⟩

/-- A listed cell is what its offset reads as. -/
theorem find?_of_mem {m : Memory} (hm : wf m) {c : Host.Cell} (hc : c ∈ m) : find? m c.1 = some c.2 := by
  obtain ⟨hp, -⟩ := hm
  induction m with
  | nil => simp at hc
  | cons d m ih =>
    rw [find?_cons]
    rcases List.mem_cons.1 hc with rfl | hc
    · simp
    · have hlt := (List.pairwise_cons.1 hp).1 c hc
      rw [if_neg (by omega)]
      exact ih hc (List.pairwise_cons.1 hp).2

/-- What an offset reads as is a listed cell. -/
theorem mem_of_find? {m : Memory} {a : Nat} {b : Byte} (h : find? m a = some b) : (a, b) ∈ m := by
  induction m with
  | nil => simp [find?] at h
  | cons d m ih =>
    rw [find?_cons] at h
    split at h
    · next he => obtain ⟨k, v⟩ := d; simp_all
    · exact List.mem_cons_of_mem _ (ih h)

/-- Equal memories are equal data. -/
theorem eq_of_find?_eq {m n : Memory} (hm : wf m) (hn : wf n) (h : ∀ a, find? m a = find? n a) : m = n := by
  have sub : ∀ {m n : Memory}, wf m → (∀ a, find? m a = find? n a) → ∀ c ∈ m, c ∈ n := fun hm h c hc =>
    mem_of_find? (by rw [← h, find?_of_mem hm hc])
  have nodup : ∀ {m : Memory}, wf m → m.Nodup := fun hm => hm.1.imp fun hlt e => by simp [e] at hlt
  refine List.Perm.eq_of_pairwise (le := fun c d => c.1 < d.1) (fun a b _ _ h1 h2 => by omega) hm.1 hn.1 ?_
  exact (List.perm_ext_iff_of_nodup (nodup hm) (nodup hn)).2 fun c =>
    ⟨sub hm h c, sub hn (fun a => (h a).symm) c⟩

end Memory

namespace State

variable (s : State)

/-- The stored byte after a write of storage. -/
theorem stored_writeBytes (a : Nat) (bs : List Byte) (x : Nat) :
    (s.writeBytes a bs).stored x = if a ≤ x ∧ x < a + bs.length then bs[x - a]? else s.stored x :=
  Memory.find?_write s.mem a bs x

/-- The stored byte after an erasure. -/
theorem stored_eraseBytes (a n x : Nat) :
    (s.eraseBytes a n).stored x = if a ≤ x ∧ x < a + n then none else s.stored x :=
  Memory.find?_erase s.mem a n x

/-- What is stored depends on the storage alone. -/
theorem stored_congr {s t : State} (h : t.mem = s.mem) (x : Nat) : t.stored x = s.stored x := by
  simp [stored, h]

/-- What a byte reads as depends on the storage and the draw number alone. -/
theorem byte_congr {s t : State} (h : t.mem = s.mem) (hd : t.draws = s.draws) (x : Nat) : t.byte x = s.byte x := by
  simp [byte, stored, h, hd]

/-- A byte that has been written reads as what was written. -/
theorem byte_of_stored {s : State} {x : Nat} {b : Byte} (h : s.stored x = some b) : s.byte x = b := by
  simp [byte, h]

@[simp] theorem bytes_length (a n : Nat) : (s.bytes a n).length = n := by
  induction n generalizing a with
  | zero => rfl
  | succ n ih => simp [bytes, ih]

/-- Byte j of a run of bytes. -/
theorem bytes_getElem? (a n j : Nat) : (s.bytes a n)[j]? = if j < n then some (s.byte (a + j)) else none := by
  induction n generalizing a j with
  | zero => simp [bytes]
  | succ n ih =>
    cases j with
    | zero => simp [bytes]
    | succ j => simp [bytes, ih, Nat.add_assoc, Nat.add_comm 1 j]

end State

/-- The bytes of a write stand in storage. -/
theorem storedAt_writeBytes (s : State) (a : Nat) (bs : List Byte) : StoredAt (s.writeBytes a bs) a bs := by
  intro j hj
  rw [State.stored_writeBytes, if_pos (by omega), show a + j - a = j by omega]

/-- A write changes no byte outside it. -/
theorem sameStorageOutside_writeBytes (s : State) (a : Nat) (bs : List Byte) :
    SameStorageOutside a bs.length s (s.writeBytes a bs) := by
  intro x hx
  rw [State.stored_writeBytes, if_neg hx]

end Sys2Proof.Machine
end

