-- ==== Sys2Proof/Laws/Commands.lean ====
section
/-! SUPPORT. How a command can end, said once: `Ending` lists the three ways, and `exec_ending` says that every command in
every state ends in one of them. The rules of the whole machine are case analyses of it. -/

namespace Sys2Proof.Machine

/-- STATUS before completion of a command that succeeds (10_state.md R23). -/
def statusOnSuccess (st : Status) : Instr → Status
  | .feiKey _ => { st with feiKv := true }
  | .aesKeyexp _ => { st with aesKv := true }
  | .sha512Init => { st with hashAct := true, hashAlg := .sha512 }
  | .md5Init => { st with hashAct := true, hashAlg := .md5 }
  | .hashFinal => { st with hashAct := false }
  | .ecSetcurve => { st with ecCv := true, ecGv := false }
  | .ecSetbase => { st with ecGv := true }
  | .nop | .feiEnc _ | .feiDec _ | .aesEnc _ | .aesDec _ | .aesSb | .aesSr | .aesMc | .aesArk _ | .aesIsb | .aesIsr
  | .aesImc | .hashUpdate _ | .ecLdpt _ | .ecStpt _ | .ecLdk _ | .ecOncurve _ | .ecNeg _ _ | .ecAdd _ _ _
  | .ecDbl _ _ | .ecMul _ _ _ | .ecPub _ _ | .ecEnc _ _ _ _ | .ecDec _ _ _ _ => st

/-- STATUS before completion of a command that fails with `e`; EC_SETBASE without a curve clears nothing
(40_command_cycle.md R106, 47_ec.md R311). -/
def statusOnFailure (st : Status) (e : ErrorKind) : Instr → Status
  | .feiKey _ => { st with feiKv := false }
  | .aesKeyexp _ => { st with aesKv := false }
  | .ecSetcurve => { st with ecCv := false, ecGv := false }
  | .ecSetbase => if e = .notConfigured then st else { st with ecGv := false }
  | .nop | .feiEnc _ | .feiDec _ | .aesEnc _ | .aesDec _ | .aesSb | .aesSr | .aesMc | .aesArk _ | .aesIsb | .aesIsr
  | .aesImc | .sha512Init | .md5Init | .hashUpdate _ | .hashFinal | .ecLdpt _ | .ecStpt _ | .ecLdk _ | .ecOncurve _
  | .ecNeg _ _ | .ecAdd _ _ _ | .ecDbl _ _ | .ecMul _ _ _ | .ecPub _ _ | .ecEnc _ _ _ _ | .ecDec _ _ _ _ => st

/-- The three ways a command can end. -/
inductive Ending (i : Instr) (s : State) : State → Prop
  /-- It fails before its computation: nothing but STATUS and ERRCODE is written. -/
  | fails (e : ErrorKind) (he : e ≠ .nonInvertible ∧ e ≠ .emptyKey) :
      Ending i s (State.complete e.code { s with status := statusOnFailure s.status e i })
  /-- Its computation is not invertible: the records already emitted stay, and nothing else is written. -/
  | notInvertible (hi : mayBeNonInvertible i = true) (r : List (Nat × List Byte)) :
      Ending i s ((s.emit r).complete ErrorKind.nonInvertible.code)
  /-- It succeeds: it writes its destinations and its flags. -/
  | succeeds (u : State) (r : List (Nat × List Byte)) (hc : SameControl s u) (hd : SameButDestinations i s u)
      (hs : u.status = statusOnSuccess s.status i) (ht : u.trace = (s.emit r).trace) :
      Ending i s (u.complete 0)

section Frames

variable {i : Instr} {s u : State}

/-- A command that leaves the digest unit alone. -/
theorem SameDigestBut.of_same (h : SameDigest s u) : SameDigestBut i s u :=
  ⟨fun _ => h, fun _ => h.2.2.2, fun _ => h.2.1⟩

/-- A command that changes no register outside the window and no byte outside its destinations. -/
theorem SameButDestinations.of_storage (hm : ∀ a, ¬ InDestination i a → u.stored a = s.stored a)
    (hr : SameRegisters s u) : SameButDestinations i s u := by
  obtain ⟨⟨h1, h2⟩, ⟨h3, h4⟩, hc, hb, hd⟩ := hr
  exact ⟨hm, fun j _ => by simp [h1, h2], fun k _ => by simp [h3, h4], fun _ => hc, fun _ => hb, .of_same hd⟩

/-- A command that changes no storage. -/
theorem SameButDestinations.of_registers (hm : u.mem = s.mem)
    (hp : SamePointsBut (destinationPoints i) s u)
    (hk : ∀ k : SReg, k ∉ destinationScalars i → u.sk[k] = s.sk[k] ∧ u.skWritten[k] = s.skWritten[k])
    (hc : i ≠ .ecSetcurve → SameCurve s u) (hb : i ≠ .ecSetbase → SameBase s u)
    (hd : SameDigestBut i s u) : SameButDestinations i s u :=
  ⟨fun a _ => State.stored_congr hm a, hp, hk, hc, hb, hd⟩

/-- One write inside the destinations leaves every other byte alone. -/
theorem stored_of_write {m : Memory} {lo n : Nat} {bs : List Byte} (h : u.mem = Memory.write m lo bs)
    (hd : (lo, n) ∈ destinationBytes i) (hn : bs.length ≤ n) {a : Nat} (ha : ¬ InDestination i a) :
    u.stored a = Memory.find? m a := by
  have : ¬ (lo ≤ a ∧ a < lo + bs.length) := fun hx => ha ⟨_, hd, hx.1, by simp; omega⟩
  simp [State.stored, h, Memory.find?_write, this]

/-- Writing one point register leaves the others alone. -/
theorem samePointsBut_writePr (rd : PReg) (p : Point) (hp : u.pr = (s.writePr rd p).pr)
    (hw : u.prWritten = (s.writePr rd p).prWritten) : SamePointsBut [rd] s u := by
  intro j hj
  have h : rd.val ≠ j.val := fun e => hj (by simp [Fin.ext_iff, e])
  simp [hp, hw, h]

/-- Writing two point registers leaves the others alone. -/
theorem samePointsBut_writePr₂ (rd rd' : PReg) (p q : Point) (hp : u.pr = ((s.writePr rd p).writePr rd' q).pr)
    (hw : u.prWritten = ((s.writePr rd p).writePr rd' q).prWritten) : SamePointsBut [rd, rd'] s u := by
  intro j hj
  have h : rd.val ≠ j.val := fun e => hj (by simp [Fin.ext_iff, e])
  have h' : rd'.val ≠ j.val := fun e => hj (by simp [Fin.ext_iff, e])
  simp [hp, hw, h, h']

/-- All registers outside the window are unchanged when each field is. -/
theorem sameRegisters_of_fields (h : u.pr = s.pr ∧ u.prWritten = s.prWritten ∧ u.sk = s.sk ∧
    u.skWritten = s.skWritten ∧ u.ecA = s.ecA ∧ u.ecB = s.ecB ∧ u.ecP = s.ecP ∧ u.ecG = s.ecG ∧ u.ecN = s.ecN ∧
    u.h = s.h ∧ u.buf = s.buf ∧ u.bufCnt = s.bufCnt ∧ u.msgLen = s.msgLen) : SameRegisters s u := by
  obtain ⟨h1, h2, h3, h4, h5, h6, h7, h8, h9, h10, h11, h12, h13⟩ := h
  exact ⟨⟨h1, h2⟩, ⟨h3, h4⟩, ⟨h5, h6, h7⟩, ⟨h8, h9⟩, h10, h11, h12, h13⟩

end Frames

/-! ### Each command's ending -/

/-- The schedule's bytes fill RK. -/
theorem Aes.scheduleBytes_length (key : Block) : (Aes.scheduleBytes (Aes.schedule key)).length = 176 := by
  have hf : ∀ (is : List Nat) (ws : List Aes.KeyWord),
      (is.foldl (fun ws i => ws ++ [Aes.nextWord ws i]) ws).length = ws.length + is.length := by
    intro is
    induction is with
    | nil => simp
    | cons i is ih => intro ws; simp [ih]; omega
  have hb : ∀ ws : List Aes.KeyWord, (Aes.scheduleBytes ws).length = 4 * ws.length := by
    intro ws
    induction ws with
    | nil => rfl
    | cons w ws ih => simp [Aes.scheduleBytes] at *; omega
  rw [hb, Aes.schedule, hf]
  simp [Aes.keyWords]

/-- A command that writes storage once and no register outside the window; `f` is its writes after its records. -/
theorem ending_store {i : Instr} {s : State} (f : State → State) (r : List (Nat × List Byte)) (lo n : Nat)
    {bs : List Byte} (hd : (lo, n) ∈ destinationBytes i) (hn : bs.length ≤ n)
    (hf : ∀ tr, f { s with trace := tr } = { s with
      trace := tr, mem := Memory.write s.mem lo bs, status := statusOnSuccess s.status i }) :
    Ending i s ((f (s.emit r)).complete 0) := by
  rw [State.emit_eq, hf]
  refine .succeeds _ r ⟨rfl, rfl, rfl, rfl, rfl, rfl⟩ (.of_storage (fun _ ha => ?_) (sameRegisters_of_fields (by simp)))
    rfl rfl
  exact stored_of_write rfl hd hn ha

/-- A command that writes no storage: registers outside the window and flags. -/
theorem ending_registers {i : Instr} {s u : State} (r : List (Nat × List Byte)) (hm : u.mem = s.mem)
    (hc : SameControl s u) (hs : u.status = statusOnSuccess s.status i) (ht : u.trace = (s.emit r).trace)
    (hp : SamePointsBut (destinationPoints i) s u)
    (hk : ∀ k : SReg, k ∉ destinationScalars i → u.sk[k] = s.sk[k] ∧ u.skWritten[k] = s.skWritten[k])
    (hcv : i ≠ .ecSetcurve → SameCurve s u) (hb : i ≠ .ecSetbase → SameBase s u)
    (hd : SameDigestBut i s u) : Ending i s (u.complete 0) :=
  .succeeds u r hc (.of_registers hm hp hk hcv hb hd) hs ht

/-- FEI_ENC and FEI_DEC. -/
theorem feistelBlock_ending {i : Instr} (hd : (0x180, 4) ∈ destinationBytes i)
    (he : ∀ st e, statusOnFailure st e i = st) (hs : ∀ st, statusOnSuccess st i = st)
    (steps : Byte → Byte → Byte → Byte × Byte × Byte × Byte) (len : Byte) (s : State) :
    ∃ t, feistelBlock steps len s = .next t ∧ Ending i s t := by
  unfold feistelBlock
  split
  · exact ⟨_, rfl, by simpa [he] using Ending.fails (i := i) (s := s) .notConfigured (by simp)⟩
  · split
    · exact ⟨_, rfl, by simpa [he] using Ending.fails (i := i) (s := s) .invalidBlockLength (by simp)⟩
    · refine ⟨_, rfl, ending_store (fun u => u.writeDout 0 _) _ _ 4 hd ?_ (by intro; rw [hs]; rfl)⟩
      simp

/-- The step commands. -/
theorem aesStep_ending {i : Instr} (hd : (0x200, 16) ∈ destinationBytes i) (hs : ∀ st, statusOnSuccess st i = st)
    (transform : Block → Block) (s : State) : ∃ t, aesStep transform s = .next t ∧ Ending i s t := by
  refine ⟨_, rfl, ending_store (fun u => u.writeAesState _) _ _ 16 hd ?_ (by intro; rw [hs]; rfl)⟩
  simp

/-- AES_ENC and AES_DEC. -/
theorem aesBlock_ending {i : Instr} (hd : (0x180, 16) ∈ destinationBytes i ∧ (0x200, 16) ∈ destinationBytes i)
    (he : ∀ st e, statusOnFailure st e i = st) (hs : ∀ st, statusOnSuccess st i = st)
    (states : (Nat → Block) → Block → List Block) (len : Byte) (s : State) :
    ∃ t, aesBlock states len s = .next t ∧ Ending i s t := by
  unfold aesBlock
  split
  · exact ⟨_, rfl, by simpa [he] using Ending.fails (i := i) (s := s) .notConfigured (by simp)⟩
  · split
    · exact ⟨_, rfl, by simpa [he] using Ending.fails (i := i) (s := s) .invalidBlockLength (by simp)⟩
    · refine ⟨_, rfl, ?_⟩
      rw [State.emit_eq]
      refine .succeeds _ _ ⟨rfl, rfl, rfl, rfl, rfl, rfl⟩
        (.of_storage (fun a ha => ?_) (sameRegisters_of_fields (by simp))) (by rw [hs]; rfl) rfl
      rw [stored_of_write rfl hd.1 (by simp) ha]
      exact stored_of_write (u := { s with mem := Memory.write s.mem stateBase _ }) rfl hd.2 (by simp) ha

/-- The end of a command that computes one point. -/
theorem finishPoint_ending {i : Instr} {rd : PReg} (hn : mayBeNonInvertible i = true) (hp : destinationPoints i = [rd])
    (hs : ∀ st, statusOnSuccess st i = st) (s : State) (r : List (Nat × List Byte)) (p : Option Point) :
    Ending i s (s.finishPoint rd r p) := by
  cases p with
  | none => exact .notInvertible hn r
  | some p =>
    rw [State.finishPoint_some]
    exact ending_registers r (by simp) (by simp [SameControl]) (by simp [hs]) (by simp)
      (hp ▸ samePointsBut_writePr rd p (by simp) (by simp)) (by simp) (fun _ => by simp [SameCurve])
      (fun _ => by simp [SameBase]) (.of_same (by simp [SameDigest]))

/-- A failure that clears no flag. -/
theorem ending_fails {i : Instr} {s : State} (e : ErrorKind) (he : e ≠ .nonInvertible ∧ e ≠ .emptyKey)
    (h : statusOnFailure s.status e i = s.status) : Ending i s (s.complete e.code) := by
  simpa [h] using Ending.fails (i := i) (s := s) e he

theorem nop_ending (s : State) : ∃ t, exec .nop s = .next t ∧ Ending .nop s t :=
  ⟨_, rfl, ending_registers [] rfl (by simp [SameControl]) rfl (by simp [State.emit_trace])
  (by simp [SamePointsBut]) (by simp) (fun _ => by simp [SameCurve]) (fun _ => by simp [SameBase]) (.of_same (by simp [SameDigest]))⟩

theorem feiKey_ending (len : Byte) (s : State) : ∃ t, exec (.feiKey len) s = .next t ∧ Ending (.feiKey len) s t := by
  simp only [exec, execFeiKey]
  split
  · exact ⟨_, rfl, .fails .invalidKeyLength (by simp)⟩
  · refine ⟨_, rfl, ending_store (fun u => (u.writeBytes feiK1Addr _).setFeiKv true) _ _ 2 (List.mem_singleton.2 rfl) ?_ (by intro; rfl)⟩
    simp

theorem feiEnc_ending (len : Byte) (s : State) : ∃ t, exec (.feiEnc len) s = .next t ∧ Ending (.feiEnc len) s t := by
  exact feistelBlock_ending (List.mem_singleton.2 rfl) (fun _ _ => rfl) (fun _ => rfl) _ _ _

theorem feiDec_ending (len : Byte) (s : State) : ∃ t, exec (.feiDec len) s = .next t ∧ Ending (.feiDec len) s t := by
  exact feistelBlock_ending (List.mem_singleton.2 rfl) (fun _ _ => rfl) (fun _ => rfl) _ _ _

theorem aesKeyexp_ending (len : Byte) (s : State) : ∃ t, exec (.aesKeyexp len) s = .next t ∧ Ending (.aesKeyexp len) s t := by
  simp only [exec, execAesKeyexp]
  split
  · exact ⟨_, rfl, .fails .invalidKeyLength (by simp)⟩
  · have hl := (Aes.scheduleBytes_length s.dinBlock).le
    generalize Aes.schedule s.dinBlock = ws at hl
    exact ⟨_, rfl, ending_store (fun u => (u.writeBytes rkBase (Aes.scheduleBytes ws)).setAesKv true) _ _ 176
      (List.mem_singleton.2 rfl) hl (by intro; rfl)⟩

theorem aesEnc_ending (len : Byte) (s : State) : ∃ t, exec (.aesEnc len) s = .next t ∧ Ending (.aesEnc len) s t := by
  exact aesBlock_ending (by simp [destinationBytes]) (fun _ _ => rfl) (fun _ => rfl) _ _ _

theorem aesDec_ending (len : Byte) (s : State) : ∃ t, exec (.aesDec len) s = .next t ∧ Ending (.aesDec len) s t := by
  exact aesBlock_ending (by simp [destinationBytes]) (fun _ _ => rfl) (fun _ => rfl) _ _ _

theorem aesSb_ending (s : State) : ∃ t, exec .aesSb s = .next t ∧ Ending .aesSb s t := by
  exact aesStep_ending (List.mem_singleton.2 rfl) (fun _ => rfl) _ _

theorem aesSr_ending (s : State) : ∃ t, exec .aesSr s = .next t ∧ Ending .aesSr s t := by
  exact aesStep_ending (List.mem_singleton.2 rfl) (fun _ => rfl) _ _

theorem aesMc_ending (s : State) : ∃ t, exec .aesMc s = .next t ∧ Ending .aesMc s t := by
  exact aesStep_ending (List.mem_singleton.2 rfl) (fun _ => rfl) _ _

theorem aesIsb_ending (s : State) : ∃ t, exec .aesIsb s = .next t ∧ Ending .aesIsb s t := by
  exact aesStep_ending (List.mem_singleton.2 rfl) (fun _ => rfl) _ _

theorem aesIsr_ending (s : State) : ∃ t, exec .aesIsr s = .next t ∧ Ending .aesIsr s t := by
  exact aesStep_ending (List.mem_singleton.2 rfl) (fun _ => rfl) _ _

theorem aesImc_ending (s : State) : ∃ t, exec .aesImc s = .next t ∧ Ending .aesImc s t := by
  exact aesStep_ending (List.mem_singleton.2 rfl) (fun _ => rfl) _ _

theorem aesArk_ending (rnd : Fin 16) (s : State) : ∃ t, exec (.aesArk rnd) s = .next t ∧ Ending (.aesArk rnd) s t := by
  simp only [exec, execAesArk]
  split
  · exact ⟨_, rfl, ending_fails .illegalCommand (by simp) rfl⟩
  · split
    · exact ⟨_, rfl, ending_fails .notConfigured (by simp) rfl⟩
    · exact aesStep_ending (List.mem_singleton.2 rfl) (fun _ => rfl) _ _

theorem sha512Init_ending (s : State) : ∃ t, exec .sha512Init s = .next t ∧ Ending .sha512Init s t := by
  exact ⟨_, rfl, ending_registers [] (by simp) (by simp [SameControl]) (by simp [statusOnSuccess]) (by simp [State.emit_trace])
    (by simp [SamePointsBut]) (by simp) (fun _ => by simp [SameCurve]) (fun _ => by simp [SameBase]) (by simp [SameDigestBut, isDigestCommand])⟩

theorem md5Init_ending (s : State) : ∃ t, exec .md5Init s = .next t ∧ Ending .md5Init s t := by
  exact ⟨_, rfl, ending_registers [] (by simp) (by simp [SameControl]) (by simp [statusOnSuccess]) (by simp [State.emit_trace])
    (by simp [SamePointsBut]) (by simp) (fun _ => by simp [SameCurve]) (fun _ => by simp [SameBase]) (by simp [SameDigestBut, isDigestCommand])⟩

theorem hashUpdate_ending (len : Byte) (s : State) : ∃ t, exec (.hashUpdate len) s = .next t ∧ Ending (.hashUpdate len) s t := by
  simp only [exec, execHashUpdate]
  split
  · exact ⟨_, rfl, ending_fails .notConfigured (by simp) rfl⟩
  · split
    · exact ⟨_, rfl, ending_fails .invalidBlockLength (by simp) rfl⟩
    · exact ⟨_, rfl, ending_registers _ (by simp) (by simp [SameControl]) (by simp [statusOnSuccess]) (by simp; rfl)
        (by simp [SamePointsBut]) (by simp) (fun _ => by simp [SameCurve]) (fun _ => by simp [SameBase]) (by simp [SameDigestBut, isDigestCommand])⟩

theorem hashFinal_ending (s : State) : ∃ t, exec .hashFinal s = .next t ∧ Ending .hashFinal s t := by
  simp only [exec, execHashFinal]
  split
  · exact ⟨_, rfl, ending_fails .notConfigured (by simp) rfl⟩
  · refine ⟨_, rfl, .succeeds _ _ (by simp [SameControl]) ⟨fun a ha => ?_, by simp [SamePointsBut], by simp,
      fun _ => by simp [SameCurve], fun _ => by simp [SameBase], by simp [SameDigestBut, isDigestCommand]⟩ (by simp [statusOnSuccess]) (by simp; rfl)⟩
    refine stored_of_write (i := .hashFinal) (lo := 0x180) (n := 64) (m := s.mem) (by simp; rfl) (List.mem_singleton.2 rfl) ?_ ha
    cases s.status.hashAlg <;> simp [HashAlg.digest, Sha512.digest, Md5.digest, natToBe, natToLe]

theorem ecSetcurve_ending (s : State) : ∃ t, exec .ecSetcurve s = .next t ∧ Ending .ecSetcurve s t := by
  simp only [exec, execEcSetcurve]
  generalize s.slot 0 = a, s.slot 1 = b, s.slot 2 = p
  split
  · exact ⟨_, rfl, .fails .singularCurve (by simp)⟩
  · exact ⟨_, rfl, ending_registers [] (by simp) (by simp [SameControl]) (by simp [statusOnSuccess]) (by simp [State.emit_trace])
      (by simp [SamePointsBut]) (by simp) (by simp) (fun _ => by simp [SameBase]) (.of_same (by simp [SameDigest]))⟩

theorem ecSetbase_ending (s : State) : ∃ t, exec .ecSetbase s = .next t ∧ Ending .ecSetbase s t := by
  simp only [exec, execEcSetbase]
  generalize s.slot 0 = x, s.slot 1 = y, s.slot 2 = n
  split
  · exact ⟨_, rfl, ending_fails .notConfigured (by simp) rfl⟩
  · split
    · exact ⟨_, rfl, .fails .pointNotOnCurve (by simp)⟩
    · exact ⟨_, rfl, ending_registers [] (by simp) (by simp [SameControl]) (by simp [statusOnSuccess]) (by simp [State.emit_trace])
        (by simp [SamePointsBut]) (by simp) (fun _ => by simp [SameCurve]) (by simp) (.of_same (by simp [SameDigest]))⟩

theorem ecLdpt_ending (rd : PReg) (s : State) : ∃ t, exec (.ecLdpt rd) s = .next t ∧ Ending (.ecLdpt rd) s t := by
  exact ⟨_, rfl, ending_registers [] (by simp) (by simp [SameControl]) (by simp [statusOnSuccess]) (by simp [State.emit_trace])
    (samePointsBut_writePr rd _ rfl rfl) (by simp) (fun _ => by simp [SameCurve]) (fun _ => by simp [SameBase]) (.of_same (by simp [SameDigest]))⟩

theorem ecStpt_ending (ra : PReg) (s : State) : ∃ t, exec (.ecStpt ra) s = .next t ∧ Ending (.ecStpt ra) s t := by
  refine ⟨_, rfl, .succeeds _ [] (by simp [SameControl]) (.of_storage (fun a ha => ?_) (sameRegisters_of_fields (by simp))) (by simp [statusOnSuccess]) (by simp [State.emit_trace])⟩
  refine stored_of_write (i := .ecStpt ra) (lo := 0x180) (n := 68) (m := s.mem) rfl (List.mem_singleton.2 rfl) ?_ ha
  cases s.readPr ra <;> simp [Ec.pointBytes, natToLe]

theorem ecLdk_ending (ks : SReg) (s : State) : ∃ t, exec (.ecLdk ks) s = .next t ∧ Ending (.ecLdk ks) s t := by
  refine ⟨_, rfl, ending_registers [] (by simp) (by simp [SameControl]) (by simp [statusOnSuccess]) (by simp [State.emit_trace])
    (by simp [SamePointsBut]) (fun k hk => ?_) (fun _ => by simp [SameCurve]) (fun _ => by simp [SameBase]) (.of_same (by simp [SameDigest]))⟩
  have h : ks.val ≠ k.val := fun e => hk (by simp [destinationScalars, Fin.ext_iff, e])
  simp [h]

theorem ecOncurve_ending (ra : PReg) (s : State) : ∃ t, exec (.ecOncurve ra) s = .next t ∧ Ending (.ecOncurve ra) s t := by
  simp only [exec, execEcOncurve]
  split
  · exact ⟨_, rfl, ending_fails .notConfigured (by simp) rfl⟩
  · refine ⟨_, rfl, .succeeds _ [] (by simp [SameControl]) (.of_storage (fun a ha => ?_) (sameRegisters_of_fields (by simp))) (by simp [statusOnSuccess]) (by simp [State.emit_trace])⟩
    exact stored_of_write (i := .ecOncurve ra) (lo := 0x180) (n := 4) (m := s.mem) rfl (List.mem_singleton.2 rfl) (by simp) ha

theorem ecNeg_ending (rd : PReg) (ra : PReg) (s : State) : ∃ t, exec (.ecNeg rd ra) s = .next t ∧ Ending (.ecNeg rd ra) s t := by
  simp only [exec, execEcNeg]
  split
  · exact ⟨_, rfl, ending_fails .notConfigured (by simp) rfl⟩
  · split
    · exact ⟨_, rfl, ending_fails .pointNotOnCurve (by simp) rfl⟩
    · rw [State.finishPoint_some]
      exact ⟨_, rfl, ending_registers _ (by simp) (by simp [SameControl]) (by simp [statusOnSuccess]) (by simp; rfl)
        (samePointsBut_writePr rd _ (by simp; rfl) (by simp)) (by simp) (fun _ => by simp [SameCurve]) (fun _ => by simp [SameBase]) (.of_same (by simp [SameDigest]))⟩

theorem ecAdd_ending (rd : PReg) (ra : PReg) (rb : PReg) (s : State) : ∃ t, exec (.ecAdd rd ra rb) s = .next t ∧ Ending (.ecAdd rd ra rb) s t := by
  simp only [exec, execEcAdd]
  split
  · exact ⟨_, rfl, ending_fails .notConfigured (by simp) rfl⟩
  · split
    · exact ⟨_, rfl, ending_fails .pointNotOnCurve (by simp) rfl⟩
    · split
      · exact ⟨_, rfl, ending_fails .pointNotOnCurve (by simp) rfl⟩
      · exact ⟨_, rfl, finishPoint_ending rfl rfl (fun _ => rfl) _ _ _⟩

theorem ecDbl_ending (rd : PReg) (ra : PReg) (s : State) : ∃ t, exec (.ecDbl rd ra) s = .next t ∧ Ending (.ecDbl rd ra) s t := by
  simp only [exec, execEcDbl]
  split
  · exact ⟨_, rfl, ending_fails .notConfigured (by simp) rfl⟩
  · split
    · exact ⟨_, rfl, ending_fails .pointNotOnCurve (by simp) rfl⟩
    · exact ⟨_, rfl, finishPoint_ending rfl rfl (fun _ => rfl) _ _ _⟩

theorem ecMul_ending (rd : PReg) (ra : PReg) (ks : SReg) (s : State) : ∃ t, exec (.ecMul rd ra ks) s = .next t ∧ Ending (.ecMul rd ra ks) s t := by
  simp only [exec, execEcMul]
  split
  · exact ⟨_, rfl, ending_fails .notConfigured (by simp) rfl⟩
  · split
    · exact ⟨_, rfl, ending_fails .pointNotOnCurve (by simp) rfl⟩
    · exact ⟨_, rfl, finishPoint_ending rfl rfl (fun _ => rfl) _ _ _⟩

theorem ecPub_ending (rd : PReg) (ks : SReg) (s : State) : ∃ t, exec (.ecPub rd ks) s = .next t ∧ Ending (.ecPub rd ks) s t := by
  simp only [exec, execEcPub]
  split
  · exact ⟨_, rfl, ending_fails .notConfigured (by simp) rfl⟩
  · exact ⟨_, rfl, finishPoint_ending rfl rfl (fun _ => rfl) _ _ _⟩

theorem ecEnc_ending (rd : PReg) (ra : PReg) (rb : PReg) (ks : SReg) (s : State) : ∃ t, exec (.ecEnc rd ra rb ks) s = .next t ∧ Ending (.ecEnc rd ra rb ks) s t := by
  simp only [exec, execEcEnc]
  split
  · exact ⟨_, rfl, ending_fails .illegalCommand (by simp) rfl⟩
  · split
    · exact ⟨_, rfl, ending_fails .notConfigured (by simp) rfl⟩
    · split
      · exact ⟨_, rfl, ending_fails .pointNotOnCurve (by simp) rfl⟩
      · split
        · exact ⟨_, rfl, ending_fails .pointNotOnCurve (by simp) rfl⟩
        · split
          · exact ⟨_, rfl, .notInvertible rfl _⟩
          · exact ⟨_, rfl, ending_registers _ (by simp) (by simp [SameControl]) (by simp [statusOnSuccess]) (by simp; rfl)
              (samePointsBut_writePr₂ rd (rd + 1) _ _ (by simp; rfl) (by simp)) (by simp) (fun _ => by simp [SameCurve]) (fun _ => by simp [SameBase]) (.of_same (by simp [SameDigest]))⟩

theorem ecDec_ending (rd : PReg) (ra : PReg) (rb : PReg) (ks : SReg) (s : State) : ∃ t, exec (.ecDec rd ra rb ks) s = .next t ∧ Ending (.ecDec rd ra rb ks) s t := by
  simp only [exec, execEcDec]
  split
  · exact ⟨_, rfl, ending_fails .notConfigured (by simp) rfl⟩
  · split
    · exact ⟨_, rfl, ending_fails .pointNotOnCurve (by simp) rfl⟩
    · split
      · exact ⟨_, rfl, ending_fails .pointNotOnCurve (by simp) rfl⟩
      · exact ⟨_, rfl, finishPoint_ending rfl rfl (fun _ => rfl) _ _ _⟩

/-- Every command in every state ends in one of the three ways. -/
theorem exec_ending (i : Instr) (s : State) : ∃ t, exec i s = .next t ∧ Ending i s t :=
  match i with
  | .nop => nop_ending s
  | .feiKey len => feiKey_ending len s
  | .feiEnc len => feiEnc_ending len s
  | .feiDec len => feiDec_ending len s
  | .aesKeyexp len => aesKeyexp_ending len s
  | .aesEnc len => aesEnc_ending len s
  | .aesDec len => aesDec_ending len s
  | .aesSb => aesSb_ending s
  | .aesSr => aesSr_ending s
  | .aesMc => aesMc_ending s
  | .aesIsb => aesIsb_ending s
  | .aesIsr => aesIsr_ending s
  | .aesImc => aesImc_ending s
  | .aesArk rnd => aesArk_ending rnd s
  | .sha512Init => sha512Init_ending s
  | .md5Init => md5Init_ending s
  | .hashUpdate len => hashUpdate_ending len s
  | .hashFinal => hashFinal_ending s
  | .ecSetcurve => ecSetcurve_ending s
  | .ecSetbase => ecSetbase_ending s
  | .ecLdpt rd => ecLdpt_ending rd s
  | .ecStpt ra => ecStpt_ending ra s
  | .ecLdk ks => ecLdk_ending ks s
  | .ecOncurve ra => ecOncurve_ending ra s
  | .ecNeg rd ra => ecNeg_ending rd ra s
  | .ecAdd rd ra rb => ecAdd_ending rd ra rb s
  | .ecDbl rd ra => ecDbl_ending rd ra s
  | .ecMul rd ra ks => ecMul_ending rd ra ks s
  | .ecPub rd ks => ecPub_ending rd ks s
  | .ecEnc rd ra rb ks => ecEnc_ending rd ra rb ks s
  | .ecDec rd ra rb ks => ecDec_ending rd ra rb ks s

/-- A command's next state is one of the three endings. -/
theorem Ending.of_exec {i : Instr} {s t : State} (h : exec i s = .next t) : Ending i s t := by
  obtain ⟨u, hu, he⟩ := exec_ending i s
  rw [h] at hu
  injection hu with hu
  exact hu ▸ he

/-- An error code is not the success code. -/
@[simp] theorem ErrorKind.code_ne_zero (e : ErrorKind) : e.code ≠ 0 := by cases e <;> decide

/-- What a command that writes storage once leaves: its completion, its bytes and its frame; `f` is its writes after its
records. -/
theorem stores_spec {s : State} {st : Status} (f : State → State) (r : List (Nat × List Byte)) (lo : Nat)
    (bs : List Byte)
    (hf : ∀ tr, f { s with trace := tr } = { s with trace := tr, mem := Memory.write s.mem lo bs, status := st }) :
    CompletedWith ((f (s.emit r)).complete 0) st ∧ StoredAt ((f (s.emit r)).complete 0) lo bs ∧
    SameStorageOutside lo bs.length s ((f (s.emit r)).complete 0) ∧ SameControl s ((f (s.emit r)).complete 0) ∧
    SameRegisters s ((f (s.emit r)).complete 0) ∧ TraceGrowsBy r s ((f (s.emit r)).complete 0) := by
  rw [State.emit_eq, hf]
  refine ⟨⟨rfl, rfl⟩, storedAt_writeBytes s lo bs, sameStorageOutside_writeBytes s lo bs,
    ⟨rfl, rfl, rfl, rfl, rfl, rfl⟩, sameRegisters_of_fields (by simp), ?_⟩
  exact State.emit_trace s r

/-- What a step command leaves (43_aes_rounds.md R192 to R199). -/
theorem aesStep_next (transform : Block → Block) (s : State) : ∃ t, aesStep transform s = .next t ∧
    CompletedWith t s.status ∧ StoredAt t 0x200 (transform s.aesState).toList ∧ SameStorageOutside 0x200 16 s t ∧
    SameControl s t ∧ SameRegisters s t ∧ TraceGrowsBy [(0, (transform s.aesState).toList)] s t := by
  refine ⟨_, rfl, ?_⟩
  have h := stores_spec (s := s) (fun u => u.writeAesState (transform s.aesState)) [(0, (transform s.aesState).toList)]
    0x200 (transform s.aesState).toList (fun _ => rfl)
  simpa using h

/-- What FEI_ENC and FEI_DEC leave when they succeed (41_feistel.md R134, R135). -/
theorem feistelBlock_next (steps : Byte → Byte → Byte → Byte × Byte × Byte × Byte) (s : State)
    (hk : s.status.feiKv = true) : ∃ t, feistelBlock steps 8 s = .next t ∧
    (let v := steps s.feiK1 s.feiK2 (s.din 0)
     CompletedWith t s.status ∧ StoredAt t 0x180 [v.2.2.2, 0, 0, 0] ∧ SameStorageOutside 0x180 4 s t ∧
     SameControl s t ∧ SameRegisters s t ∧ TraceGrowsBy (Feistel.records v) s t) := by
  refine ⟨_, by simp only [feistelBlock, hk]; rfl, ?_⟩
  exact stores_spec (s := s) (fun u => u.writeDout 0 _) _ 0x180 _ (fun _ => rfl)

/-- A completion that writes nothing leaves everything else. -/
theorem onlyStatusWritten_complete (s : State) (st : Status) (c : Byte) :
    OnlyStatusWritten s (State.complete c { s with status := st }) :=
  ⟨⟨rfl, rfl, rfl, rfl, rfl, rfl⟩, sameRegisters_of_fields (by simp), fun _ => rfl, rfl⟩

/-- What a command that writes one point register leaves. -/
theorem writesPoint_spec (s : State) (r : List (Nat × List Byte)) (rd : PReg) (p : Point) :
    CompletedWith (((s.emit r).writePr rd p).complete 0) s.status ∧
    HoldsPoint (((s.emit r).writePr rd p).complete 0) rd p ∧
    SameRegistersBut [rd] s (((s.emit r).writePr rd p).complete 0) ∧
    SameStorage s (((s.emit r).writePr rd p).complete 0) ∧ SameControl s (((s.emit r).writePr rd p).complete 0) ∧
    TraceGrowsBy r s (((s.emit r).writePr rd p).complete 0) := by
  refine ⟨by simp [CompletedWith], by simp [HoldsPoint], ⟨samePointsBut_writePr rd p (by simp) (by simp), ?_⟩, ?_,
    by simp [SameControl], ?_⟩
  · simp [SameScalars, SameCurve, SameBase, SameDigest]
  · intro a; exact State.stored_congr (by simp) a
  · simpa [TraceGrowsBy] using State.emit_trace s r

end Sys2Proof.Machine
end

