-- ==== Sys2Proof/Laws/Window.lean ====
section
/-! SUPPORT. The window's map as ranges, what a host access does at each register, and everything a step can be. -/

namespace Sys2Proof.Machine

section Regions

variable {off : Nat}

/-- Every offset lies in exactly one register's range (10_state.md R20). The other lemmas of the map read it off here. -/
theorem regionOf_cases (off : Nat) :
    (regionOf off = .id ∧ off < 0x004) ∨ (regionOf off = .ctrl ∧ 0x004 ≤ off ∧ off < 0x008) ∨
    (regionOf off = .status ∧ 0x008 ≤ off ∧ off < 0x00C) ∨ (regionOf off = .cmd ∧ 0x00C ≤ off ∧ off < 0x010) ∨
    (regionOf off = .errcode ∧ 0x010 ≤ off ∧ off < 0x014) ∨ (regionOf off = .din ∧ 0x100 ≤ off ∧ off < 0x180) ∨
    (regionOf off = .dout ∧ 0x180 ≤ off ∧ off < 0x200) ∨ (regionOf off = .aesState ∧ 0x200 ≤ off ∧ off < 0x210) ∨
    (regionOf off = .rk ∧ 0x300 ≤ off ∧ off < 0x3B0) ∨ (regionOf off = .fei ∧ 0x3B0 ≤ off ∧ off < 0x3B4) ∨
    (regionOf off = .reserved ∧ ((0x014 ≤ off ∧ off < 0x100) ∨ (0x210 ≤ off ∧ off < 0x300) ∨ 0x3B4 ≤ off)) := by
  fun_cases regionOf off <;> simp <;> omega

theorem regionOf_id (h : off < 0x004) : regionOf off = .id := by have := regionOf_cases off; grind
theorem regionOf_ctrl (h : 0x004 ≤ off ∧ off < 0x008) : regionOf off = .ctrl := by have := regionOf_cases off; grind
theorem regionOf_status (h : 0x008 ≤ off ∧ off < 0x00C) : regionOf off = .status := by have := regionOf_cases off; grind
theorem regionOf_cmd (h : 0x00C ≤ off ∧ off < 0x010) : regionOf off = .cmd := by have := regionOf_cases off; grind
theorem regionOf_errcode (h : 0x010 ≤ off ∧ off < 0x014) : regionOf off = .errcode := by have := regionOf_cases off; grind
theorem regionOf_din (h : 0x100 ≤ off ∧ off < 0x180) : regionOf off = .din := by have := regionOf_cases off; grind
theorem regionOf_dout (h : 0x180 ≤ off ∧ off < 0x200) : regionOf off = .dout := by have := regionOf_cases off; grind
theorem regionOf_aesState (h : 0x200 ≤ off ∧ off < 0x210) : regionOf off = .aesState := by have := regionOf_cases off; grind
theorem regionOf_rk (h : 0x300 ≤ off ∧ off < 0x3B0) : regionOf off = .rk := by have := regionOf_cases off; grind
theorem regionOf_fei (h : 0x3B0 ≤ off ∧ off < 0x3B4) : regionOf off = .fei := by have := regionOf_cases off; grind
theorem regionOf_reserved (h : (0x014 ≤ off ∧ off < 0x100) ∨ (0x210 ≤ off ∧ off < 0x300) ∨ 0x3B4 ≤ off) :
    regionOf off = .reserved := by have := regionOf_cases off; grind

/-- The bytes of DIN and STATE are storage. -/
theorem isStorage_inputs (h : (0x100 ≤ off ∧ off < 0x180) ∨ (0x200 ≤ off ∧ off < 0x210)) : isStorage off = true := by
  rcases h with h | h
  · simp [isStorage, regionOf_din h]
  · simp [isStorage, regionOf_aesState h]

/-- The bytes commands write are storage. -/
theorem isStorage_destinations (h : (0x180 ≤ off ∧ off < 0x210) ∨ (0x300 ≤ off ∧ off < 0x3B2)) :
    isStorage off = true := by
  by_cases h1 : off < 0x200
  · simp [isStorage, regionOf_dout (off := off) (by omega)]
  by_cases h2 : off < 0x210
  · simp [isStorage, regionOf_aesState (off := off) (by omega)]
  by_cases h3 : off < 0x3B0
  · simp [isStorage, regionOf_rk (off := off) (by omega)]
  · have : off = feiK1Addr ∨ off = feiK2Addr := by simp [feiK1Addr, feiK2Addr]; omega
    simp [isStorage, regionOf_fei (off := off) (by omega), this]

end Regions

/-- An access is answered exactly when it is 32 bits wide, at a multiple of 4, inside the window. -/
theorem accessFault_eq_none {off width : Nat} :
    accessFault off width = none ↔ width = 4 ∧ off % 4 = 0 ∧ off < 0x400 := by
  unfold accessFault windowSize
  split
  · simp; omega
  · split <;> simp <;> omega

/-- Which accesses are bus errors. -/
theorem accessFault_busError {off width : Nat} (h : width ≠ 4 ∨ off % 4 ≠ 0) : accessFault off width = some .busError := by
  simp [accessFault, h]

/-- A host read that is answered. -/
theorem hostRead_next {off width : Nat} {s t : State} :
    hostRead off width s = .next t ↔
      (width = 4 ∧ off % 4 = 0 ∧ off < 0x400) ∧ t = { s with readData := some (s.windowWord off) } := by
  unfold hostRead
  rw [← accessFault_eq_none]
  split
  · simp_all
  · simp_all [eq_comm]

/-- A host write that is answered. -/
theorem hostWrite_next {off width : Nat} {v : Word} {s t : State} :
    hostWrite off width v s = .next t ↔ (width = 4 ∧ off % 4 = 0 ∧ off < 0x400) ∧ t = s.writeWindow off v := by
  unfold hostWrite
  rw [← accessFault_eq_none]
  split
  · simp_all
  · simp_all [eq_comm]

/-- Everything a host write inside the window can be, by the register it hits. -/
theorem writeWindow_cases (s : State) {off : Nat} (v : Word) (h4 : off % 4 = 0) :
    (off = 0x004 ∧ v.getLsbD 31 = true ∧ s.writeWindow off v = s.softReset) ∨
    (off = 0x004 ∧ v.getLsbD 31 = false ∧
      s.writeWindow off v = { s with ctrl := ⟨v.getLsbD 0, v.getLsbD 1 && Config.hasTrace⟩ }) ∨
    (off = 0x008 ∧ s.writeWindow off v = s.writeStatus v) ∨
    (off = 0x00C ∧ s.status.busy = false ∧ s.writeWindow off v = s.issue v) ∨
    (((0x100 ≤ off ∧ off < 0x180) ∨ (0x200 ≤ off ∧ off < 0x210)) ∧ s.status.busy = false ∧
      s.writeWindow off v = s.writeBytes off (bytesOfWord v)) ∨
    ((off = 0x00C ∨ (0x100 ≤ off ∧ off < 0x180) ∨ (0x200 ≤ off ∧ off < 0x210)) ∧ s.status.busy = true ∧
      s.writeWindow off v = s.setOvr) ∨
    ((off = 0x000 ∨ off = 0x010 ∨ (0x014 ≤ off ∧ off < 0x100) ∨ (0x180 ≤ off ∧ off < 0x200) ∨ 0x210 ≤ off) ∧
      s.writeWindow off v = s) := by
  rcases regionOf_cases off with h | h | h | h | h | h | h | h | h | h | h
  · simp [State.writeWindow, h.1]; omega
  · have e : off = 4 := by omega
    subst e
    simp only [State.writeWindow, h.1, State.writeCtrl]
    cases hv : v.getLsbD 31
    · exact .inr (.inl ⟨trivial, rfl, by simp⟩)
    · exact .inl ⟨trivial, rfl, by simp⟩
  · have e : off = 8 := by omega
    subst e
    simp [State.writeWindow, h.1]
  · have e : off = 12 := by omega
    subst e
    cases hb : s.status.busy <;> simp [State.writeWindow, h.1, hb]
  · simp [State.writeWindow, h.1]; omega
  · cases hb : s.status.busy <;> simp [State.writeWindow, h, hb]
  · simp [State.writeWindow, h]
  · cases hb : s.status.busy <;> simp [State.writeWindow, h, hb]
  · simp [State.writeWindow, h]; omega
  · simp [State.writeWindow, h]; omega
  · simp [State.writeWindow, h.1]; omega

/-- Everything the engine's step can be. -/
theorem engineStep_cases {s t : State} (h : engineStep s = .next t) :
    (s.status.busy = false ∧ t = s) ∨
    (s.status.busy = true ∧ (∃ why, decode s.pend = .illegal why) ∧ t = s.tick.complete ErrorKind.illegalCommand.code) ∨
    (s.status.busy = true ∧ ∃ i, decode s.pend = .legal i ∧ exec i s.tick = .next t) := by
  unfold engineStep State.pending at h
  split at h
  · next hb =>
    split at h
    · next i hi => exact .inr (.inr ⟨hb, i, hi, h⟩)
    · next why hi => injection h with h; exact .inr (.inl ⟨hb, ⟨why, hi⟩, h.symm⟩)
  · next hb => injection h with h; exact .inl ⟨by simpa using hb, h.symm⟩

/-- Everything a step can be. -/
theorem step_cases {s t : State} (h : step s = .next t) :
    (s.inputs = [] ∧ engineStep s = .next t) ∨
    (∃ rest, s.inputs = .engineTurn :: rest ∧ engineStep { s with inputs := rest } = .next t) ∨
    (∃ off rest, s.inputs = .read off 4 :: rest ∧ off % 4 = 0 ∧ off < 0x400 ∧
      t = { s with inputs := rest, draws := s.draws + 1,
                   readData := some (({ s with inputs := rest } : State).tick.windowWord off) }) ∨
    (∃ off v rest, s.inputs = .write off 4 v :: rest ∧ off % 4 = 0 ∧ off < 0x400 ∧
      t = (({ s with inputs := rest } : State).tick).writeWindow off v) ∨
    (∃ rest, s.inputs = .hardwareReset :: rest ∧ t = (({ s with inputs := rest } : State).tick).hardwareReset) := by
  unfold step at h
  split at h
  · next hi => exact .inl ⟨hi, h⟩
  · next rest hi => exact .inr (.inl ⟨rest, hi, h⟩)
  · next off width rest hi =>
    obtain ⟨⟨rfl, h4, hl⟩, ht⟩ := hostRead_next.1 h
    exact .inr (.inr (.inl ⟨off, rest, hi, h4, hl, ht⟩))
  · next off width v rest hi =>
    obtain ⟨⟨rfl, h4, hl⟩, ht⟩ := hostWrite_next.1 h
    exact .inr (.inr (.inr (.inl ⟨off, v, rest, hi, h4, hl, ht⟩)))
  · next rest hi => injection h with h; exact .inr (.inr (.inr (.inr ⟨rest, hi, h.symm⟩)))

/-- The four bytes of a word, byte k at bits 8k+7:8k. -/
theorem bytesOfWord_getElem? (v : Word) {k : Nat} (hk : k < 4) :
    (bytesOfWord v)[k]? = some (v.extractLsb' (8 * k) 8) := by
  have : k = 0 ∨ k = 1 ∨ k = 2 ∨ k = 3 := by omega
  rcases this with rfl | rfl | rfl | rfl <;>
    simp [bytesOfWord, natToLe] <;> apply BitVec.eq_of_toNat_eq <;> simp [Nat.shiftRight_eq_div_pow] <;> omega

@[simp] theorem bytesOfWord_length (v : Word) : (bytesOfWord v).length = 4 := by simp [bytesOfWord, natToLe]

/-- Byte k of a word made of four bytes. -/
theorem wordOfBytes_extract (b0 b1 b2 b3 : Byte) :
    (wordOfBytes [b0, b1, b2, b3]).extractLsb' 0 8 = b0 ∧ (wordOfBytes [b0, b1, b2, b3]).extractLsb' 8 8 = b1 ∧
    (wordOfBytes [b0, b1, b2, b3]).extractLsb' 16 8 = b2 ∧ (wordOfBytes [b0, b1, b2, b3]).extractLsb' 24 8 = b3 := by
  have h0 := b0.isLt
  have h1 := b1.isLt
  have h2 := b2.isLt
  have h3 := b3.isLt
  refine ⟨?_, ?_, ?_, ?_⟩ <;> apply BitVec.eq_of_toNat_eq <;>
    simp [wordOfBytes, leToNat, Nat.shiftRight_eq_div_pow] <;> omega

/-- A storage word is four bytes. -/
theorem storageWord_eq (s : State) (off : Nat) :
    s.storageWord off = wordOfBytes [s.byte off, s.byte (off + 1), s.byte (off + 2), s.byte (off + 3)] := rfl

end Sys2Proof.Machine
end

