-- ==== Sys2Proof/Laws/Digest.lean ====
section
/-! SUPPORT. What absorbing does, said once: `Represents` relates the digest registers to the byte stream absorbed since
INIT, `absorb` extends the stream by its byte, and padding is the absorption of a byte list. -/

namespace Sys2Proof.Machine

@[simp] theorem HashAlg.blockSize_pos (alg : HashAlg) : 0 < alg.blockSize := by cases alg <;> decide

theorem HashAlg.blockSize_le (alg : HashAlg) : alg.blockSize ≤ 128 := by cases alg <;> decide

@[simp] theorem k512_length : Config.k512.length = 80 := by decide +kernel

@[simp] theorem t5_length : Config.t5.length = 64 := by decide +kernel

/-- Each hash word takes the sum with its working variable (45_sha512.md R255). -/
@[simp] theorem Sha512.addInto_getElem (h v : Sha512.Words) (i : Nat) (hi : i < 8) :
    (Sha512.addInto h v)[i] = h[i] + v[i] := by simp [Sha512.addInto]

/-- The rounds of one compression (45_sha512.md R255, 46_md5.md R275). -/
def HashAlg.rounds : HashAlg → Nat
  | .sha512 => 80
  | .md5 => 64

/-- H after the first `n` blocks of a stream. -/
def HashAlg.chain (alg : HashAlg) (h0 : Vector Word64 8) (xs : List Byte) (n : Nat) : Vector Word64 8 :=
  (List.range n).foldl (fun h k => (alg.compress h (alg.blockAt xs k)).1) h0

/-- The digest registers hold what absorbing the stream `xs` from H = `h0` and an empty buffer leaves. -/
structure DigestRun.Represents (alg : HashAlg) (h0 : Vector Word64 8) (d : DigestRun) (xs : List Byte) : Prop where
  cnt : d.cnt = xs.length % alg.blockSize
  h : d.h = alg.chain h0 xs (xs.length / alg.blockSize)
  buf : d.buf.toList.take d.cnt = xs.drop (alg.blockSize * (xs.length / alg.blockSize))

namespace DigestRun

variable {alg : HashAlg}

/-- BUFCNT after one byte (44_digest.md R223). -/
theorem absorb_cnt (d : DigestRun) (v : Byte) (h : d.cnt < alg.blockSize) :
    (absorb alg d v).cnt = (d.cnt + 1) % alg.blockSize := by
  unfold absorb
  split
  · next he => simp [he]
  · next hne =>
    have : d.cnt + 1 < alg.blockSize := by omega
    simp [Nat.mod_eq_of_lt this]

/-- BUFCNT stays below the block size (44_digest.md R223). -/
theorem absorb_cnt_lt (d : DigestRun) (v : Byte) (h : d.cnt < alg.blockSize) :
    (absorb alg d v).cnt < alg.blockSize := by
  rw [absorb_cnt d v h]
  exact Nat.mod_lt _ alg.blockSize_pos

/-- BUFCNT after several bytes. -/
theorem absorbAll_cnt (d : DigestRun) (vs : List Byte) (h : d.cnt < alg.blockSize) :
    (absorbAll alg d vs).cnt = (d.cnt + vs.length) % alg.blockSize := by
  unfold absorbAll
  induction vs generalizing d with
  | nil => simp [Nat.mod_eq_of_lt h]
  | cons v vs ih =>
    rw [List.foldl_cons, ih _ (absorb_cnt_lt d v h), absorb_cnt d v h]
    simp [Nat.add_assoc, Nat.add_comm 1]

theorem absorbAll_cnt_lt (d : DigestRun) (vs : List Byte) (h : d.cnt < alg.blockSize) :
    (absorbAll alg d vs).cnt < alg.blockSize := by
  rw [absorbAll_cnt d vs h]
  exact Nat.mod_lt _ alg.blockSize_pos

@[simp] theorem absorbAll_nil (d : DigestRun) : absorbAll alg d [] = d := rfl

theorem absorbAll_cons (d : DigestRun) (v : Byte) (vs : List Byte) :
    absorbAll alg d (v :: vs) = absorbAll alg (absorb alg d v) vs := rfl

theorem absorbAll_append (d : DigestRun) (us vs : List Byte) :
    absorbAll alg d (us ++ vs) = absorbAll alg (absorbAll alg d us) vs := by
  simp [absorbAll]

/-- The zero bytes of the padding: `padZeros` absorbs the fewest that reach the length field's place. -/
theorem padZeros_eq (n : Nat) (d : DigestRun) (h : d.cnt < alg.blockSize)
    (hn : (2 * alg.blockSize - alg.lengthSize - d.cnt) % alg.blockSize ≤ n) :
    padZeros alg n d =
      absorbAll alg d (List.replicate ((2 * alg.blockSize - alg.lengthSize - d.cnt) % alg.blockSize) 0) := by
  induction n generalizing d with
  | zero => simp [padZeros, Nat.le_zero.1 hn]
  | succ n ih =>
    unfold padZeros
    by_cases he : d.cnt = alg.blockSize - alg.lengthSize
    · have h0 : (2 * alg.blockSize - alg.lengthSize - d.cnt) % alg.blockSize = 0 := by
        rw [he]; cases alg <;> rfl
      rw [if_pos he, h0]; rfl
    · rw [if_neg he]
      have hc := absorb_cnt d 0 h
      have hz : (2 * alg.blockSize - alg.lengthSize - d.cnt) % alg.blockSize =
          (2 * alg.blockSize - alg.lengthSize - (absorb alg d 0).cnt) % alg.blockSize + 1 := by
        rw [hc]
        cases alg <;> simp only [HashAlg.blockSize, HashAlg.lengthSize] at * <;> omega
      rw [ih _ (absorb_cnt_lt d 0 h) (by omega), hz, List.replicate_succ, absorbAll_cons]

/-- The length field is 128 bits big-endian, or the low 64 bits little-endian (44_digest.md R226). -/
theorem lengthBytes_md5 (l : BitVec 128) : HashAlg.md5.lengthBytes l = natToLe 8 (l.toNat % 2 ^ 64) := by
  simp only [HashAlg.lengthBytes, natToLe, List.cons.injEq, and_true]
  refine ⟨?_, ?_, ?_, ?_, ?_, ?_, ?_, ?_⟩ <;> apply BitVec.eq_of_toNat_eq <;> simp only [BitVec.toNat_ofNat] <;> omega

/-- `pad()` is the absorption of the padding's bytes (44_digest.md R225, R226). -/
theorem pad_eq (l : BitVec 128) (d : DigestRun) (h : d.cnt < alg.blockSize) :
    pad alg l d = absorbAll alg d (alg.padding d.cnt l) := by
  have hp : alg.padding d.cnt l = [0x80] ++ List.replicate
      ((2 * alg.blockSize - alg.lengthSize - (d.cnt + 1) % alg.blockSize) % alg.blockSize) 0 ++ alg.lengthBytes l := by
    cases alg
    · rfl
    · rw [lengthBytes_md5]; rfl
  unfold pad
  rw [padZeros_eq _ _ (absorb_cnt_lt d _ h) (Nat.mod_lt _ alg.blockSize_pos).le, absorb_cnt d _ h, hp,
    List.append_assoc, absorbAll_append, absorbAll_append]
  rfl

/-- Padding ends with an empty buffer (44_digest.md R225). -/
theorem pad_cnt (l : BitVec 128) (d : DigestRun) (h : d.cnt < alg.blockSize) : (pad alg l d).cnt = 0 := by
  rw [pad_eq l d h, absorbAll_cnt _ _ h]
  cases alg <;> simp [HashAlg.padding, HashAlg.blockSize, HashAlg.lengthSize, natToBe, natToLe] at * <;> omega

/-- A block already complete does not change when the stream grows. -/
theorem blockAt_append (xs ys : List Byte) {k : Nat} (hk : alg.blockSize * (k + 1) ≤ xs.length) :
    alg.blockAt (xs ++ ys) k = alg.blockAt xs k := by
  unfold HashAlg.blockAt
  rw [List.drop_append_of_le_length (by rw [Nat.mul_succ] at hk; omega),
    List.take_append_of_le_length (by rw [List.length_drop, Nat.mul_succ] at *; omega)]

theorem chain_succ (h0 : Vector Word64 8) (xs : List Byte) (n : Nat) :
    alg.chain h0 xs (n + 1) = (alg.compress (alg.chain h0 xs n) (alg.blockAt xs n)).1 := by
  unfold HashAlg.chain
  rw [List.range_succ, List.foldl_append, List.foldl_cons, List.foldl_nil]

/-- H after blocks already complete does not change when the stream grows. -/
theorem chain_append (h0 : Vector Word64 8) (xs ys : List Byte) {n : Nat} (hn : alg.blockSize * n ≤ xs.length) :
    alg.chain h0 (xs ++ ys) n = alg.chain h0 xs n := by
  induction n with
  | zero => simp [HashAlg.chain]
  | succ n ih =>
    have h1 : alg.blockSize * n ≤ xs.length := by rw [Nat.mul_succ] at hn; omega
    rw [chain_succ, chain_succ, ih h1, blockAt_append xs ys hn]

/-- Absorbing a byte extends the stream by it. -/
theorem Represents.absorb {h0 : Vector Word64 8} {d : DigestRun} {xs : List Byte} (r : Represents alg h0 d xs)
    (v : Byte) : Represents alg h0 (absorb alg d v) (xs ++ [v]) := by
  have hpos := alg.blockSize_pos
  have hle := alg.blockSize_le
  have hlt : d.cnt < alg.blockSize := r.cnt ▸ Nat.mod_lt _ hpos
  have hdm := Nat.div_add_mod xs.length alg.blockSize
  have hbuf : (d.buf.setIfInBounds d.cnt v).toList.take (d.cnt + 1) =
      xs.drop (alg.blockSize * (xs.length / alg.blockSize)) ++ [v] := by
    rw [← r.buf]
    have hl : d.cnt < d.buf.toList.length := by simp; omega
    rw [Vector.toList_setIfInBounds, List.take_add_one, List.take_set_of_le (Nat.le_refl _)]
    simp [show d.cnt < 128 by omega]
  unfold DigestRun.absorb
  split
  · next he =>
    have hlen : (xs ++ [v]).length = alg.blockSize * (xs.length / alg.blockSize + 1) := by
      rw [Nat.mul_succ]; simp; have := r.cnt; omega
    have hdiv : (xs ++ [v]).length / alg.blockSize = xs.length / alg.blockSize + 1 := by
      rw [hlen, Nat.mul_div_cancel_left _ hpos]
    refine ⟨by simp only [hlen, Nat.mul_mod_right], ?_, by simp only [List.take_zero, hdiv, ← hlen, List.drop_length]⟩
    simp only [hdiv, chain_succ]
    rw [chain_append h0 xs [v] (by omega), ← r.h]
    have hb : (d.buf.setIfInBounds d.cnt v).toList.take alg.blockSize =
        alg.blockAt (xs ++ [v]) (xs.length / alg.blockSize) := by
      have e : alg.blockAt (xs ++ [v]) (xs.length / alg.blockSize) =
          xs.drop (alg.blockSize * (xs.length / alg.blockSize)) ++ [v] := by
        unfold HashAlg.blockAt
        rw [List.drop_append_of_le_length (by omega)]
        exact List.take_of_length_le (by simp; have := r.cnt; omega)
      rw [e, ← hbuf, he]
    rw [hb]
  · next hne =>
    have h1 : d.cnt + 1 < alg.blockSize := by omega
    have hdiv : (xs ++ [v]).length / alg.blockSize = xs.length / alg.blockSize := by
      have : (xs ++ [v]).length = alg.blockSize * (xs.length / alg.blockSize) + (d.cnt + 1) := by
        simp; have := r.cnt; omega
      rw [this, Nat.mul_add_div hpos, Nat.div_eq_of_lt h1, Nat.add_zero]
    refine ⟨?_, ?_, ?_⟩
    · have := r.cnt
      have h2 : (xs ++ [v]).length = alg.blockSize * (xs.length / alg.blockSize) + (d.cnt + 1) := by simp; omega
      simp only
      rw [h2, Nat.mul_add_mod, Nat.mod_eq_of_lt h1]
    · simp only [hdiv]
      rw [chain_append h0 xs [v] (by omega), ← r.h]
    · simp only [hdiv]
      rw [hbuf, List.drop_append_of_le_length (by omega)]

/-- Absorbing bytes extends the stream by them. -/
theorem Represents.absorbAll {h0 : Vector Word64 8} {d : DigestRun} {xs : List Byte} (r : Represents alg h0 d xs)
    (vs : List Byte) : Represents alg h0 (absorbAll alg d vs) (xs ++ vs) := by
  induction vs generalizing d xs with
  | nil => simpa using r
  | cons v vs ih => simpa [absorbAll_cons] using ih (r.absorb v)

/-- An empty buffer represents the empty stream. -/
theorem Represents.empty (h0 : Vector Word64 8) (buf : Vector Byte 128) (ps : List (List Byte)) :
    Represents alg h0 ⟨h0, buf, 0, ps⟩ [] :=
  ⟨by simp, by simp [HashAlg.chain], by simp⟩

/-- The records a command had before do not change what it absorbs. -/
theorem Represents.payloads {h0 : Vector Word64 8} {d : DigestRun} {xs : List Byte} (r : Represents alg h0 d xs)
    (ps : List (List Byte)) : Represents alg h0 { d with payloads := ps } xs := ⟨r.cnt, r.h, r.buf⟩

end DigestRun

/-- What MD5's compression leaves in H, the last values of A..D left open. -/
theorem Md5.compress_fst (hs : Vector Word64 8) (blk : List Byte) : ∃ v : Md5.Words, (Md5.compress hs blk).1 =
    #v[((Md5.ofHash hs)[0] + v[0]).setWidth 64, ((Md5.ofHash hs)[1] + v[1]).setWidth 64,
       ((Md5.ofHash hs)[2] + v[2]).setWidth 64, ((Md5.ofHash hs)[3] + v[3]).setWidth 64, hs[4], hs[5], hs[6], hs[7]] :=
  ⟨_, rfl⟩

/-- MD5's words stay 32-bit and H[4..7] stay as they are (46_md5.md R275). -/
theorem Md5.compress_words (hs : Vector Word64 8) (blk : List Byte) :
    (∀ i : Fin 8, i.val < 4 → ((Md5.compress hs blk).1[i]).toNat < 2 ^ 32) ∧
    ∀ i : Fin 8, 4 ≤ i.val → (Md5.compress hs blk).1[i] = hs[i] := by
  obtain ⟨v, hv⟩ := Md5.compress_fst hs blk
  rw [hv]
  have hw : ∀ w : Word, (w.setWidth 64).toNat < 2 ^ 32 := fun w => by
    have := w.isLt
    simp only [BitVec.toNat_setWidth]; omega
  constructor
  · intro i hi
    have : i = 0 ∨ i = 1 ∨ i = 2 ∨ i = 3 := by omega
    rcases this with rfl | rfl | rfl | rfl <;> exact hw _
  · intro i hi
    have : i = 4 ∨ i = 5 ∨ i = 6 ∨ i = 7 := by omega
    rcases this with rfl | rfl | rfl | rfl <;> rfl

end Sys2Proof.Machine
end

