-- ==== Sys2Proof/Laws/PerInstr.lean ====
section
/-! SUPPORT. The family Encoding: what every command's word holds outside its operands, per constructor. -/

namespace Sys2Proof.Laws.Encoding

/-- The OP of each command (30_encoding.md R83). -/
def opcode : Instr → Nat
  | .nop => 0x00
  | .feiKey _ => 0x10
  | .feiEnc _ => 0x11
  | .feiDec _ => 0x12
  | .aesKeyexp _ => 0x20
  | .aesEnc _ => 0x21
  | .aesDec _ => 0x22
  | .aesSb => 0x28
  | .aesSr => 0x29
  | .aesMc => 0x2A
  | .aesArk _ => 0x2B
  | .aesIsb => 0x2C
  | .aesIsr => 0x2D
  | .aesImc => 0x2E
  | .sha512Init => 0x30
  | .md5Init => 0x31
  | .hashUpdate _ => 0x32
  | .hashFinal => 0x33
  | .ecSetcurve => 0x40
  | .ecSetbase => 0x41
  | .ecLdpt _ => 0x42
  | .ecStpt _ => 0x43
  | .ecLdk _ => 0x44
  | .ecOncurve _ => 0x45
  | .ecNeg _ _ => 0x46
  | .ecAdd _ _ _ => 0x47
  | .ecDbl _ _ => 0x48
  | .ecMul _ _ _ => 0x49
  | .ecPub _ _ => 0x4A
  | .ecEnc _ _ _ _ => 0x4B
  | .ecDec _ _ _ _ => 0x4C

/-- The word of a command has its OP in bits 7:0, RSV = 0, and OP is a row's of the opcode table (30_encoding.md R81,
R84). -/
def Statement (i : Instr) : Prop :=
  (fields (encode i)).op.val = opcode i ∧ (fields (encode i)).rsv.val = 0 ∧
  opcodeTable.any (fun r => r.bits.toNat % 256 == opcode i) = true

theorem nop : Statement .nop := ⟨by decide, by decide, rfl⟩
theorem feiKey (len : Byte) : Statement (.feiKey len) := by
  have h0 := len.isLt
  refine ⟨?_, ?_, rfl⟩ <;> simp [fields, encode, assemble, opcode] <;> omega
theorem feiEnc (len : Byte) : Statement (.feiEnc len) := by
  have h0 := len.isLt
  refine ⟨?_, ?_, rfl⟩ <;> simp [fields, encode, assemble, opcode] <;> omega
theorem feiDec (len : Byte) : Statement (.feiDec len) := by
  have h0 := len.isLt
  refine ⟨?_, ?_, rfl⟩ <;> simp [fields, encode, assemble, opcode] <;> omega
theorem aesKeyexp (len : Byte) : Statement (.aesKeyexp len) := by
  have h0 := len.isLt
  refine ⟨?_, ?_, rfl⟩ <;> simp [fields, encode, assemble, opcode] <;> omega
theorem aesEnc (len : Byte) : Statement (.aesEnc len) := by
  have h0 := len.isLt
  refine ⟨?_, ?_, rfl⟩ <;> simp [fields, encode, assemble, opcode] <;> omega
theorem aesDec (len : Byte) : Statement (.aesDec len) := by
  have h0 := len.isLt
  refine ⟨?_, ?_, rfl⟩ <;> simp [fields, encode, assemble, opcode] <;> omega
theorem aesSb : Statement .aesSb := ⟨by decide, by decide, rfl⟩
theorem aesSr : Statement .aesSr := ⟨by decide, by decide, rfl⟩
theorem aesMc : Statement .aesMc := ⟨by decide, by decide, rfl⟩
theorem aesArk (rnd : Fin 16) : Statement (.aesArk rnd) := by
  have h0 := rnd.isLt
  refine ⟨?_, ?_, rfl⟩ <;> simp [fields, encode, assemble, opcode] <;> omega
theorem aesIsb : Statement .aesIsb := ⟨by decide, by decide, rfl⟩
theorem aesIsr : Statement .aesIsr := ⟨by decide, by decide, rfl⟩
theorem aesImc : Statement .aesImc := ⟨by decide, by decide, rfl⟩
theorem sha512Init : Statement .sha512Init := ⟨by decide, by decide, rfl⟩
theorem md5Init : Statement .md5Init := ⟨by decide, by decide, rfl⟩
theorem hashUpdate (len : Byte) : Statement (.hashUpdate len) := by
  have h0 := len.isLt
  refine ⟨?_, ?_, rfl⟩ <;> simp [fields, encode, assemble, opcode] <;> omega
theorem hashFinal : Statement .hashFinal := ⟨by decide, by decide, rfl⟩
theorem ecSetcurve : Statement .ecSetcurve := ⟨by decide, by decide, rfl⟩
theorem ecSetbase : Statement .ecSetbase := ⟨by decide, by decide, rfl⟩
theorem ecLdpt (rd : PReg) : Statement (.ecLdpt rd) := by
  have h0 := rd.isLt
  refine ⟨?_, ?_, rfl⟩ <;> simp [fields, encode, assemble, opcode] <;> omega
theorem ecStpt (ra : PReg) : Statement (.ecStpt ra) := by
  have h0 := ra.isLt
  refine ⟨?_, ?_, rfl⟩ <;> simp [fields, encode, assemble, opcode] <;> omega
theorem ecLdk (ks : SReg) : Statement (.ecLdk ks) := by
  have h0 := ks.isLt
  refine ⟨?_, ?_, rfl⟩ <;> simp [fields, encode, assemble, opcode] <;> omega
theorem ecOncurve (ra : PReg) : Statement (.ecOncurve ra) := by
  have h0 := ra.isLt
  refine ⟨?_, ?_, rfl⟩ <;> simp [fields, encode, assemble, opcode] <;> omega
theorem ecNeg (rd : PReg) (ra : PReg) : Statement (.ecNeg rd ra) := by
  have h0 := rd.isLt; have h1 := ra.isLt
  refine ⟨?_, ?_, rfl⟩ <;> simp [fields, encode, assemble, opcode] <;> omega
theorem ecAdd (rd : PReg) (ra : PReg) (rb : PReg) : Statement (.ecAdd rd ra rb) := by
  have h0 := rd.isLt; have h1 := ra.isLt; have h2 := rb.isLt
  refine ⟨?_, ?_, rfl⟩ <;> simp [fields, encode, assemble, opcode] <;> omega
theorem ecDbl (rd : PReg) (ra : PReg) : Statement (.ecDbl rd ra) := by
  have h0 := rd.isLt; have h1 := ra.isLt
  refine ⟨?_, ?_, rfl⟩ <;> simp [fields, encode, assemble, opcode] <;> omega
theorem ecMul (rd : PReg) (ra : PReg) (ks : SReg) : Statement (.ecMul rd ra ks) := by
  have h0 := rd.isLt; have h1 := ra.isLt; have h2 := ks.isLt
  refine ⟨?_, ?_, rfl⟩ <;> simp [fields, encode, assemble, opcode] <;> omega
theorem ecPub (rd : PReg) (ks : SReg) : Statement (.ecPub rd ks) := by
  have h0 := rd.isLt; have h1 := ks.isLt
  refine ⟨?_, ?_, rfl⟩ <;> simp [fields, encode, assemble, opcode] <;> omega
theorem ecEnc (rd : PReg) (ra : PReg) (rb : PReg) (ks : SReg) : Statement (.ecEnc rd ra rb ks) := by
  have h0 := rd.isLt; have h1 := ra.isLt; have h2 := rb.isLt; have h3 := ks.isLt
  refine ⟨?_, ?_, rfl⟩ <;> simp [fields, encode, assemble, opcode] <;> omega
theorem ecDec (rd : PReg) (ra : PReg) (rb : PReg) (ks : SReg) : Statement (.ecDec rd ra rb ks) := by
  have h0 := rd.isLt; have h1 := ra.isLt; have h2 := rb.isLt; have h3 := ks.isLt
  refine ⟨?_, ?_, rfl⟩ <;> simp [fields, encode, assemble, opcode] <;> omega

end Sys2Proof.Laws.Encoding
end

