-- ==== Sys2Proof/Tests/Slice0.lean ====
section
/-! SUPPORT. The model's own tests: the ill-formed terms WellFormed refuses, every command's decoding from a word written
out from the spec, the spec's examples on small states, and a witness for the hypotheses of every obligation. Expected
values are the spec's (30_encoding.md, the commands' rules, 95_test_vectors.md). -/

namespace Sys2Proof.Tests

open Sys2Proof.Machine

set_option Elab.async false

/-! ### WellFormed -/

theorem test_wellFormed_refuses_ark_11 : (Instr.aesArk 11).wellFormed = false := by decide
theorem test_wellFormed_refuses_ark_15 : (Instr.aesArk 15).wellFormed = false := by decide
theorem test_wellFormed_admits_ark_10 : (Instr.aesArk 10).wellFormed = true := by decide
theorem test_wellFormed_refuses_odd_rd : (Instr.ecEnc 5 2 1 2).wellFormed = false := by decide
theorem test_wellFormed_admits_even_rd : (Instr.ecEnc 4 2 1 2).wellFormed = true := by decide

/-! ### Decoding (30_encoding.md R83, R88; 95_test_vectors.md V-ENC) -/

theorem test_decode_nop : decode 0x00000000 = .legal (.nop) := by decide
theorem test_decode_feiKey : decode 0x0A000010 = .legal (.feiKey 10) := by decide
theorem test_decode_feiEnc : decode 0x08000011 = .legal (.feiEnc 8) := by decide
theorem test_decode_feiDec : decode 0x08000012 = .legal (.feiDec 8) := by decide
theorem test_decode_aesKeyexp : decode 0x10000020 = .legal (.aesKeyexp 16) := by decide
theorem test_decode_aesKeyexp_255 : decode 0xFF000020 = .legal (.aesKeyexp 255) := by decide
theorem test_decode_aesEnc : decode 0x10000021 = .legal (.aesEnc 16) := by decide
theorem test_decode_aesDec : decode 0x10000022 = .legal (.aesDec 16) := by decide
theorem test_decode_aesSb : decode 0x00000028 = .legal (.aesSb) := by decide
theorem test_decode_aesSr : decode 0x00000029 = .legal (.aesSr) := by decide
theorem test_decode_aesMc : decode 0x0000002A = .legal (.aesMc) := by decide
theorem test_decode_aesArk : decode 0x0050002B = .legal (.aesArk 5) := by decide
theorem test_decode_aesArk_10 : decode 0x00A0002B = .legal (.aesArk 10) := by decide
theorem test_decode_aesIsb : decode 0x0000002C = .legal (.aesIsb) := by decide
theorem test_decode_aesIsr : decode 0x0000002D = .legal (.aesIsr) := by decide
theorem test_decode_aesImc : decode 0x0000002E = .legal (.aesImc) := by decide
theorem test_decode_sha512Init : decode 0x00000030 = .legal (.sha512Init) := by decide
theorem test_decode_md5Init : decode 0x00000031 = .legal (.md5Init) := by decide
theorem test_decode_hashUpdate : decode 0x81000032 = .legal (.hashUpdate 129) := by decide
theorem test_decode_hashFinal : decode 0x00000033 = .legal (.hashFinal) := by decide
theorem test_decode_ecSetcurve : decode 0x00000040 = .legal (.ecSetcurve) := by decide
theorem test_decode_ecSetbase : decode 0x00000041 = .legal (.ecSetbase) := by decide
theorem test_decode_ecLdpt : decode 0x00000742 = .legal (.ecLdpt 7) := by decide
theorem test_decode_ecStpt : decode 0x00001843 = .legal (.ecStpt 3) := by decide
theorem test_decode_ecLdk : decode 0x00060044 = .legal (.ecLdk 3) := by decide
theorem test_decode_ecOncurve : decode 0x00000845 = .legal (.ecOncurve 1) := by decide
theorem test_decode_ecNeg : decode 0x00000A46 = .legal (.ecNeg 2 1) := by decide
theorem test_decode_ecAdd : decode 0x00008B47 = .legal (.ecAdd 3 1 2) := by decide
theorem test_decode_ecAdd_730 : decode 0x0000C747 = .legal (.ecAdd 7 0 3) := by decide
theorem test_decode_ecDbl : decode 0x00000A48 = .legal (.ecDbl 2 1) := by decide
theorem test_decode_ecMul : decode 0x00000A49 = .legal (.ecMul 2 1 0) := by decide
theorem test_decode_ecPub : decode 0x0002014A = .legal (.ecPub 1 1) := by decide
theorem test_decode_ecEnc : decode 0x0004544B = .legal (.ecEnc 4 2 1 2) := by decide
theorem test_decode_ecDec : decode 0x0003664C = .legal (.ecDec 6 4 5 1) := by decide

theorem test_illegal_nop_rd : decode 0x00000100 = .illegal .unusedFieldSet := by decide
theorem test_illegal_op_01 : decode 0x00000001 = .illegal .unassignedOpcode := by decide
theorem test_illegal_op_2f : decode 0x0000002F = .illegal .unassignedOpcode := by decide
theorem test_illegal_op_4d : decode 0x0000004D = .illegal .unassignedOpcode := by decide
theorem test_illegal_feiEnc_rd : decode 0x08000111 = .illegal .unusedFieldSet := by decide
theorem test_illegal_ark_11 : decode 0x00B0002B = .illegal .fieldOutOfRange := by decide
theorem test_illegal_ark_rsv : decode 0x0008002B = .illegal .unusedFieldSet := by decide
theorem test_illegal_ark_len : decode 0x1000002B = .illegal .unusedFieldSet := by decide
theorem test_illegal_final_len : decode 0x01000033 = .illegal .unusedFieldSet := by decide
theorem test_illegal_ldpt_ra : decode 0x00000842 = .illegal .unusedFieldSet := by decide
theorem test_illegal_stpt_rd : decode 0x00000143 = .illegal .unusedFieldSet := by decide
theorem test_illegal_add_rsv : decode 0x00080047 = .illegal .unusedFieldSet := by decide
theorem test_illegal_enc_odd : decode 0x0004554B = .illegal .unusedFieldSet := by decide
theorem test_illegal_dec_len : decode 0x0100004C = .illegal .unusedFieldSet := by decide

theorem test_encode_ecAdd : encode (.ecAdd 3 1 2) = 0x00008B47 := by decide
theorem test_decodeTableWord_short : decodeTableWord 32 0x0003664C = some (.ecDec 6 4 5 1) := by decide

/-! ### Small states -/

/-- Whether an outcome is a next state with a property. -/
def holds (o : Outcome) (p : State → Bool) : Bool :=
  match o with
  | .next t => p t
  | .fault _ => false
  | .refused _ => false

/-- `reset` with bytes from DIN[0] on. -/
def withDin (bs : List Byte) : State := State.reset.writeBytes 0x100 bs

/-- 32-byte little-endian slots from DIN[0] on. -/
def withSlots (vs : List Nat) : State := withDin (vs.flatMap (natToLe 32))

/-- The bytes 00 01 .. 0f. -/
def ramp : List Byte := (List.range 16).map (BitVec.ofNat 8)

/-- A state whose STATE is 00 01 .. 0f. -/
def rampState : State := State.reset.writeBytes 0x200 ramp

/-- The key 000102030405060708090a0b0c0d0e0f expanded, DIN and STATE zero. -/
def keyed : State :=
  match execAesKeyexp 16 (withDin ramp) with
  | .next t => (t.writeBytes 0x100 (List.replicate 16 0)).writeBytes 0x200 (List.replicate 16 0)
  | .fault _ => State.reset
  | .refused _ => State.reset

/-- The curve (1, 1, 11) with G = (1, 5), n = 14, PR[1] = (1, 5), PR[2] = (3, 3), SK[0] = 13. -/
def onCurve11 : State :=
  ((((State.reset.setCurve 1 1 11).setBase (.affine 1 5) 14).setEcValid true true).writePr 1 (.affine 1 5)).writePr 2
    (.affine 3 3) |>.writeSk 0 13

/-- The curve (1, 1, 2) with G = (0, 1), PR[1] = (0, 1), SK[0] = 2: doubling (0, 1) is not invertible. -/
def onCurve2 : State :=
  (((State.reset.setCurve 1 1 2).setBase (.affine 0 1) 1).setEcValid true true).writePr 1 (.affine 0 1) |>.writeSk 0 2

/-- The curve (1, 1, 15) with G = (0, 1), PR[1] = (0, 1), PR[2] = (4, 3), PR[3] = (0, 4), SK[0] = 2, SK[1] = 1: doubling
(4, 3) and adding (0, 4) and (0, 1) are not invertible. -/
def onCurve15 : State :=
  ((((((State.reset.setCurve 1 1 15).setBase (.affine 0 1) 1).setEcValid true true).writePr 1 (.affine 0 1)).writePr 2
    (.affine 4 3)).writePr 3 (.affine 0 4)).writeSk 0 2 |>.writeSk 1 1

/-! ### The step and the window (95_test_vectors.md V-WIN) -/

theorem test_read_id : holds (hostRead 0x000 4 State.reset) (fun t => t.readData == some 0x434E5337) = true := by decide
theorem test_read_reserved : holds (hostRead 0x3FC 4 State.reset) (fun t => t.readData == some 0) = true := by decide
theorem test_write_din_lanes : holds (hostWrite 0x100 4 0x03020100 State.reset)
    (fun t => t.mem == [(0x100, 0), (0x101, 1), (0x102, 2), (0x103, 3)]) = true := by decide
theorem test_write_dout_ignored : holds (hostWrite 0x180 4 0x12345678 State.reset) (fun t => t == State.reset) = true := by
  decide +kernel
theorem test_misaligned_read : hostRead 0x102 4 State.reset = .fault .busError := rfl
theorem test_byte_write : hostWrite 0x100 1 0 State.reset = .fault .busError := rfl
theorem test_outside_window : hostRead 0x400 4 State.reset = .fault .outsideWindow := rfl
theorem test_w1c : holds (hostWrite 0x008 4 0x00000008
    { State.reset with errcode := 0x11, status := { State.reset.status with done := true, ovr := true } })
    (fun t => t.statusWord == 0x00000006) = true := by decide
theorem test_w1c_keeps_aes_kv : holds (hostWrite 0x008 4 0xFFFFFFFF
    { State.reset with status := { State.reset.status with done := true, aesKv := true } })
    (fun t => t.statusWord == 0x00000010) = true := by decide
theorem test_irq_at_once : holds (hostWrite 0x004 4 0x00000001
    { State.reset with status := { State.reset.status with done := true } }) (fun t => t.irq) = true := by decide
theorem test_busy_din_write : holds (hostWrite 0x100 4 0x000000FF (State.reset.issue 0x10000021))
    (fun t => t.status.ovr && t.mem == []) = true := by decide
theorem test_step_runs_issued_nop : holds (step (State.reset.withFetchWord 32 0x00000000))
    (fun t => t.statusWord == 0x00000002) = true := by decide
theorem test_step_runs_illegal : holds (step (State.reset.withFetchWord 32 0x000000FF))
    (fun t => t.errcode == 0x10 && t.err) = true := by decide
/-- HASH_FINAL does not write MSGLEN (44_digest.md R225, R227), so abandoning it keeps MSGLEN. -/
theorem test_soft_reset_abandons_final : holds (hostWrite 0x004 4 0x80000000 (({ State.reset with msgLen := 24 }).issue
    0x00000033)) (fun t => t.msgLen == 24 && !t.status.busy) = true := by decide +kernel
theorem test_soft_reset_abandons : holds (hostWrite 0x004 4 0x80000001 (rampState.issue 0x00000028))
    (fun t => t.mem == [] && t.statusWord == 0 && t.ctrlWord == 0 && t.cmd == 0) = true := by decide +kernel
theorem test_idle_step : holds (step State.reset) (fun t => t == State.reset) = true := by decide +kernel

/-! ### Feistel (41_feistel.md R133 to R136; 95_test_vectors.md V-FEI) -/

theorem test_feiKey : holds (execFeiKey 10 (withDin [0x82, 0xFE])) (fun t => t.stored 0x3B0 == some 0xA4 &&
    t.stored 0x3B1 == some 0x43 && t.status.feiKv) = true := by decide
theorem test_feiKey_len_9 : holds (execFeiKey 9 (State.reset.setFeiKv true)) (fun t => t.errcode == 0x01 &&
    !t.status.feiKv) = true := by decide
theorem test_feiEnc_records : Feistel.records (Feistel.encSteps 0xA4 0x43 0x97) =
    [(1, [0x5D]), (2, [0xDA]), (3, [0x2A]), (4, [0x38])] := by decide
theorem test_feiEnc : holds (execFeiEnc 8 ((withDin [0x97]).setFeiKv true |>.writeBytes 0x3B0 [0xA4, 0x43]))
    (fun t => t.windowWord 0x180 == 0x00000038) = true := by decide
theorem test_feiEnc_not_configured : holds (execFeiEnc 16 State.reset) (fun t => t.errcode == 0x11) = true := by decide
theorem test_feiDec : holds (execFeiDec 8 ((withDin [0x0F]).setFeiKv true |>.writeBytes 0x3B0 [0x5F, 0xFC]))
    (fun t => t.stored 0x180 == some 0x72) = true := by decide
theorem test_feiDec_len_7 : holds (execFeiDec 7 (State.reset.setFeiKv true)) (fun t => t.errcode == 0x02) = true := by
  decide

/-! ### AES (42_aes_key_expansion.md R160, R161; 43_aes_rounds.md R182 to R200; 95_test_vectors.md V-AES) -/

theorem test_gmul : Aes.gmul 0x57 0x83 = 0xC1 ∧ Aes.gmul 0xFF 0xFF = 0x13 ∧ Aes.gmul 0x53 0xCA = 0x01 := by decide
theorem test_keyexp_last_record : (Aes.keyRecords (Aes.schedule (withDin ramp).dinBlock)).getLast? = some (10,
    [0x13, 0x11, 0x1d, 0x7f, 0xe3, 0x94, 0x4a, 0x17, 0xf3, 0x07, 0xa7, 0x8b, 0x4d, 0x2b, 0x30, 0xc5]) := by
  decide +kernel
theorem test_keyexp_len_15 : holds (execAesKeyexp 15 (State.reset.setAesKv true)) (fun t => t.errcode == 0x01 &&
    !t.status.aesKv) = true := by decide
theorem test_aesEnc_zero_block : holds (execAesEnc 16 keyed) (fun t => t.bytes 0x180 16 ==
    [0xc6, 0xa1, 0x3b, 0x37, 0x87, 0x8f, 0x5b, 0x82, 0x6f, 0x4f, 0x81, 0x62, 0xa1, 0xc8, 0xd8, 0x79]) = true := by
  decide +kernel
theorem test_aesEnc_not_configured : holds (execAesEnc 8 State.reset) (fun t => t.errcode == 0x11) = true := by decide
theorem test_aesDec : holds (execAesDec 16 (keyed.writeBytes 0x100
    [0x69, 0xc4, 0xe0, 0xd8, 0x6a, 0x7b, 0x04, 0x30, 0xd8, 0xcd, 0xb7, 0x80, 0x70, 0xb4, 0xc5, 0x5a]))
    (fun t => t.bytes 0x200 16 ==
      [0x00, 0x11, 0x22, 0x33, 0x44, 0x55, 0x66, 0x77, 0x88, 0x99, 0xaa, 0xbb, 0xcc, 0xdd, 0xee, 0xff]) = true := by
  decide +kernel
theorem test_aesSb : holds (execAesSb rampState) (fun t => t.bytes 0x200 16 ==
    [0x63, 0x7c, 0x77, 0x7b, 0xf2, 0x6b, 0x6f, 0xc5, 0x30, 0x01, 0x67, 0x2b, 0xfe, 0xd7, 0xab, 0x76]) = true := by
  decide +kernel
theorem test_aesSr : holds (execAesSr rampState) (fun t => t.bytes 0x200 16 ==
    [0x00, 0x05, 0x0a, 0x0f, 0x04, 0x09, 0x0e, 0x03, 0x08, 0x0d, 0x02, 0x07, 0x0c, 0x01, 0x06, 0x0b]) = true := by
  decide +kernel
theorem test_aesMc : holds (execAesMc rampState) (fun t => t.bytes 0x200 16 ==
    [0x02, 0x07, 0x00, 0x05, 0x06, 0x03, 0x04, 0x01, 0x0a, 0x0f, 0x08, 0x0d, 0x0e, 0x0b, 0x0c, 0x09]) = true := by
  decide +kernel
theorem test_aesArk_10 : holds (execAesArk 10 keyed) (fun t => t.bytes 0x200 16 ==
    [0x13, 0x11, 0x1d, 0x7f, 0xe3, 0x94, 0x4a, 0x17, 0xf3, 0x07, 0xa7, 0x8b, 0x4d, 0x2b, 0x30, 0xc5]) = true := by
  decide +kernel
theorem test_aesArk_not_configured : holds (execAesArk 0 State.reset) (fun t => t.errcode == 0x11) = true := by decide
theorem test_aesIsb : holds (execAesIsb rampState) (fun t => t.bytes 0x200 16 ==
    [0x52, 0x09, 0x6a, 0xd5, 0x30, 0x36, 0xa5, 0x38, 0xbf, 0x40, 0xa3, 0x9e, 0x81, 0xf3, 0xd7, 0xfb]) = true := by
  decide +kernel
theorem test_aesIsr : holds (execAesIsr rampState) (fun t => t.bytes 0x200 16 ==
    [0x00, 0x0d, 0x0a, 0x07, 0x04, 0x01, 0x0e, 0x0b, 0x08, 0x05, 0x02, 0x0f, 0x0c, 0x09, 0x06, 0x03]) = true := by
  decide +kernel
theorem test_aesImc : holds (execAesImc rampState) (fun t => t.bytes 0x200 16 ==
    [0x0a, 0x0f, 0x08, 0x0d, 0x0e, 0x0b, 0x0c, 0x09, 0x02, 0x07, 0x00, 0x05, 0x06, 0x03, 0x04, 0x01]) = true := by
  decide +kernel

/-! ### Digest (44_digest.md R221 to R231; 45_sha512.md R256; 46_md5.md R276) -/

/-- A digest command's outcome, passed on to the next command. -/
def abc (init : Instr) : Outcome :=
  andThen (andThen (exec init State.reset) (updateAll [[0x61, 0x62, 0x63]])) execHashFinal

/-- The first eighty primes, those below 410, by trial division (45_sha512.md R252). -/
def smallPrimes : List Nat := (List.range 410).filter fun n => 2 ≤ n && (List.range' 2 19).all fun d => n ≤ d || n % d != 0

/-- R252's derivation of the table: K512[i] is the first 64 bits of the fractional part of the i-th prime's cube root. -/
theorem test_k512_is_cube_roots : smallPrimes.length = Config.k512.length ∧
    ((smallPrimes.zip Config.k512).all fun pk => (List.range 8).any fun c =>
      let root := c * 2 ^ 64 + pk.2.toNat
      root ^ 3 ≤ pk.1 * 2 ^ 192 && pk.1 * 2 ^ 192 < (root + 1) ^ 3) = true := by decide +kernel

/-- Words at the ends of T, and one inside a line (46_md5.md R272). -/
theorem test_t5_words : Config.t5.length = 64 ∧ Config.t5[0]? = some 0xd76aa478 ∧ Config.t5[13]? = some 0xfd987193 ∧
    Config.t5[63]? = some 0xeb86d391 := by decide +kernel

theorem test_sha512Init : holds (execSha512Init State.reset) (fun t => t.statusWord == 0x00000102 &&
    t.h[0] == 0x6a09e667f3bcc908) = true := by decide +kernel
theorem test_md5Init : holds (execMd5Init State.reset) (fun t => t.statusWord == 0x00000302 &&
    t.h[3] == 0x10325476 && t.h[4] == 0) = true := by decide +kernel
theorem test_hashUpdate_abc : holds (andThen (execSha512Init (withDin [0x61, 0x62, 0x63])) (execHashUpdate 3))
    (fun t => t.bufCnt == 3 && t.msgLen == 24) = true := by decide +kernel
theorem test_hashUpdate_129 : holds (andThen (execMd5Init State.reset) (execHashUpdate 129))
    (fun t => t.errcode == 0x02 && t.status.hashAct) = true := by decide +kernel
theorem test_hashFinal_not_configured : holds (execHashFinal State.reset) (fun t => t.errcode == 0x11) = true := by
  decide
theorem test_md5_abc : holds (abc .md5Init) (fun t => t.bytes 0x180 16 ==
    [0x90, 0x01, 0x50, 0x98, 0x3c, 0xd2, 0x4f, 0xb0, 0xd6, 0x96, 0x3f, 0x7d, 0x28, 0xe1, 0x7f, 0x72]) = true := by
  decide +kernel
theorem test_sha512_abc : holds (abc .sha512Init) (fun t => t.bytes 0x180 8 ==
    [0xdd, 0xaf, 0x35, 0xa1, 0x93, 0x61, 0x7a, 0xba] && t.bytes 0x1BC 4 == [0xa5, 0x4c, 0xa4, 0x9f] &&
    !t.status.hashAct) = true := by decide +kernel

/-! ### Elliptic curve (47_ec.md R292 to R324) -/

theorem test_inverse : Ec.inverse 3 11 = some 4 ∧ Ec.inverse 10 11 = some 10 ∧ Ec.inverse 7 15 = some 13 ∧
    Ec.inverse 0 11 = none ∧ Ec.inverse 5 15 = none := by decide +kernel
theorem test_scalarMultiply_iterations : (Ec.scalarMultiply ⟨1, 1, 11⟩ (.affine 1 5) 13).1 =
    [(.affine 1 5, .affine 3 3), (.affine 1 5, .affine 6 5), (.affine 4 6, .affine 0 1), (.affine 1 6, .affine 0 1)] := by
  decide +kernel
theorem test_ecSetcurve : holds (execEcSetcurve (withSlots [12, 1, 11])) (fun t => t.ecA == 1 && t.ecB == 1 &&
    t.ecP == 11 && t.statusWord == 0x00000042) = true := by decide +kernel
theorem test_ecSetcurve_singular : holds (execEcSetcurve (withSlots [8, 2, 11])) (fun t => t.errcode == 0x05 &&
    !t.status.ecCv && t.ecP == 0) = true := by decide +kernel
theorem test_ecSetbase_off_curve : holds (execEcSetbase ((onCurve11).writeBytes 0x100
    ([1, 4, 14].flatMap (natToLe 32)))) (fun t => t.errcode == 0x04 && !t.status.ecGv && t.ecN == 14) = true := by
  decide +kernel
theorem test_ecSetbase : holds (execEcSetbase ((onCurve11).writeBytes 0x100 ([4, 5, 7].flatMap (natToLe 32))))
    (fun t => t.ecG == .affine 4 5 && t.ecN == 7 && t.status.ecGv) = true := by decide +kernel
theorem test_ecLdpt_infinity : holds (execEcLdpt 1 ((onCurve11).writeBytes 0x100 (natToLe 32 7 ++ natToLe 32 9 ++
    [0xFF]))) (fun t => t.readPr 1 == .infinity) = true := by decide +kernel
theorem test_ecLdk : holds (execEcLdk 2 (withSlots [3])) (fun t => t.readSk 2 == 3) = true := by decide +kernel
theorem test_ecStpt : holds (execEcStpt 1 onCurve11) (fun t => t.stored 0x180 == some 1 && t.stored 0x1A0 == some 5 &&
    t.windowWord 0x1C0 == 0) = true := by decide +kernel
theorem test_ecOncurve : holds (execEcOncurve 1 (onCurve11.writePr 1 (.affine 1 4))) (fun t =>
    t.windowWord 0x180 == 0 && t.errcode == 0) = true := by decide +kernel
theorem test_ecNeg : holds (execEcNeg 2 1 onCurve11) (fun t => t.readPr 2 == .affine 1 6) = true := by decide +kernel
theorem test_ecAdd : holds (execEcAdd 1 1 2 onCurve11) (fun t => t.readPr 1 == .affine 8 2) = true := by decide +kernel
theorem test_ecDbl : holds (execEcDbl 2 1 onCurve11) (fun t => t.readPr 2 == .affine 3 3) = true := by decide +kernel
theorem test_ecDbl_not_invertible : holds (execEcDbl 1 1 onCurve2) (fun t => t.errcode == 0x06 &&
    t.readPr 1 == .affine 0 1) = true := by decide +kernel
theorem test_ecMul : holds (execEcMul 2 1 0 onCurve11) (fun t => t.readPr 2 == .affine 1 6) = true := by decide +kernel
theorem test_ecPub : holds (execEcPub 1 1 (onCurve11.writeSk 1 3)) (fun t => t.readPr 1 == .affine 8 2) = true := by
  decide +kernel
theorem test_ecEnc : holds (execEcEnc 4 2 1 2 (((onCurve11.writePr 2 (.affine 4 5)).writePr 1 (.affine 8 2)).writeSk 2 5))
    (fun t => t.readPr 4 == .affine 4 6 && t.readPr 5 == .affine 6 6) = true := by decide +kernel
theorem test_ecDec : holds (execEcDec 6 4 5 1 (((onCurve11.writePr 4 (.affine 4 6)).writePr 5 (.affine 6 6)).writeSk 1 3))
    (fun t => t.readPr 6 == .affine 4 5) = true := by decide +kernel

/-! ### Witnesses: for each obligation with hypotheses, values that meet them, one for each clause, at its boundaries -/

/-- An outcome that holds a Boolean property is a next state with it. -/
theorem next_of_holds {o : Outcome} {p : State → Bool} (h : holds o p = true) : ∃ t, o = .next t ∧ p t = true := by
  cases o with
  | next t => exact ⟨t, rfl, h⟩
  | fault _ => cases h
  | refused _ => cases h

/-- `reset` with inputs to come. -/
def withInputs (ins : List HostInput) : State := { State.reset with inputs := ins }

/-- A busy engine: the word is pending. -/
def busyWith (w : Word) : State := State.reset.issue w

/-- `reset` with every validity flag set, RK and the subkeys written. -/
def allConfigured : State :=
  { onCurve11.writeBytes 0x300 (List.replicate 178 0) with status := ⟨false, false, false, true, true, true, true, true, .sha512⟩ }

theorem inv_busyWith : (busyWith 0x4D).Inv where
  storage := by decide
  busyNotDone := by decide
  cmdIsPend := by decide
  code := by decide
  traceEn h := by cases h
  aes h := by cases h
  fei h := by cases h
  curve h := by cases h
  base h := by cases h
  count h := by cases h
  wholeBytes h := by cases h
  md5 h := by cases h

theorem inv_onCurve11 : onCurve11.Inv where
  storage := by decide
  busyNotDone h := by cases h
  cmdIsPend := by decide
  code := by decide
  traceEn h := by cases h
  aes h := by cases h
  fei h := by cases h
  curve _ := by unfold State.curveValid; decide +kernel
  base _ := by decide +kernel
  count h := by cases h
  wholeBytes h := by cases h
  md5 h := by cases h

theorem inv_onCurve2 : onCurve2.Inv where
  storage := by decide
  busyNotDone h := by cases h
  cmdIsPend := by decide
  code := by decide
  traceEn h := by cases h
  aes h := by cases h
  fei h := by cases h
  curve _ := by unfold State.curveValid; decide +kernel
  base _ := by decide +kernel
  count h := by cases h
  wholeBytes h := by cases h
  md5 h := by cases h

theorem witness_DecodeEncodeRoundTrip : (Instr.ecEnc 6 7 7 3).wellFormed = true ∧ (Instr.aesArk 10).wellFormed = true ∧
    (Instr.ecDec 7 7 7 3).wellFormed = true ∧ (Instr.hashUpdate 255).wellFormed = true := by decide
theorem witness_LegalWordIsTheEncoding : decode 0x0007FF4C = .legal (.ecDec 7 7 7 3) := by decide
theorem witness_DecoderIsTheOpcodeTable :
    (∃ r ∈ opcodeTable, r.selects 0x00B0002B = true ∧ r.mnemonic = "AES_ARK" ∧
      10 < ((0x00B0002B : Word).extractLsb' 20 4).toNat) ∧
    (∃ r ∈ opcodeTable, r.selects 0x00A0002B = true ∧
      ¬ (r.mnemonic = "AES_ARK" ∧ 10 < ((0x00A0002B : Word).extractLsb' 20 4).toNat)) ∧
    ∀ r ∈ opcodeTable, r.selects 0x0000004D = false := by decide
theorem witness_IllegalWordsCompleteWithIllegalCommand : (busyWith 0x4D).status.busy = true ∧
    decode (busyWith 0x4D).pend = .illegal .unassignedOpcode ∧ (busyWith 0x100).status.busy = true ∧
    decode (busyWith 0x100).pend = .illegal .unusedFieldSet ∧ (busyWith 0x00B0002B).status.busy = true ∧
    decode (busyWith 0x00B0002B).pend = .illegal .fieldOutOfRange := by decide
theorem witness_StepRunsThePendingCommand : (busyWith 0x0A000010).status.busy = true ∧
    decode (busyWith 0x0A000010).pend = .legal (.feiKey 10) ∧ (busyWith 0x0A000010).inputs = [] ∧
    (State.reset.withFetchWord 32 0x0A000010).status.busy = true ∧
    decode (State.reset.withFetchWord 32 0x0A000010).pend = .legal (.feiKey 10) ∧
    (State.reset.withFetchWord 32 0x0A000010).inputs = [.engineTurn] := by decide
theorem witness_IdleEngineRests : State.reset.status.busy = false ∧ State.reset.inputs = [] ∧
    (withInputs [.engineTurn]).status.busy = false ∧ (withInputs [.engineTurn]).inputs = [.engineTurn] := by decide
theorem witness_IssueLatchesTheWord :
    (withInputs [.write 0x00C 4 7]).inputs = [.write 0x00C 4 7] ∧ (withInputs [.write 0x00C 4 7]).status.busy = false ∧
    ((withInputs [.write 0x00C 4 7]).issue 0).inputs = [.write 0x00C 4 7] ∧
    ((withInputs [.write 0x00C 4 7]).issue 0).status.busy = true := by decide
theorem witness_UndefinedAccessIsABusError : ((2 : Nat) ≠ 4 ∨ (0x100 : Nat) % 4 ≠ 0) ∧ ((4 : Nat) ≠ 4 ∨ (0x3FD : Nat) % 4 ≠ 0) ∧
    (0x3FC : Nat) % 4 = 0 ∧ (0x3FC : Nat) < 0x400 := by decide
/-- The offsets of the first clause of WritesWhileBusy at the ends of its ranges. -/
theorem witness_WritesWhileBusy : (busyWith 0).status.busy = true ∧
    (∀ off ∈ [0x00C, 0x100, 0x17C, 0x200, 0x20C], off % 4 = 0 ∧ off < 0x400 ∧
      (off = 0x00C ∨ (0x100 ≤ off ∧ off < 0x180) ∨ (0x200 ≤ off ∧ off < 0x210))) ∧
    (0x7FFFFFFF : Word).getLsbD 31 = false ∧ (0x80000000 : Word).getLsbD 31 = true ∧
    (∀ off ∈ [0x000, 0x010, 0x014, 0x0FC, 0x180, 0x1FC, 0x210, 0x3FC], off % 4 = 0 ∧ off < 0x400 ∧
      (off = 0x000 ∨ off = 0x010 ∨ (0x014 ≤ off ∧ off < 0x100) ∨ (0x180 ≤ off ∧ off < 0x200) ∨
        (0x210 ≤ off ∧ off < 0x400))) := by decide
theorem witness_ReadOnlyWritesIgnored : ∀ off ∈ [0x000, 0x010, 0x014, 0x0FC, 0x180, 0x1FC, 0x210, 0x3FC], off % 4 = 0 ∧
    (off = 0x000 ∨ off = 0x010 ∨ (0x014 ≤ off ∧ off < 0x100) ∨ (0x180 ≤ off ∧ off < 0x200) ∨
      (0x210 ≤ off ∧ off < 0x400)) := by decide
theorem witness_WrittenWordReadsBack : State.reset.status.busy = false ∧ ∀ off ∈ [0x100, 0x17C, 0x200, 0x20C],
    off % 4 = 0 ∧ ((0x100 ≤ off ∧ off < 0x180) ∨ (0x200 ≤ off ∧ off < 0x210)) := by decide
/-- Busy and idle states, and the ends of every clause's range of offsets. -/
theorem witness_HostReadReturnsTheRegister : State.reset.status.busy = false ∧ (busyWith 0).status.busy = true ∧
    (∀ off ∈ [0x000, 0x004, 0x008, 0x00C, 0x010, 0x3B0], off % 4 = 0 ∧ off < 0x400) ∧
    (∀ off ∈ [0x014, 0x0FC, 0x210, 0x2FC, 0x3B4, 0x3FC], off % 4 = 0 ∧ off < 0x400 ∧
      ((0x014 ≤ off ∧ off < 0x100) ∨ (0x210 ≤ off ∧ off < 0x300) ∨ 0x3B4 ≤ off)) ∧
    (∀ off ∈ [0x100, 0x17C], off % 4 = 0 ∧ 0x100 ≤ off ∧ off < 0x180) ∧
    (∀ off ∈ [0x180, 0x1FC, 0x200, 0x20C, 0x300, 0x3AC], off % 4 = 0 ∧ off < 0x400 ∧
      ((0x180 ≤ off ∧ off < 0x210) ∨ (0x300 ≤ off ∧ off < 0x3B0))) := by decide
theorem witness_HostWritesReachOnlyTheirRegisters :
    (∃ t, hostWrite 0x20C 4 0xFFFFFFFF State.reset = .next t) ∧ ¬ ((0x20C : Nat) = 0x004 ∧ (0xFFFFFFFF : Word).getLsbD 31 = true) ∧
    (∃ t, hostWrite 0x004 4 0x7FFFFFFF State.reset = .next t) ∧ ¬ ((0x004 : Nat) = 0x004 ∧ (0x7FFFFFFF : Word).getLsbD 31 = true) :=
  ⟨⟨_, rfl⟩, by decide, ⟨_, rfl⟩, by decide⟩

/-- A failure with no record, and one in the middle of a computation. -/
theorem witness_FailureWritesNothingElse :
    (State.reset.Inv ∧ ∃ t, exec (.feiKey 9) State.reset = .next t ∧ (t.errcode != 0 &&
      t.errcode != ErrorKind.nonInvertible.code) = true) ∧
    onCurve2.Inv ∧ ∃ t, exec (.ecDbl 1 1) onCurve2 = .next t ∧ (t.errcode == 0x06) = true := by
  refine ⟨⟨?_, next_of_holds (by decide)⟩, inv_onCurve2, next_of_holds (by decide +kernel)⟩
  exact ⟨by decide, by decide, by decide, by decide, nofun, nofun, nofun, nofun, nofun, nofun, nofun, nofun⟩
theorem witness_CommandsWriteOnlyTheirDestinations : (∃ t, exec (.ecEnc 6 2 1 0) onCurve11 = .next t ∧ (t.errcode == 0) = true) ∧
    (∃ t, exec .hashFinal { State.reset with status := { State.reset.status with hashAct := true } } = .next t ∧
      (t.errcode == 0) = true) ∧
    (∀ a ∈ [0x100, 0x17F], 0x100 ≤ a ∧ a < 0x180) :=
  ⟨next_of_holds (by decide +kernel), next_of_holds (by decide +kernel), by decide⟩
/-- Each rank of the priority, the words' own among them. -/
theorem witness_ReportedErrorFollowsThePriority :
    ((busyWith 0x4D).status.busy = true ∧ decode (busyWith 0x4D).pend = .illegal .unassignedOpcode) ∧
    ((Instr.aesEnc 8).wellFormed = true ∧ notConfigured State.reset (.aesEnc 8) = true) ∧
    (notConfigured State.reset (.feiKey 9) = false ∧ lengthError (.feiKey 9) = some .invalidKeyLength) ∧
    ((Instr.ecEnc 0 3 1 0).wellFormed = true ∧ notConfigured (onCurve11.writePr 3 (.affine 1 4)) (.ecEnc 0 3 1 0) = false ∧
      lengthError (.ecEnc 0 3 1 0) = none ∧
      OperandError (onCurve11.writePr 3 (.affine 1 4)) .pointNotOnCurve (.ecEnc 0 3 1 0)) ∧
    (notConfigured onCurve2 (.ecDbl 1 1) = false ∧ lengthError (.ecDbl 1 1) = none ∧
      ∀ e, ¬ OperandError onCurve2 e (.ecDbl 1 1)) := by
  refine ⟨by decide, by decide, by decide, ⟨by decide, by decide, by decide, rfl, .inl (by decide +kernel)⟩, by decide,
    by decide, fun e h => ?_⟩
  have hc : Ec.onCurve onCurve2.curve (onCurve2.readPr 1) = true := by decide +kernel
  rw [OperandError, hc] at h
  exact absurd h.2 (by decide)
theorem witness_InterruptFollowsDone : (∃ t, exec .nop { State.reset with ctrl := ⟨true, false⟩ } = .next t ∧ t.irq = true) ∧
    (2 : Word).getLsbD 1 = true ∧ State.reset.status.busy = false ∧ (2 : Word).getLsbD 0 = false :=
  ⟨next_of_holds (by decide), by decide, by decide, by decide⟩
/-- A completion with no input left and one at an engine's turn, and each of the four ways DONE is cleared. -/
theorem witness_DoneChangesOnlyByTheRules :
    (∃ t, step (State.reset.withFetchWord 32 0) = .next t ∧ (!(State.reset.withFetchWord 32 0).status.done &&
      t.status.done) = true) ∧
    (busyWith 0x4D).status.busy = true ∧ (busyWith 0x4D).inputs = [] ∧ (∃ t, step (busyWith 0x4D) = .next t) ∧
    (∃ t, step { busyWith 0x4D with inputs := [.engineTurn] } = .next t ∧ t.status.done = true) ∧
    (∀ inp ∈ [HostInput.write 0x008 4 2, .write 0x00C 4 0, .write 0x004 4 0x80000000, .hardwareReset],
      holds (step { withInputs [inp] with status := { State.reset.status with done := true } })
        (fun t => !t.status.done) = true) :=
  ⟨next_of_holds (by decide), by decide, rfl, ⟨_, rfl⟩, next_of_holds (by decide), by decide +kernel⟩
theorem witness_NothingDependsOnTheTrace : ∃ t, exec (.ecMul 2 1 0) onCurve11 = .next t ∧ (t.errcode == 0) = true :=
  next_of_holds (by decide +kernel)
/-- A busy state, and a state with a curve and a base point, and a step of each. -/
theorem witness_StepKeepsTheInvariant : ((busyWith 0x4D).Inv ∧ ∃ t, step (busyWith 0x4D) = .next t) ∧
    (onCurve11.Inv ∧ ∃ t, step onCurve11 = .next t) :=
  ⟨⟨inv_busyWith, _, rfl⟩, inv_onCurve11, _, rfl⟩
theorem witness_HardwareResetState : (withInputs [.hardwareReset]).inputs = [.hardwareReset] := rfl
/-- An idle engine, a busy one with an illegal word, and a busy one with a command that writes two points. -/
theorem witness_SoftResetState : (0x80000000 : Word).getLsbD 31 = true ∧ State.reset.status.busy = false ∧
    decode (busyWith 0x4D).pend = .illegal .unassignedOpcode ∧ (busyWith 0x0004544B).status.busy = true ∧
    decode (busyWith 0x0004544B).pend = .legal (.ecEnc 4 2 1 2) ∧ (5 : PReg) ∈ destinationPoints (.ecEnc 4 2 1 2) ∧
    decode (busyWith 0x00060044).pend = .legal (.ecLdk 3) ∧ (3 : SReg) ∈ destinationScalars (.ecLdk 3) ∧
    (decode (busyWith 0x00000033).pend = .legal .hashFinal ∧ (0x180, 64) ∈ destinationBytes .hashFinal) := by decide
theorem witness_AfterResetCommandsNeedConstruction : State.reset.softReset = State.reset.softReset ∧
    (Instr.feiEnc 8).wellFormed = true ∧ decode 0x08000011 = .legal (.feiEnc 8) ∧ needsNoConstruction (.feiEnc 8) = false ∧
    Instr.nop.wellFormed = true ∧ decode 0 = .legal .nop ∧ needsNoConstruction .nop = true := by
  exact ⟨rfl, by decide⟩
theorem witness_NopOnlyCompletes : (0x00000100 : Word).extractLsb' 0 8 = 0 ∧ (0x00000100 : Word) ≠ 0 := by decide
theorem witness_FeiKeyStoresTheSchedule : (9 : Byte) ≠ 10 ∧ (11 : Byte) ≠ 10 := by decide
theorem witness_FeiBlockCommands : State.reset.status.feiKv = false ∧ allConfigured.status.feiKv = true ∧ (7 : Byte) ≠ 8 ∧
    (9 : Byte) ≠ 8 := by decide +kernel
theorem witness_AesKeyexpStoresTheSchedule : (15 : Byte) ≠ 16 ∧ (17 : Byte) ≠ 16 ∧
    (∀ i ∈ [4, 5, 40, 43], 4 ≤ i ∧ i < 44) ∧ (15 : Nat) < 16 := by decide +kernel
theorem witness_AesBlockCommands : State.reset.status.aesKv = false ∧ allConfigured.status.aesKv = true ∧ (15 : Byte) ≠ 16 ∧
    (17 : Byte) ≠ 16 := by decide +kernel
theorem witness_AesByteSteps : ∀ i ∈ [Instr.aesSb, .aesIsb], ∃ g : Byte → Byte,
    (i = .aesSb ∧ g = Aes.sbox) ∨ (i = .aesIsb ∧ g = Aes.invSbox) := by simp
theorem witness_AesRowSteps : (∀ i ∈ [Instr.aesSr, .aesIsr], ∃ source : Nat → Nat → Nat,
    (i = .aesSr ∧ source = fun r c => (c + r) % 4) ∨ (i = .aesIsr ∧ source = fun r c => (c + 4 - r) % 4)) ∧
    (3 : Nat) < 4 := by simp
theorem witness_AesColumnSteps : (∀ i ∈ [Instr.aesMc, .aesImc], ∃ m : List (List Byte),
    (i = .aesMc ∧ m = [[2, 3, 1, 1], [1, 2, 3, 1], [1, 1, 2, 3], [3, 1, 1, 2]]) ∨
    (i = .aesImc ∧ m = [[0x0e, 0x0b, 0x0d, 0x09], [0x09, 0x0e, 0x0b, 0x0d], [0x0d, 0x09, 0x0e, 0x0b],
      [0x0b, 0x0d, 0x09, 0x0e]])) ∧ (3 : Nat) < 4 := by simp
/-- A round past the last, the last round without a key, and the last round with one. -/
theorem witness_AesArkAddsTheRoundKey : 10 < (11 : Fin 16).val ∧ (10 : Fin 16).val ≤ 10 ∧ State.reset.status.aesKv = false ∧
    allConfigured.status.aesKv = true := by decide +kernel
theorem witness_Sha512CompressFollowsTheRounds : (List.replicate 128 (0 : Byte)).length = 128 := List.length_replicate
theorem witness_Md5CompressFollowsTheSteps : (List.replicate 64 (0 : Byte)).length = 64 := List.length_replicate
theorem witness_HashUpdateAbsorbsDin : State.reset.status.hashAct = false ∧ allConfigured.status.hashAct = true ∧
    128 < (129 : Byte).toNat ∧ (128 : Byte).toNat ≤ 128 ∧ (0 : Byte).toNat ≤ 128 := by decide +kernel
/-- BUFCNT at its largest for either algorithm. -/
theorem witness_HashFinalWritesTheDigest : State.reset.status.hashAct = false ∧ allConfigured.status.hashAct = true ∧
    ({ allConfigured with bufCnt := 127 } : State).bufCnt < allConfigured.status.hashAlg.blockSize ∧
    63 < HashAlg.md5.blockSize ∧ ({ allConfigured.status with hashAlg := .md5 } : Status).hashAlg = .md5 := by decide +kernel
theorem witness_DigestOfASplitMessage : ∀ m ∈ [[], List.replicate 128 (0x61 : Byte), [1]], m.length ≤ 128 := by decide +kernel
theorem witness_InverseIsTheModularInverse : (2 ≤ 11 ∧ 11 < 2 ^ 256 ∧ Nat.Coprime ((3 : Int) % 11).toNat 11) ∧
    (15 < 2 ^ 256 ∧ ¬ Nat.Coprime ((5 : Int) % 15).toNat 15) ∧ (Nat.Coprime ((-1 : Int) % 2).toNat 2) := by decide

theorem overPrime_exampleCurve : exampleCurve.overPrime :=
  ⟨by decide +kernel, by decide, by decide, by decide, by decide, by unfold singular; decide⟩
theorem onCurve_exampleBase : Ec.onCurve exampleCurve exampleBase = true := by decide +kernel
theorem witness_PrimeCurveArithmeticIsClosed : exampleCurve.overPrime ∧ Ec.onCurve exampleCurve exampleBase = true ∧
    Ec.onCurve exampleCurve .infinity = true := ⟨overPrime_exampleCurve, onCurve_exampleBase, by decide +kernel⟩
theorem witness_GroupLawsOfThePrimeCurve : exampleCurve.overPrime ∧ Ec.onCurve exampleCurve (.affine 2 0) = true :=
  ⟨overPrime_exampleCurve, by decide +kernel⟩
theorem witness_ElGamalRoundTrip : Ec.onCurve exampleCurve (.affine 8 9) = true ∧ Ec.onCurve exampleCurve .infinity = true := by
  decide +kernel
/-- p = 1, a zero discriminant, and the smallest modulus accepted. -/
theorem witness_EcSetcurveSetsTheCurve :
    singular ((withSlots [1, 1, 1]).slot 0) ((withSlots [1, 1, 1]).slot 1) ((withSlots [1, 1, 1]).slot 2) ∧
    singular ((withSlots [8, 2, 11]).slot 0) ((withSlots [8, 2, 11]).slot 1) ((withSlots [8, 2, 11]).slot 2) ∧
    ¬ singular ((withSlots [1, 1, 2]).slot 0) ((withSlots [1, 1, 2]).slot 1) ((withSlots [1, 1, 2]).slot 2) := by
  unfold singular; decide +kernel
theorem witness_EcSetbaseSetsTheBase : State.reset.status.ecCv = false ∧ onCurve11.status.ecCv = true ∧
    (let s := onCurve11.writeBytes 0x100 ([1, 4, 14].flatMap (natToLe 32))
     s.status.ecCv = true ∧ (1 : Word256).toNat = s.slot 0 ∧ (4 : Word256).toNat = s.slot 1 ∧
       Ec.onCurve s.curve (.affine 1 4) = false) ∧
    (let s := onCurve11.writeBytes 0x100 ([1, 5, 14].flatMap (natToLe 32))
     s.status.ecCv = true ∧ (1 : Word256).toNat = s.slot 0 ∧ (5 : Word256).toNat = s.slot 1 ∧
       Ec.onCurve s.curve (.affine 1 5) = true) := by decide +kernel
theorem witness_EcLoads : ((State.reset.writeBytes 0x140 [0xFF]).byte 0x140).getLsbD 0 = true ∧
    ((State.reset.writeBytes 0x140 [0xFE]).byte 0x140).getLsbD 0 = false ∧ (0 : SReg) ≠ 3 := by decide
theorem witness_EcStptStoresThePoint : (State.reset.writePr 7 .infinity).readPr 7 = .infinity ∧
    onCurve11.readPr 1 = .affine 1 5 := by decide +kernel
theorem witness_EcOncurveAnswersInDout : State.reset.status.ecCv = false ∧ onCurve11.status.ecCv = true := by decide
/-- The formulas' cases: the smallest and the largest modulus; a doubling of y = 0, of an invertible 2y and of another; an
addition of opposite points, of equal ones, of two with an invertible difference and of two with another. Then each command
with a result, and a doubling that is not invertible. -/
theorem witness_EcNegAddDbl :
    ((2 ≤ (⟨1, 1, 2⟩ : Curve).p ∧ (⟨1, 1, 2⟩ : Curve).p < 2 ^ 256) ∧
      2 ≤ (⟨0, 0, 2 ^ 256 - 1⟩ : Curve).p ∧ (⟨0, 0, 2 ^ 256 - 1⟩ : Curve).p < 2 ^ 256) ∧
    (Ec.double exampleCurve (.affine 2 0) = some .infinity ∧ Ec.inverse (2 * 5) 11 = some 10 ∧
      Ec.inverse (2 * 1) 2 = none) ∧
    ((5 + 6) % 11 = 0 ∧ (5 + 5) % 11 ≠ 0 ∧ Ec.inverse (3 - 1) 11 = some 6 ∧ (1 + 4) % 15 ≠ 0 ∧
      Ec.inverse (0 - 0) 15 = none ∧ Ec.inverse (4 - 1) 15 = none) ∧
    (onCurve11.status.ecCv = true ∧ Ec.onCurve onCurve11.curve (onCurve11.readPr 1) = true ∧
      Ec.onCurve onCurve11.curve (onCurve11.readPr 2) = true ∧
      Ec.add onCurve11.curve (onCurve11.readPr 1) (onCurve11.readPr 2) = some (.affine 8 2) ∧
      Ec.double onCurve11.curve (onCurve11.readPr 1) = some (.affine 3 3)) ∧
    (onCurve2.status.ecCv = true ∧ Ec.onCurve onCurve2.curve (onCurve2.readPr 1) = true ∧
      Ec.double onCurve2.curve (onCurve2.readPr 1) = none) := by decide +kernel
theorem witness_EcMulPub :
    (onCurve11.status.ecCv = true ∧ onCurve11.status.ecGv = true ∧ onCurve11.ecG = .affine 1 5 ∧
      Ec.onCurve onCurve11.curve (onCurve11.readPr 1) = true ∧
      (Ec.scalarMultiply onCurve11.curve (onCurve11.readPr 1) (onCurve11.readSk 0)).2 = some (.affine 1 6)) ∧
    (onCurve2.status.ecCv = true ∧ onCurve2.status.ecGv = true ∧
      Ec.onCurve onCurve2.curve (onCurve2.readPr 1) = true ∧
      (Ec.scalarMultiply onCurve2.curve (onCurve2.readPr 1) (onCurve2.readSk 0)).2 = none) := by decide +kernel
/-- A result, and a failure in k·G, in k·Pu and in the sum. -/
theorem witness_EcEncWritesBothPoints : (7 : PReg).val % 2 = 1 ∧ (6 : PReg).val % 2 = 0 ∧
    (onCurve11.status.ecCv = true ∧ onCurve11.status.ecGv = true ∧
      Ec.onCurve onCurve11.curve (onCurve11.readPr 2) = true ∧ Ec.onCurve onCurve11.curve (onCurve11.readPr 1) = true ∧
      (ecEncrypt onCurve11.curve onCurve11.ecG (onCurve11.readPr 2) (onCurve11.readPr 1) (onCurve11.readSk 0)).2 =
        some (.affine 1 6, .affine 1 5)) ∧
    (onCurve2.status.ecCv = true ∧ onCurve2.status.ecGv = true ∧ Ec.onCurve onCurve2.curve (onCurve2.readPr 1) = true ∧
      (Ec.scalarMultiply onCurve2.curve onCurve2.ecG (onCurve2.readSk 0)).2 = none) ∧
    (onCurve15.status.ecCv = true ∧ onCurve15.status.ecGv = true ∧
      ∀ i ∈ [(1 : PReg), 2, 3], Ec.onCurve onCurve15.curve (onCurve15.readPr i) = true) ∧
    ((Ec.scalarMultiply onCurve15.curve onCurve15.ecG (onCurve15.readSk 0)).2.isSome = true ∧
      (Ec.scalarMultiply onCurve15.curve (onCurve15.readPr 2) (onCurve15.readSk 0)).2 = none) ∧
    ((Ec.scalarMultiply onCurve15.curve onCurve15.ecG (onCurve15.readSk 1)).2 = some (.affine 0 1) ∧
      (Ec.scalarMultiply onCurve15.curve (onCurve15.readPr 1) (onCurve15.readSk 1)).2 = some (.affine 0 1) ∧
      Ec.add onCurve15.curve (onCurve15.readPr 3) (.affine 0 1) = none) := by decide +kernel
theorem witness_EcDecWritesThePoint :
    (onCurve11.status.ecCv = true ∧ Ec.onCurve onCurve11.curve (onCurve11.readPr 1) = true ∧
      Ec.onCurve onCurve11.curve (onCurve11.readPr 2) = true ∧
      (Ec.scalarMultiply onCurve11.curve (onCurve11.readPr 1) (onCurve11.readSk 0)).2 = some (.affine 1 6) ∧
      Ec.add onCurve11.curve (onCurve11.readPr 2) (Ec.neg onCurve11.curve (.affine 1 6)) = some (.affine 8 2)) ∧
    (onCurve2.status.ecCv = true ∧ Ec.onCurve onCurve2.curve (onCurve2.readPr 1) = true ∧
      (Ec.scalarMultiply onCurve2.curve (onCurve2.readPr 1) (onCurve2.readSk 0)).2 = none) := by decide +kernel
theorem witness_ArithmeticResultsAreReduced : onCurve11.Inv ∧ mayBeNonInvertible (.ecEnc 6 2 1 0) = true ∧
    (∃ t, exec (.ecEnc 6 2 1 0) onCurve11 = .next t ∧ (t.errcode == 0) = true) ∧ (7 : PReg) ∈ destinationPoints (.ecEnc 6 2 1 0) :=
  ⟨inv_onCurve11, rfl, next_of_holds (by decide +kernel), by decide⟩

end Sys2Proof.Tests
end

section
/-! SUPPORT. What a command leaves unchanged, read off `Ending` once: its frame, its completion and the flags of the units
it does not construct. -/

namespace Sys2Proof.Machine

section Endings

variable {i : Instr} {s t : State}

/-- Where in the window a destination can lie: in RK for AES_KEYEXP, in the subkeys for FEI_KEY, and in DOUT or STATE for
every other command (10_state.md R27 to R31). -/
theorem inDestination_cases {a : Nat} (h : InDestination i a) :
    (0x180 ≤ a ∧ a < 0x210) ∨ ((∃ len, i = .aesKeyexp len) ∧ 0x300 ≤ a ∧ a < 0x3B0) ∨
    ((∃ len, i = .feiKey len) ∧ 0x3B0 ≤ a ∧ a < 0x3B2) := by
  obtain ⟨r, hr, h1, h2⟩ := h
  cases i with
  | aesKeyexp len =>
    obtain rfl := List.mem_singleton.1 hr
    exact .inr (.inl ⟨⟨len, rfl⟩, h1, h2⟩)
  | feiKey len =>
    obtain rfl := List.mem_singleton.1 hr
    exact .inr (.inr ⟨⟨len, rfl⟩, h1, h2⟩)
  | _ => left; grind [destinationBytes]

/-- Every ending writes only the command's destinations. -/
theorem Ending.sameButDestinations (h : Ending i s t) : SameButDestinations i s t := by
  cases h with
  | fails e he => exact .of_storage (fun _ _ => rfl) (sameRegisters_of_fields (by simp))
  | notInvertible hi r => exact .of_storage (fun a _ => State.stored_congr (by simp) a) (sameRegisters_of_fields (by simp))
  | succeeds u r hc hd hs ht => exact hd

/-- Every ending is a completion with a code that can be written (40_command_cycle.md R104). -/
theorem Ending.completes (h : Ending i s t) :
    t.status.busy = false ∧ t.status.done = true ∧ t.errcode ∈ legalCodes ∧ SameControl s t := by
  cases h with
  | fails e he =>
    refine ⟨rfl, rfl, ?_, by simp [SameControl]⟩
    cases e <;> simp [ErrorKind.code, legalCodes] at he ⊢
  | notInvertible hi r => exact ⟨rfl, rfl, by simp [ErrorKind.code, legalCodes], by simp [SameControl]⟩
  | succeeds u r hc hd hs ht => exact ⟨rfl, rfl, by simp [legalCodes], hc⟩

/-- The flags of every unit the command does not construct are the same (10_state.md R23). -/
structure SameFlagsBut (i : Instr) (st st' : Status) : Prop where
  aes : (∀ len, i ≠ .aesKeyexp len) → st'.aesKv = st.aesKv
  fei : (∀ len, i ≠ .feiKey len) → st'.feiKv = st.feiKv
  curve : i ≠ .ecSetcurve → st'.ecCv = st.ecCv
  base : i ≠ .ecSetcurve → i ≠ .ecSetbase → st'.ecGv = st.ecGv
  digest : isDigestCommand i = false → st'.hashAct = st.hashAct ∧ st'.hashAlg = st.hashAlg

theorem SameFlagsBut.refl (i : Instr) (st : Status) : SameFlagsBut i st st :=
  ⟨fun _ => rfl, fun _ => rfl, fun _ => rfl, fun _ _ => rfl, fun _ => ⟨rfl, rfl⟩⟩

theorem sameFlagsBut_statusOnSuccess (st : Status) (i : Instr) : SameFlagsBut i st (statusOnSuccess st i) := by
  cases i with
  | feiKey | aesKeyexp | sha512Init | md5Init | hashFinal | ecSetcurve | ecSetbase =>
    constructor <;> simp [statusOnSuccess, isDigestCommand]
  | _ => exact .refl _ st

theorem sameFlagsBut_statusOnFailure (st : Status) (e : ErrorKind) (i : Instr) :
    SameFlagsBut i st (statusOnFailure st e i) := by
  cases i with
  | feiKey | aesKeyexp | ecSetcurve => constructor <;> simp [statusOnFailure]
  | ecSetbase =>
    simp only [statusOnFailure]
    split
    · exact .refl _ st
    · constructor <;> simp
  | _ => exact .refl _ st

/-- Completion changes BUSY and DONE only, so an ending's flags are those of its rule. -/
theorem Ending.sameFlags (h : Ending i s t) : SameFlagsBut i s.status t.status := by
  cases h with
  | fails e he => exact { sameFlagsBut_statusOnFailure s.status e i with }
  | notInvertible hi r => constructor <;> simp
  | succeeds u r hc hd hs ht =>
    have hf := hs ▸ sameFlagsBut_statusOnSuccess s.status i
    exact { hf with }

end Endings

/-- Settles O18: every ending keeps all but the destinations, and no destination lies in DIN. -/
theorem commandsWriteOnlyTheirDestinations : Obligations.CommandsWriteOnlyTheirDestinations := by
  intro i s t h
  have hd := (Ending.of_exec h).sameButDestinations
  refine ⟨hd, fun a h1 h2 => hd.1 a fun ha => ?_⟩
  have := inDestination_cases ha
  omega

end Sys2Proof.Machine
end

section
/-! SUPPORT. The invariant unit by unit: `State.Inv` is window storage in canonical form, a control part, and one part for
the key units, the elliptic-curve unit and the digest unit. -/

namespace Sys2Proof.Machine

/-- The control registers' part of `State.Inv`. -/
structure ControlInv (s : State) : Prop where
  busyNotDone : s.status.busy = true → s.status.done = false
  cmdIsPend : s.cmd = s.pend
  code : s.errcode ∈ legalCodes
  traceEn : s.ctrl.traceEn = true → Config.hasTrace = true

/-- The key units' part of `State.Inv`: RK and the subkeys have been written when their flags say so. -/
structure KeyInv (s : State) : Prop where
  aes : s.status.aesKv = true → s.scheduleStored
  fei : s.status.feiKv = true → (s.stored feiK1Addr).isSome = true ∧ (s.stored feiK2Addr).isSome = true

/-- The elliptic-curve unit's part of `State.Inv`. -/
structure CurveInv (s : State) : Prop where
  curve : s.status.ecCv = true → s.curveValid
  base : s.status.ecGv = true → s.status.ecCv = true ∧ Ec.onCurve s.curve s.ecG = true

/-- The digest unit's part of `State.Inv`. -/
structure DigestInv (s : State) : Prop where
  count : s.status.hashAct = true → s.bufCnt = s.msgLen.toNat / 8 % s.status.hashAlg.blockSize
  wholeBytes : s.status.hashAct = true → s.msgLen.toNat % 8 = 0
  md5 : s.status.hashAct = true → s.status.hashAlg = .md5 → s.md5Words

namespace State.Inv

variable {s t : State}

theorem control (h : s.Inv) : ControlInv s := ⟨h.busyNotDone, h.cmdIsPend, h.code, h.traceEn⟩
theorem keys (h : s.Inv) : KeyInv s := ⟨h.aes, h.fei⟩
theorem curveUnit (h : s.Inv) : CurveInv s := ⟨h.curve, h.base⟩
theorem digest (h : s.Inv) : DigestInv s := ⟨h.count, h.wholeBytes, h.md5⟩

/-- The parts make the invariant. -/
theorem of_units (hm : Memory.wf s.mem) (hc : ControlInv s) (hk : KeyInv s) (he : CurveInv s) (hd : DigestInv s) :
    s.Inv :=
  { hc, hk, he, hd with storage := hm }

end State.Inv

/-! ### What a part of the invariant depends on -/

section Frames

variable {s t : State}

/-- RK's part depends on its flag and its bytes alone. -/
theorem KeyInv.aes_of_same (h : KeyInv s) (hf : t.status.aesKv = s.status.aesKv)
    (hm : ∀ a, 0x300 ≤ a → a < 0x3B0 → t.stored a = s.stored a) : t.status.aesKv = true → t.scheduleStored := by
  intro hv j hj
  rw [hm _ (by simp [rkBase]) (by simp [rkBase]; omega)]
  exact h.aes (hf ▸ hv) j hj

/-- The subkeys' part depends on their flag and their bytes alone. -/
theorem KeyInv.fei_of_same (h : KeyInv s) (hf : t.status.feiKv = s.status.feiKv)
    (hm : ∀ a, 0x3B0 ≤ a → a < 0x3B2 → t.stored a = s.stored a) : t.status.feiKv = true →
    (t.stored feiK1Addr).isSome = true ∧ (t.stored feiK2Addr).isSome = true := by
  intro hv
  rw [hm feiK1Addr (by decide) (by decide), hm feiK2Addr (by decide) (by decide)]
  exact h.fei (hf ▸ hv)

/-- The curve in force depends on EC_A, EC_B and EC_P alone (47_ec.md R294). -/
theorem SameCurve.curve_eq (h : SameCurve s t) : t.curve = s.curve := by
  obtain ⟨ha, hb, hp⟩ := h
  simp [State.curve, ha, hb, hp]

/-- The curve's part depends on its flag and its registers alone. -/
theorem CurveInv.curve_of_same (h : CurveInv s) (hf : t.status.ecCv = s.status.ecCv) (hc : SameCurve s t) :
    t.status.ecCv = true → t.curveValid := by
  intro hv
  unfold State.curveValid
  rw [hc.curve_eq]
  exact h.curve (hf ▸ hv)

/-- The base point's part depends on the unit's flags and registers alone. -/
theorem CurveInv.base_of_same (h : CurveInv s) (hf : t.status.ecCv = s.status.ecCv)
    (hg : t.status.ecGv = s.status.ecGv) (hc : SameCurve s t) (hb : SameBase s t) :
    t.status.ecGv = true → t.status.ecCv = true ∧ Ec.onCurve t.curve t.ecG = true := by
  intro hv
  rw [hf, hc.curve_eq, hb.1]
  exact h.base (hg ▸ hv)

/-- The digest unit's part depends on its flags and registers alone. -/
theorem DigestInv.of_same (h : DigestInv s)
    (hf : t.status.hashAct = s.status.hashAct ∧ t.status.hashAlg = s.status.hashAlg) (hd : SameDigest s t) :
    DigestInv t := by
  obtain ⟨hact, halg⟩ := hf
  obtain ⟨hh, -, hcnt, hlen⟩ := hd
  refine ⟨fun hv => ?_, fun hv => ?_, fun hv ha => ?_⟩
  · rw [hcnt, hlen, halg]; exact h.count (hact ▸ hv)
  · rw [hlen]; exact h.wholeBytes (hact ▸ hv)
  · unfold State.md5Words
    rw [hh]
    exact h.md5 (hact ▸ hv) (halg ▸ ha)

/-- Without a computation in progress the digest unit's part says nothing. -/
theorem DigestInv.of_inactive (h : s.status.hashAct = false) : DigestInv s := by
  constructor <;> simp [h]

end Frames

end Sys2Proof.Machine
end

section
/-! SUPPORT. Every command keeps window storage in its canonical form. -/

namespace Sys2Proof.Machine

/-- Every next state's window storage is in canonical form. -/
def Canonical (o : Outcome) : Prop := ∀ t, o = .next t → Memory.wf t.mem

theorem Canonical.next {t : State} (h : Memory.wf t.mem) : Canonical (.next t) := by
  intro u hu
  injection hu with hu
  exact hu ▸ h

theorem Canonical.ite {c : Prop} [Decidable c] {o p : Outcome} (ho : Canonical o) (hp : Canonical p) :
    Canonical (if c then o else p) := by
  split
  · exact ho
  · exact hp

/-- A write of bytes commands can write keeps the canonical form. -/
theorem Memory.wf_write_destination {m : Memory} {lo : Nat} {bs : List Byte} (hm : wf m)
    (h : (0x180 ≤ lo ∧ lo + bs.length ≤ 0x210) ∨ (0x300 ≤ lo ∧ lo + bs.length ≤ 0x3B2)) : wf (write m lo bs) :=
  wf_write hm fun j hj => isStorage_destinations (by omega)

/-- A digest is at most 64 bytes (44_digest.md R227). -/
theorem HashAlg.digest_length_le (alg : HashAlg) (h : Vector Word64 8) : (alg.digest h).length ≤ 64 := by
  cases alg <;> simp [HashAlg.digest, Sha512.digest, Md5.digest, natToBe, natToLe]

/-- A point's byte form is 65 bytes (47_ec.md R313). -/
@[simp] theorem Ec.pointBytes_length (p : Point) : (Ec.pointBytes p).length = 65 := by
  cases p <;> simp [Ec.pointBytes, natToLe]

/-- The end of a point command writes no window storage. -/
@[simp] theorem State.finishPoint_mem (s : State) (rd : PReg) (r : List (Nat × List Byte)) (p : Option Point) :
    (s.finishPoint rd r p).mem = s.mem := by
  cases p <;> simp

section Commands

variable {s : State} (hm : Memory.wf s.mem)
include hm

theorem feistelBlock_canonical (steps : Byte → Byte → Byte → Byte × Byte × Byte × Byte) (len : Byte) :
    Canonical (feistelBlock steps len s) := by
  refine .ite (.next hm) (.ite (.next hm) (.next ?_))
  simpa using Memory.wf_write_destination hm (by simp [doutBase])

theorem aesStep_canonical (transform : Block → Block) : Canonical (aesStep transform s) := by
  refine .next ?_
  simpa using Memory.wf_write_destination hm (by simp [stateBase])

theorem aesBlock_canonical (states : (Nat → Block) → Block → List Block) (len : Byte) :
    Canonical (aesBlock states len s) := by
  refine .ite (.next hm) (.ite (.next hm) (.next ?_))
  have h1 := Memory.wf_write_destination (lo := stateBase)
    (bs := ((states s.roundKey s.dinBlock).getLastD s.dinBlock).toList) hm (by simp [stateBase])
  simpa using Memory.wf_write_destination h1 (by simp [doutBase])

theorem finishPoint_canonical {rd : PReg} {r : List (Nat × List Byte)} {p : Option Point} :
    Canonical (.next (s.finishPoint rd r p)) :=
  .next (by simpa using hm)

/-- Every command keeps the canonical form. -/
theorem exec_canonical (i : Instr) : Canonical (exec i s) := by
  cases i with
  | nop | sha512Init | md5Init | ecLdpt | ecLdk => exact .next hm
  | feiKey len =>
    refine .ite (.next hm) (.next ?_)
    simpa using Memory.wf_write_destination hm (by simp [feiK1Addr])
  | feiEnc len | feiDec len => exact feistelBlock_canonical hm _ len
  | aesKeyexp len =>
    refine .ite (.next hm) (.next ?_)
    have hl := Aes.scheduleBytes_length s.dinBlock
    simpa using Memory.wf_write_destination hm (by simp [rkBase, hl])
  | aesEnc len | aesDec len => exact aesBlock_canonical hm _ len
  | aesSb | aesSr | aesMc | aesIsb | aesIsr | aesImc => exact aesStep_canonical hm _
  | aesArk rnd => exact .ite (.next hm) (.ite (.next hm) (aesStep_canonical hm _))
  | hashUpdate len => exact .ite (.next hm) (.ite (.next hm) (.next (by simpa using hm)))
  | hashFinal =>
    refine .ite (.next hm) (.next ?_)
    have hl := s.status.hashAlg.digest_length_le (s.digestRun.pad s.status.hashAlg s.msgLen).h
    simpa using Memory.wf_write_destination hm (by simp [doutBase]; omega)
  | ecSetcurve => exact .next (by split <;> simpa using hm)
  | ecSetbase =>
    simp only [exec, execEcSetbase]
    exact .ite (.next hm) (.ite (.next hm) (.next (by simpa using hm)))
  | ecStpt ra => exact .next (Memory.wf_write_destination hm (by simp [doutBase]))
  | ecOncurve ra => exact .ite (.next hm) (.next (Memory.wf_write_destination hm (by simp [doutBase])))
  | ecNeg rd ra | ecDbl rd ra | ecMul rd ra ks =>
    exact .ite (.next hm) (.ite (.next hm) (finishPoint_canonical hm))
  | ecPub rd ks => exact .ite (.next hm) (finishPoint_canonical hm)
  | ecAdd rd ra rb | ecDec rd ra rb ks =>
    exact .ite (.next hm) (.ite (.next hm) (.ite (.next hm) (finishPoint_canonical hm)))
  | ecEnc rd ra rb ks =>
    refine .ite (.next hm) (.ite (.next hm) (.ite (.next hm) (.ite (.next hm) ?_)))
    dsimp only
    split <;> exact .next (by simpa using hm)

end Commands

end Sys2Proof.Machine
end

section
/-! SUPPORT. Every command keeps each part of the invariant: the commands that construct a unit establish its part, and
every other command leaves what the part speaks of unchanged. -/

namespace Sys2Proof.Machine

/-! ### The key units -/

/-- A byte inside a write has been written. -/
theorem State.stored_writeBytes_isSome (s : State) {a x : Nat} {bs : List Byte} (h : a ≤ x ∧ x < a + bs.length) :
    ((s.writeBytes a bs).stored x).isSome = true := by
  rw [stored_writeBytes, if_pos h]
  simp; omega

section Commands

variable {i : Instr} {s t : State}

/-- AES_KEYEXP sets AES_KV only with all of RK written (42_aes_key_expansion.md R160). -/
theorem aesKeyexp_scheduleStored {len : Byte} (h : exec (.aesKeyexp len) s = .next t) (hv : t.status.aesKv = true) :
    t.scheduleStored := by
  simp only [exec, execAesKeyexp] at h
  have hl := Aes.scheduleBytes_length s.dinBlock
  split at h <;> injection h with h <;> subst h
  · simp at hv
  · intro j hj
    exact State.stored_writeBytes_isSome (s.emit _) (by rw [hl]; omega)

/-- FEI_KEY sets FEI_KV only with both subkeys written (41_feistel.md R133). -/
theorem feiKey_subkeysStored {len : Byte} (h : exec (.feiKey len) s = .next t) (hv : t.status.feiKv = true) :
    (t.stored feiK1Addr).isSome = true ∧ (t.stored feiK2Addr).isSome = true := by
  simp only [exec, execFeiKey] at h
  split at h <;> injection h with h <;> subst h
  · simp at hv
  · exact ⟨State.stored_writeBytes_isSome (s.emit _) (by simp),
      State.stored_writeBytes_isSome (s.emit _) (by simp [feiK1Addr, feiK2Addr])⟩

/-- Every command keeps the key units' part: RK is AES_KEYEXP's alone and the subkeys are FEI_KEY's. -/
theorem exec_keeps_keyInv (hk : KeyInv s) (h : exec i s = .next t) : KeyInv t := by
  have he := Ending.of_exec h
  obtain ⟨hst, -⟩ := he.sameButDestinations
  constructor
  · by_cases hi : ∃ len, i = .aesKeyexp len
    · obtain ⟨len, rfl⟩ := hi
      exact aesKeyexp_scheduleStored h
    · refine hk.aes_of_same (he.sameFlags.aes (not_exists.1 hi)) fun a h1 h2 => hst a fun ha => ?_
      rcases inDestination_cases ha with hd | ⟨hd, -⟩ | ⟨-, hd⟩
      · omega
      · exact hi hd
      · omega
  · by_cases hi : ∃ len, i = .feiKey len
    · obtain ⟨len, rfl⟩ := hi
      exact feiKey_subkeysStored h
    · refine hk.fei_of_same (he.sameFlags.fei (not_exists.1 hi)) fun a h1 h2 => hst a fun ha => ?_
      rcases inDestination_cases ha with hd | ⟨-, hd⟩ | ⟨hd, -⟩
      · omega
      · omega
      · exact hi hd

/-! ### The elliptic-curve unit -/

/-- A little-endian number of `n` bytes is below 256^n (00_scope.md R12). -/
theorem leToNat_lt (bs : List Byte) : leToNat bs < 256 ^ bs.length := by
  induction bs with
  | nil => simp [leToNat]
  | cons b bs ih =>
    have := b.isLt
    simp only [leToNat, List.length_cons, pow_succ]
    omega

/-- A slot of DIN is a 256-bit number (00_scope.md R12). -/
theorem State.slot_lt (s : State) (i : Nat) : s.slot i < 2 ^ 256 := by
  have h := leToNat_lt (s.bytes (dinBase + 32 * i) 32)
  rw [State.bytes_length] at h
  exact h.trans_eq (by norm_num)

@[simp] theorem State.complete_curve (s : State) (c : Byte) : (s.complete c).curve = s.curve := rfl
@[simp] theorem State.setEcValid_curve (s : State) (cv gv : Bool) : (s.setEcValid cv gv).curve = s.curve := rfl
@[simp] theorem State.setEcGv_curve (s : State) (gv : Bool) : (s.setEcGv gv).curve = s.curve := rfl
@[simp] theorem State.setBase_curve (s : State) (g : Point) (n : Nat) : (s.setBase g n).curve = s.curve := rfl

/-- The curve EC_SETCURVE stores, when its numbers are 256-bit. -/
theorem State.curve_setCurve (s : State) {a b p : Nat} (ha : a < 2 ^ 256) (hb : b < 2 ^ 256) (hp : p < 2 ^ 256) :
    (s.setCurve a b p).curve = ⟨a, b, p⟩ := by
  simp only [State.curve, State.setCurve_ecA, State.setCurve_ecB, State.setCurve_ecP, BitVec.toNat_ofNat,
    Nat.mod_eq_of_lt ha, Nat.mod_eq_of_lt hb, Nat.mod_eq_of_lt hp]

/-- EC_SETCURVE leaves a valid curve or no curve, and no base point (47_ec.md R310). -/
theorem ecSetcurve_curveInv (h : exec .ecSetcurve s = .next t) : CurveInv t := by
  simp only [exec, execEcSetcurve] at h
  have hp := s.slot_lt 2
  generalize s.slot 0 = a, s.slot 1 = b, s.slot 2 = p at h hp
  split at h <;> injection h with h <;> subst h
  · constructor <;> simp
  · next hok =>
    obtain ⟨hp1, hdisc⟩ := not_or.1 hok
    have ha : a % p < p := Nat.mod_lt _ (by omega)
    have hb : b % p < p := Nat.mod_lt _ (by omega)
    have hc := s.curve_setCurve (ha.trans hp) (hb.trans hp) hp
    refine ⟨fun _ => ?_, fun hg => by simp at hg⟩
    simp only [State.curveValid, State.finish_eq, State.complete_curve, State.setEcValid_curve, hc]
    exact ⟨by omega, ha, hb, hdisc⟩

/-- EC_SETBASE keeps the curve and leaves EC_GV only with a base point on it (47_ec.md R311). -/
theorem ecSetbase_keeps_curveInv (hc : CurveInv s) (h : exec .ecSetbase s = .next t) : CurveInv t := by
  have he := Ending.of_exec h
  have hcv := he.sameFlags.curve (by simp)
  obtain ⟨-, -, -, hsc, -⟩ := he.sameButDestinations
  refine ⟨hc.curve_of_same hcv (hsc (by simp)), ?_⟩
  simp only [exec, execEcSetbase] at h
  generalize s.slot 0 = x, s.slot 1 = y, s.slot 2 = n at h
  split at h
  · injection h with h
    subst h
    exact hc.base
  · next hset =>
    split at h <;> injection h with h <;> subst h
    · simp
    · next hon => exact fun _ => ⟨by simpa using hset, by simpa using hon⟩

/-- Every command keeps the elliptic-curve unit's part (47_ec.md R291, R306). -/
theorem exec_keeps_curveInv (hc : CurveInv s) (h : exec i s = .next t) : CurveInv t := by
  by_cases hcurve : i = .ecSetcurve
  · subst hcurve
    exact ecSetcurve_curveInv h
  by_cases hbase : i = .ecSetbase
  · subst hbase
    exact ecSetbase_keeps_curveInv hc h
  have he := Ending.of_exec h
  have hf := he.sameFlags
  obtain ⟨-, -, -, hsc, hsb, -⟩ := he.sameButDestinations
  exact ⟨hc.curve_of_same (hf.curve hcurve) (hsc hcurve),
    hc.base_of_same (hf.curve hcurve) (hf.base hcurve hbase) (hsc hcurve) (hsb hbase)⟩

/-! ### The digest unit -/

/-- H holds MD5's words: 32-bit values in H[0..3] and 0 in H[4..7] (10_state.md R36). -/
def Md5.IsHash (h : Vector Word64 8) : Prop :=
  (∀ i : Fin 8, i.val < 4 → h[i].toNat < 2 ^ 32) ∧ (∀ i : Fin 8, 4 ≤ i.val → h[i] = 0)

theorem State.md5Words_iff : s.md5Words ↔ Md5.IsHash s.h := Iff.rfl

theorem md5Iv_isHash : Md5.IsHash md5Iv := by unfold Md5.IsHash; decide

/-- MD5's compression keeps its words (46_md5.md R275). -/
theorem Md5.IsHash.compress {h : Vector Word64 8} (hh : Md5.IsHash h) (blk : List Byte) :
    Md5.IsHash (Md5.compress h blk).1 := by
  obtain ⟨hlow, hhigh⟩ := Md5.compress_words h blk
  exact ⟨hlow, fun i hi => (hhigh i hi).trans (hh.2 i hi)⟩

/-- Absorbing a byte keeps MD5's words: H changes by compression alone (44_digest.md R223). -/
theorem DigestRun.absorb_isHash {d : DigestRun} (hd : Md5.IsHash d.h) (v : Byte) : Md5.IsHash (absorb .md5 d v).h := by
  unfold absorb
  split
  · exact hd.compress _
  · exact hd

theorem DigestRun.absorbAll_isHash {d : DigestRun} (hd : Md5.IsHash d.h) (vs : List Byte) :
    Md5.IsHash (absorbAll .md5 d vs).h := by
  induction vs generalizing d with
  | nil => exact hd
  | cons v vs ih => exact ih (absorb_isHash hd v)

/-- SHA512_INIT starts an empty message (44_digest.md R221). -/
theorem sha512Init_digestInv (h : exec .sha512Init s = .next t) : DigestInv t := by
  injection h with h
  subst h
  constructor <;> simp

/-- MD5_INIT starts an empty message with MD5's words (44_digest.md R222). -/
theorem md5Init_digestInv (h : exec .md5Init s = .next t) : DigestInv t := by
  injection h with h
  subst h
  exact ⟨by simp, by simp, fun _ _ => md5Iv_isHash⟩

/-- After HASH_FINAL no computation is in progress (44_digest.md R227). -/
theorem hashFinal_inactive (h : exec .hashFinal s = .next t) : t.status.hashAct = false := by
  simp only [exec, execHashFinal] at h
  split at h <;> injection h with h <;> subst h
  · assumption
  · rfl

@[simp] theorem State.dinBytes_length (s : State) (n : Nat) : (s.dinBytes n).length = n := s.bytes_length _ n

/-- MSGLEN modulo 2^128 and BUFCNT modulo the block size count the same bytes, since 2^125 is a multiple of the block size
(44_digest.md R223, R224). -/
theorem msgLen_add_bytes (alg : HashAlg) (m : BitVec 128) (n : Nat) (hm : m.toNat % 8 = 0) :
    (m + BitVec.ofNat 128 (8 * n)).toNat % 8 = 0 ∧
    (m.toNat / 8 % alg.blockSize + n) % alg.blockSize =
      (m + BitVec.ofNat 128 (8 * n)).toNat / 8 % alg.blockSize := by
  simp only [BitVec.toNat_add, BitVec.toNat_ofNat]
  cases alg <;> simp only [HashAlg.blockSize] <;> omega

/-- HASH_UPDATE counts the bytes it absorbs (44_digest.md R224). -/
theorem hashUpdate_keeps_digestInv {len : Byte} (hd : DigestInv s) (h : exec (.hashUpdate len) s = .next t) :
    DigestInv t := by
  simp only [exec, execHashUpdate] at h
  split at h
  · injection h with h
    subst h
    exact hd.of_same ⟨rfl, rfl⟩ ⟨rfl, rfl, rfl, rfl⟩
  next hact =>
  have hact : s.status.hashAct = true := by simpa using hact
  split at h <;> injection h with h <;> subst h
  · exact hd.of_same ⟨rfl, rfl⟩ ⟨rfl, rfl, rfl, rfl⟩
  have hcnt := hd.count hact
  obtain ⟨hwhole, hlen⟩ := msgLen_add_bytes s.status.hashAlg s.msgLen len.toNat (hd.wholeBytes hact)
  refine ⟨fun _ => ?_, fun _ => by simpa using hwhole, fun _ halg => ?_⟩
  · have hlt : s.bufCnt < s.status.hashAlg.blockSize := hcnt ▸ Nat.mod_lt _ (HashAlg.blockSize_pos _)
    calc (s.digestRun.absorbAll s.status.hashAlg (s.dinBytes len.toNat)).cnt
      _ = (s.bufCnt + len.toNat) % s.status.hashAlg.blockSize := by
        rw [DigestRun.absorbAll_cnt s.digestRun _ hlt, State.dinBytes_length]; rfl
      _ = _ := by rw [hcnt, hlen]; simp
  · have halg : s.status.hashAlg = .md5 := by simpa using halg
    rw [State.md5Words_iff]
    simpa [halg] using DigestRun.absorbAll_isHash (d := s.digestRun) (hd.md5 hact halg) _

/-- Every command keeps the digest unit's part (10_state.md R36, 44_digest.md R223, R224). -/
theorem exec_keeps_digestInv (hd : DigestInv s) (h : exec i s = .next t) : DigestInv t := by
  have he := Ending.of_exec h
  cases hi : isDigestCommand i with
  | false =>
    obtain ⟨-, -, -, -, -, hsd, -⟩ := he.sameButDestinations
    exact hd.of_same (he.sameFlags.digest hi) (hsd hi)
  | true =>
    cases i with
    | sha512Init => exact sha512Init_digestInv h
    | md5Init => exact md5Init_digestInv h
    | hashUpdate len => exact hashUpdate_keeps_digestInv hd h
    | hashFinal => exact .of_inactive (hashFinal_inactive h)
    | _ => cases hi

/-! ### All parts -/

/-- Every command keeps the control part: it ends with a completion (60_exceptions.md R340, R348). -/
theorem exec_keeps_controlInv (hc : ControlInv s) (h : exec i s = .next t) : ControlInv t := by
  obtain ⟨hbusy, -, hcode, hctrl, hcmd, hpend, -⟩ := (Ending.of_exec h).completes
  exact ⟨by simp [hbusy], by rw [hcmd, hpend, hc.cmdIsPend], hcode, by rw [hctrl]; exact hc.traceEn⟩

/-- Every command keeps the invariant. -/
theorem exec_keeps_inv (hs : s.Inv) (h : exec i s = .next t) : t.Inv :=
  .of_units (exec_canonical hs.storage i t h) (exec_keeps_controlInv hs.control h) (exec_keeps_keyInv hs.keys h)
    (exec_keeps_curveInv hs.curveUnit h) (exec_keeps_digestInv hs.digest h)

end Commands

end Sys2Proof.Machine
end

section
/-! SUPPORT. Host accesses, both resets and the engine's step keep the invariant. -/

namespace Sys2Proof.Machine

section Steps

variable {s t : State}

/-- The invariant says nothing of the host's side of the bus. -/
theorem State.Inv.of_bus (h : s.Inv) (ins : List HostInput) (rd : Option Word) (n : Nat) :
    ({ s with inputs := ins, readData := rd, draws := n } : State).Inv :=
  { h with }

/-- With the control registers cleared the invariant is about window storage alone (70_reset_and_hazards.md R372). -/
theorem State.inv_clearControl (hm : Memory.wf s.mem) : s.clearControl.Inv := by
  constructor
  case storage => exact hm
  all_goals simp [legalCodes]

/-- A hardware reset leaves the invariant (70_reset_and_hazards.md R371). -/
theorem State.inv_hardwareReset (s : State) : s.hardwareReset.Inv :=
  State.inv_clearControl (s := s.hardwareReset) Memory.wf_nil

/-- What an abandoned command leaves of window storage is in canonical form (70_reset_and_hazards.md R372). -/
theorem State.abandon_canonical (hm : Memory.wf s.mem) (i : Instr) : Memory.wf (s.abandon i).mem := by
  cases i with
  | feiKey | feiEnc | feiDec | aesKeyexp | aesSb | aesSr | aesMc | aesArk | aesIsb | aesIsr | aesImc | hashFinal
  | ecStpt | ecOncurve => exact Memory.wf_erase hm _ _
  | aesEnc | aesDec => exact Memory.wf_erase (Memory.wf_erase hm _ _) _ _
  | _ => exact hm

/-- A soft reset leaves the invariant (70_reset_and_hazards.md R372). -/
theorem State.inv_softReset (hm : Memory.wf s.mem) : s.softReset.Inv := by
  refine State.inv_clearControl ?_
  split
  · unfold State.abandonPending
    split
    · exact State.abandon_canonical hm _
    · exact hm
  · exact hm

/-- A host write of a word of DIN or STATE keeps the invariant: no flag speaks of them. -/
theorem State.Inv.writeBytes_input (h : s.Inv) {off : Nat} {bs : List Byte}
    (hoff : (0x100 ≤ off ∧ off + bs.length ≤ 0x180) ∨ (0x200 ≤ off ∧ off + bs.length ≤ 0x210)) :
    (s.writeBytes off bs).Inv := by
  have hst : ∀ a, 0x300 ≤ a → (s.writeBytes off bs).stored a = s.stored a := fun a ha => by
    rw [State.stored_writeBytes, if_neg (by omega)]
  exact { h with
    storage := Memory.wf_write h.storage fun j hj => isStorage_inputs (by omega)
    aes := h.keys.aes_of_same rfl fun a h1 _ => hst a h1
    fei := h.keys.fei_of_same rfl fun a h1 _ => hst a (by omega) }

/-- Every host write keeps the invariant. -/
theorem State.Inv.writeWindow (h : s.Inv) {off : Nat} (v : Word) (h4 : off % 4 = 0) : (s.writeWindow off v).Inv := by
  rcases writeWindow_cases s v h4 with ⟨-, -, e⟩ | ⟨-, -, e⟩ | ⟨-, e⟩ | ⟨-, -, e⟩ | ⟨hoff, -, e⟩ | ⟨-, -, e⟩ | ⟨-, e⟩ <;>
    rw [e]
  · exact State.inv_softReset h.storage
  · exact { h with traceEn := fun ht => (Bool.and_eq_true_iff.1 ht).2 }
  · exact { h with busyNotDone := fun hb => by simp [State.writeStatus, h.busyNotDone hb] }
  · exact { h with busyNotDone := fun _ => rfl, cmdIsPend := rfl }
  · exact h.writeBytes_input (by rw [bytesOfWord_length]; omega)
  · exact { h with }
  · exact h

/-- Every step of the engine keeps the invariant. -/
theorem engineStep_keeps_inv (hs : s.Inv) (h : engineStep s = .next t) : t.Inv := by
  have htick : s.tick.Inv := hs.of_bus s.inputs s.readData (s.draws + 1)
  rcases engineStep_cases h with ⟨-, rfl⟩ | ⟨-, -, rfl⟩ | ⟨-, i, -, hexec⟩
  · exact hs
  · exact { htick with busyNotDone := by simp, code := by simp [ErrorKind.code, legalCodes] }
  · exact exec_keeps_inv htick hexec

end Steps

/-- Settles O24, by cases on what the step is: the engine's step, a host read, a host write, or a hardware reset. -/
theorem stepKeepsTheInvariant : Obligations.StepKeepsTheInvariant := by
  intro s t hs h
  have hbus (rest : List HostInput) (n : Nat) : ({ s with inputs := rest, draws := n } : State).Inv :=
    hs.of_bus rest s.readData n
  rcases step_cases h with ⟨-, he⟩ | ⟨rest, -, he⟩ | ⟨off, rest, -, -, -, rfl⟩ | ⟨off, v, rest, -, h4, -, rfl⟩ |
    ⟨rest, -, rfl⟩
  · exact engineStep_keeps_inv hs he
  · exact engineStep_keeps_inv (hbus rest s.draws) he
  · exact hs.of_bus rest _ _
  · exact State.Inv.writeWindow (hbus rest (s.draws + 1)) v h4
  · exact State.inv_hardwareReset _

end Sys2Proof.Machine
end

section
/-! SUPPORT. What the host reads: the bits of CTRL and STATUS, and the bytes of a storage word. -/

namespace Sys2Proof.Machine

namespace State

variable (s : State)

/-- The one bit of a flag's word. -/
theorem bitAt_getLsbD {i : Nat} (hi : i < 32) (c : Bool) (b : Nat) : (bitAt i c).getLsbD b = (b == i && c) := by
  cases c with
  | false => simp [bitAt]
  | true =>
    simp only [bitAt, if_true, BitVec.getLsbD_shiftLeft, BitVec.getLsbD_one, Bool.and_true]
    rw [Bool.eq_iff_iff]
    simp
    omega

/-- The bits of CTRL (10_state.md R22). -/
theorem ctrlWord_getLsbD (b : Nat) :
    s.ctrlWord.getLsbD b = ((b == 0 && s.ctrl.irqEn) || (b == 1 && s.ctrl.traceEn)) := by
  simp [ctrlWord, bitAt_getLsbD]

/-- The bits of STATUS (10_state.md R23). -/
theorem statusWord_getLsbD (b : Nat) :
    s.statusWord.getLsbD b = ((b == 0 && s.status.busy) || (b == 1 && s.status.done) || (b == 2 && s.errcode != 0) ||
      (b == 3 && s.status.ovr) || (b == 4 && s.status.aesKv) || (b == 5 && s.status.feiKv) ||
      (b == 6 && s.status.ecCv) || (b == 7 && s.status.ecGv) || (b == 8 && s.status.hashAct) ||
      (b == 9 && s.status.hashAlg == .md5)) := by
  have halg : s.status.hashAlg.bit = (s.status.hashAlg == .md5) := by cases s.status.hashAlg <;> rfl
  simp [statusWord, bitAt_getLsbD, err, halg]

/-- Lane k of a storage word is its byte k (20_memory.md R62). -/
theorem storageWord_extract (off : Nat) {k : Nat} (hk : k < 4) :
    (s.storageWord off).extractLsb' (8 * k) 8 = s.byte (off + k) := by
  rw [storageWord_eq]
  obtain ⟨h0, h1, h2, h3⟩ := wordOfBytes_extract (s.byte off) (s.byte (off + 1)) (s.byte (off + 2)) (s.byte (off + 3))
  interval_cases k
  · exact h0
  · exact h1
  · exact h2
  · exact h3

/-- The upper half of the word at 0x3B0 is its two reserved bytes, 0 (10_state.md R26, R31). -/
theorem feiWord_upper : s.feiWord.extractLsb' 16 16 = 0 := by
  have h1 := s.feiK1.isLt
  have h2 := s.feiK2.isLt
  apply BitVec.eq_of_toNat_eq
  simp [feiWord, wordOfBytes, leToNat, Nat.shiftRight_eq_div_pow]
  omega

/-- A read at 0x3B0 shows 0 in its reserved bytes, busy or not (10_state.md R26). -/
theorem windowWord_fei_upper : (s.windowWord 0x3B0).extractLsb' 16 16 = 0 := by
  simp only [windowWord, regionOf_fei (off := 0x3B0) (by omega)]
  split
  · rw [BitVec.extractLsb'_and]
    exact BitVec.and_zero
  · exact s.feiWord_upper

/-- A read of DIN, or while idle of DOUT, STATE or RK, is the storage word (10_state.md R27 to R30). -/
theorem windowWord_storage {off : Nat} (h : (0x100 ≤ off ∧ off < 0x180) ∨
    (((0x180 ≤ off ∧ off < 0x210) ∨ (0x300 ≤ off ∧ off < 0x3B0)) ∧ s.status.busy = false)) :
    s.windowWord off = s.storageWord off := by
  rcases h with h | ⟨h, hb⟩
  · simp [windowWord, regionOf_din h]
  · have hr : regionOf off = .dout ∨ regionOf off = .aesState ∨ regionOf off = .rk := by
      have := regionOf_cases off
      grind
    rcases hr with hr | hr | hr <;> simp [windowWord, hr, hb]

end State

/-- Settles O14: a host read returns `windowWord`, register by register. -/
theorem hostReadReturnsTheRegister : Obligations.HostReadReturnsTheRegister := by
  intro s off h4 hlt
  refine ⟨s.windowWord off, hostRead_next.2 ⟨⟨rfl, h4, hlt⟩, rfl⟩, ?id, ?ctrl, ?status, ?cmd, ?errcode, ?reserved,
    ?din, ?results, ?subkeys⟩
  case id => rintro rfl; rfl
  case ctrl => rintro rfl; exact s.ctrlWord_getLsbD
  case status => rintro rfl; exact s.statusWord_getLsbD
  case cmd => rintro rfl; rfl
  case errcode => rintro rfl hb; simp [State.windowWord, regionOf_errcode (off := 0x010) (by omega), hb]
  case reserved => intro h; simp [State.windowWord, regionOf_reserved h]
  case din => intro h k hk; rw [s.windowWord_storage (.inl h), s.storageWord_extract off hk]
  case results => intro h hb k hk; rw [s.windowWord_storage (.inr ⟨h, hb⟩), s.storageWord_extract off hk]
  case subkeys =>
    rintro rfl
    refine ⟨s.windowWord_fei_upper, fun hb => ?_⟩
    have hw : s.windowWord 0x3B0 = s.feiWord := by
      simp [State.windowWord, regionOf_fei (off := 0x3B0) (by omega), hb]
    obtain ⟨h0, h1, -⟩ := wordOfBytes_extract s.feiK1 s.feiK2 0 0
    rw [hw]
    exact ⟨h0, h1⟩

end Sys2Proof.Machine
end

section
/-! SUPPORT. What the host writes: which accesses are answered, the state a write of each register leaves, and what no
write but a soft reset touches (20_memory.md R61 to R66). -/

namespace Sys2Proof.Machine

/-- An aligned 32-bit read inside the window is answered (20_memory.md R61, R64). -/
theorem hostRead_answered (s : State) {off : Nat} (h4 : off % 4 = 0) (hlt : off < 0x400) :
    hostRead off 4 s = .next { s with readData := some (s.windowWord off) } :=
  hostRead_next.2 ⟨⟨rfl, h4, hlt⟩, rfl⟩

/-- An aligned 32-bit write inside the window is answered (20_memory.md R61, R64). -/
theorem hostWrite_answered (s : State) {off : Nat} (v : Word) (h4 : off % 4 = 0) (hlt : off < 0x400) :
    hostWrite off 4 v s = .next (s.writeWindow off v) :=
  hostWrite_next.2 ⟨⟨rfl, h4, hlt⟩, rfl⟩

namespace State

variable {s : State} {off : Nat}

/-! ### The state a write leaves, by register -/

/-- A write of a read-only register or a reserved offset is ignored, busy or idle (20_memory.md R65). -/
theorem writeWindow_ignored (v : Word)
    (h : off < 0x004 ∨ (0x010 ≤ off ∧ off < 0x100) ∨ (0x180 ≤ off ∧ off < 0x200) ∨ 0x210 ≤ off) : s.writeWindow off v = s := by
  have hr : regionOf off = .id ∨ regionOf off = .errcode ∨ regionOf off = .dout ∨ regionOf off = .rk ∨
      regionOf off = .fei ∨ regionOf off = .reserved := by
    have := regionOf_cases off
    grind
  rcases hr with hr | hr | hr | hr | hr | hr <;> simp [writeWindow, hr]

/-- While BUSY = 1 a write of CMD, DIN or STATE only sets OVR (20_memory.md R66). -/
theorem writeWindow_busy (v : Word) (hb : s.status.busy = true)
    (h : (0x00C ≤ off ∧ off < 0x010) ∨ (0x100 ≤ off ∧ off < 0x180) ∨ (0x200 ≤ off ∧ off < 0x210)) :
    s.writeWindow off v = s.setOvr := by
  rcases h with h | h | h
  · simp [writeWindow, regionOf_cmd h, hb]
  · simp [writeWindow, regionOf_din h, hb]
  · simp [writeWindow, regionOf_aesState h, hb]

/-- While BUSY = 0 a write of DIN or STATE stores the word's four bytes (20_memory.md R62). -/
theorem writeWindow_storage (v : Word) (hb : s.status.busy = false)
    (h : (0x100 ≤ off ∧ off < 0x180) ∨ (0x200 ≤ off ∧ off < 0x210)) :
    s.writeWindow off v = s.writeBytes off (bytesOfWord v) := by
  rcases h with h | h
  · simp [writeWindow, regionOf_din h, hb]
  · simp [writeWindow, regionOf_aesState h, hb]

/-- A write of STATUS is its W1C bits, busy or idle (10_state.md R23, 20_memory.md R66). -/
theorem writeWindow_status (v : Word) : s.writeWindow 0x008 v = s.writeStatus v := by
  simp [writeWindow, regionOf_status]

/-- A write of CTRL, busy or idle (20_memory.md R66). -/
theorem writeWindow_ctrl (v : Word) : s.writeWindow 0x004 v = s.writeCtrl v := by
  simp [writeWindow, regionOf_ctrl]

/-- A write of CTRL with bit 31 is a soft reset (70_reset_and_hazards.md R372). -/
theorem writeCtrl_softReset {v : Word} (h : v.getLsbD 31 = true) : s.writeCtrl v = s.softReset := if_pos h

/-- A write of CTRL without bit 31 writes its two enables (10_state.md R22). -/
theorem writeCtrl_enables {v : Word} (h : v.getLsbD 31 = false) :
    s.writeCtrl v = { s with ctrl := ⟨v.getLsbD 0, v.getLsbD 1 && Config.hasTrace⟩ } :=
  if_neg (by rw [h]; decide)

/-! ### The word in its lanes -/

/-- A word is its four bytes. -/
theorem word_eq_of_lanes {u v : Word} (h : ∀ k, k < 4 → u.extractLsb' (8 * k) 8 = v.extractLsb' (8 * k) 8) : u = v := by
  refine BitVec.eq_of_getLsbD_eq fun i hi => ?_
  have hbit := congrArg (BitVec.getLsbD · (i % 8)) (h (i / 8) (by omega))
  have hlt : i % 8 < 8 := by omega
  simpa [hlt, Nat.div_add_mod] using hbit

/-- Lane k of a word written to storage is its byte k (20_memory.md R62). -/
theorem stored_writeBytes_lane (s : State) (off : Nat) (v : Word) {k : Nat} (hk : k < 4) :
    (s.writeBytes off (bytesOfWord v)).stored (off + k) = some (v.extractLsb' (8 * k) 8) := by
  rw [storedAt_writeBytes s off _ k (by simpa using hk), bytesOfWord_getElem? v hk]

/-- A word written to storage reads back (20_memory.md R62). -/
theorem storageWord_writeBytes (s : State) (off : Nat) (v : Word) :
    (s.writeBytes off (bytesOfWord v)).storageWord off = v :=
  word_eq_of_lanes fun k hk => by
    rw [storageWord_extract _ off hk, byte_of_stored (s.stored_writeBytes_lane off v hk)]

end State

/-! ### What no write but a soft reset touches -/

/-- No register outside the window, no record, no error code, no byte outside DIN and STATE and no validity flag
differs. -/
structure SameButHostRegisters (s t : State) : Prop where
  registers : SameRegisters s t
  trace : t.trace = s.trace
  errcode : t.errcode = s.errcode
  storage : ∀ a, ¬ (0x100 ≤ a ∧ a < 0x180) → ¬ (0x200 ≤ a ∧ a < 0x210) → t.stored a = s.stored a
  flags : t.status.aesKv = s.status.aesKv ∧ t.status.feiKv = s.status.feiKv ∧ t.status.ecCv = s.status.ecCv ∧
    t.status.ecGv = s.status.ecGv ∧ t.status.hashAct = s.status.hashAct ∧ t.status.hashAlg = s.status.hashAlg

namespace SameButHostRegisters

variable {s : State}

/-- CTRL, CMD, PEND, BUSY, DONE and OVR are what a write of CTRL, STATUS or CMD can change (10_state.md R22 to R24,
40_command_cycle.md R101). -/
theorem of_control (s : State) (ctrl : Ctrl) (cmd pend : Word) (busy done ovr : Bool) :
    SameButHostRegisters s { s with
      ctrl := ctrl, cmd := cmd, pend := pend, status := { s.status with busy := busy, done := done, ovr := ovr } } where
  registers := sameRegisters_of_fields (by simp)
  trace := rfl
  errcode := rfl
  storage _ _ _ := rfl
  flags := ⟨rfl, rfl, rfl, rfl, rfl, rfl⟩

/-- DIN and STATE are the host's to write (10_state.md R27, R29). -/
theorem of_writeBytes (s : State) {off : Nat} {bs : List Byte}
    (h : (0x100 ≤ off ∧ off + bs.length ≤ 0x180) ∨ (0x200 ≤ off ∧ off + bs.length ≤ 0x210)) :
    SameButHostRegisters s (s.writeBytes off bs) where
  registers := sameRegisters_of_fields (by simp)
  trace := rfl
  errcode := rfl
  storage a _ _ := sameStorageOutside_writeBytes s off bs a (by omega)
  flags := ⟨rfl, rfl, rfl, rfl, rfl, rfl⟩

/-- Every write of the window but a soft reset (20_memory.md R64 to R66). -/
theorem of_writeWindow (s : State) {off : Nat} (v : Word) (h4 : off % 4 = 0)
    (hsoft : ¬ (off = 0x004 ∧ v.getLsbD 31 = true)) : SameButHostRegisters s (s.writeWindow off v) := by
  rcases writeWindow_cases s v h4 with ⟨h, hv, -⟩ | ⟨-, -, e⟩ | ⟨-, e⟩ | ⟨-, -, e⟩ | ⟨hoff, -, e⟩ | ⟨-, -, e⟩ | ⟨-, e⟩
  · exact absurd ⟨h, hv⟩ hsoft
  all_goals rw [e]
  · exact of_control s ..
  · exact of_control s ..
  · exact of_control s ..
  · exact of_writeBytes s (by rw [bytesOfWord_length]; omega)
  · exact of_control s ..
  · exact of_control s ..

end SameButHostRegisters

/-! ### The obligations -/

/-- Settles O10: the access check refuses every other access before any register is looked at. -/
theorem undefinedAccessIsABusError : Obligations.UndefinedAccessIsABusError := by
  intro s off width v
  refine ⟨fun h => ?_, ?_⟩
  · simp [hostRead, hostWrite, accessFault_busError h]
  · rintro rfl h4 hlt
    exact ⟨⟨_, hostRead_answered s h4 hlt⟩, _, hostWrite_answered s v h4 hlt⟩

/-- Settles O11, register by register. -/
theorem writesWhileBusy : Obligations.WritesWhileBusy := by
  intro s off v hb h4 hlt
  rw [hostWrite_answered s v h4 hlt]
  refine ⟨?ovr, ?ctrl, ?softReset, ?status, ?ignored⟩
  case ovr => intro h; rw [State.writeWindow_busy v hb (by omega)]; rfl
  case ctrl => rintro rfl hv; rw [State.writeWindow_ctrl, State.writeCtrl_enables hv]
  case softReset =>
    rintro rfl hv
    rw [State.writeWindow_ctrl, State.writeCtrl_softReset hv]
    exact ⟨_, rfl, rfl, rfl⟩
  case status => rintro rfl; rw [State.writeWindow_status]; rfl
  case ignored => intro h; rw [State.writeWindow_ignored v (by omega)]

/-- Settles O12: the window ignores these offsets, and clearing by W1C is conjunction with the complement. -/
theorem readOnlyWritesIgnored : Obligations.ReadOnlyWritesIgnored := by
  intro s off v h4
  have clear (a b : Bool) : (a && !b) = if b then false else a := by cases b <;> simp
  constructor
  · intro h
    rw [hostWrite_answered s v h4 (by omega), State.writeWindow_ignored v (by omega)]
  · rw [hostWrite_answered s v (by decide) (by decide), State.writeWindow_status, State.writeStatus, clear, clear]

/-- Settles O13: the write stores the word's four bytes, and the read joins them again. -/
theorem writtenWordReadsBack : Obligations.WrittenWordReadsBack := by
  intro s off v hb h4 h
  have hlt : off < 0x400 := by omega
  have hidle : (s.writeBytes off (bytesOfWord v)).status.busy = false := hb
  have hread : (s.writeBytes off (bytesOfWord v)).windowWord off = v := by
    rw [State.windowWord_storage _ (h.imp_right fun h => ⟨.inl (by omega), hidle⟩), State.storageWord_writeBytes]
  refine ⟨s.writeBytes off (bytesOfWord v), ?_, fun k hk => s.stored_writeBytes_lane off v hk, ?_,
    by simp [SameControl], sameRegisters_of_fields (by simp), rfl, rfl, rfl, ?_⟩
  · rw [hostWrite_answered s v h4 hlt, State.writeWindow_storage v hb h]
  · simpa using sameStorageOutside_writeBytes s off (bytesOfWord v)
  · rw [hostRead_answered _ h4 hlt, hread]

/-- Settles O15, by cases on the register a write hits. -/
theorem hostWritesReachOnlyTheirRegisters : Obligations.HostWritesReachOnlyTheirRegisters := by
  intro s t off v h hsoft
  obtain ⟨⟨-, h4, -⟩, rfl⟩ := hostWrite_next.1 h
  obtain ⟨hreg, htrace, hcode, hmem, hflags⟩ := SameButHostRegisters.of_writeWindow s v h4 hsoft
  exact ⟨hreg, htrace, hcode, hmem, hflags⟩

end Sys2Proof.Machine
end

section
/-! SUPPORT. The command word by its fields: a word is its fields (30_encoding.md R81), a row of the opcode map selects a
word by them (R83), and a command's word is laid out from the command's own (R88). -/

namespace Sys2Proof

/-! ### A word is its fields -/

/-- Settles O3: dividing by a power of two and taking a remainder is taking bits. -/
theorem fieldsAreTheBits : Obligations.FieldsAreTheBits := by
  intro w
  simp [fields, ← BitVec.toNat_inj, Nat.shiftRight_eq_div_pow]

/-- The word laid out from fields (30_encoding.md R88). -/
def Fields.word (f : Fields) : Word := assemble f.op f.rd f.ra f.rb f.ks f.rnd f.len.toNat

/-- The fields of a word under a mask. -/
def Fields.masked (f m : Fields) : Fields :=
  ⟨f.op &&& m.op, f.rd &&& m.rd, f.ra &&& m.ra, f.rb &&& m.rb, f.ks &&& m.ks, f.rsv &&& m.rsv, f.rnd &&& m.rnd,
    f.len &&& m.len⟩

/-- No bit of a word lies outside its fields. -/
theorem fields_injective : Function.Injective fields := by
  intro w w' h
  have := w.isLt
  have := w'.isLt
  simp only [fields, Fields.mk.injEq, Fin.mk.injEq, ← BitVec.toNat_inj, BitVec.toNat_ofNat] at h
  exact BitVec.eq_of_toNat_eq (by omega)

/-- Fields laid out in a word are read back. -/
theorem fields_word {f : Fields} (h : f.rsv = 0) : fields f.word = f := by
  obtain ⟨op, rd, ra, rb, ks, rsv, rnd, len⟩ := f
  subst h
  have := len.isLt
  simp only [fields, Fields.word, assemble, Fields.mk.injEq, Fin.ext_iff, ← BitVec.toNat_inj, BitVec.toNat_ofNat]
  refine ⟨?_, ?_, ?_, ?_, ?_, ?_, ?_, ?_⟩ <;> simp <;> omega

/-- A mask acts on each run of bits by itself. -/
theorem and_slice (a b i n : Nat) : (a &&& b) / 2 ^ i % 2 ^ n = (a / 2 ^ i % 2 ^ n) &&& (b / 2 ^ i % 2 ^ n) := by
  rw [Nat.and_div_two_pow, Nat.and_mod_two_pow]

/-- A mask acts on each field by itself. -/
theorem fields_and (w m : Word) : fields (w &&& m) = (fields w).masked (fields m) := by
  simp only [fields, Fields.masked, Fields.mk.injEq, Fin.ext_iff, Fin.and_val, ← BitVec.toNat_inj, BitVec.toNat_and,
    BitVec.toNat_ofNat]
  exact ⟨Nat.and_mod_two_pow (n := 8), and_slice _ _ 8 3, and_slice _ _ 11 3, and_slice _ _ 14 3, and_slice _ _ 17 2,
    and_slice _ _ 19 1, and_slice _ _ 20 4, and_slice _ _ 24 8⟩

/-- A row selects a word when the word's masked fields are the row's (30_encoding.md R83). -/
theorem Row.selects_iff {r : Row} {w : Word} :
    r.selects w = true ↔ (fields w).masked (fields r.mask) = fields r.bits := by
  rw [← fields_and, fields_injective.eq_iff, Row.selects, beq_iff_eq]

/-! ### The opcode map by fields -/

/-- The fields of a command's word: its OP, its operands, and 0 in every field it does not use (30_encoding.md R83,
R84). -/
def Instr.fields : Instr → Fields
  | .nop => ⟨0x00, 0, 0, 0, 0, 0, 0, 0⟩
  | .feiKey len => ⟨0x10, 0, 0, 0, 0, 0, 0, len⟩
  | .feiEnc len => ⟨0x11, 0, 0, 0, 0, 0, 0, len⟩
  | .feiDec len => ⟨0x12, 0, 0, 0, 0, 0, 0, len⟩
  | .aesKeyexp len => ⟨0x20, 0, 0, 0, 0, 0, 0, len⟩
  | .aesEnc len => ⟨0x21, 0, 0, 0, 0, 0, 0, len⟩
  | .aesDec len => ⟨0x22, 0, 0, 0, 0, 0, 0, len⟩
  | .aesSb => ⟨0x28, 0, 0, 0, 0, 0, 0, 0⟩
  | .aesSr => ⟨0x29, 0, 0, 0, 0, 0, 0, 0⟩
  | .aesMc => ⟨0x2A, 0, 0, 0, 0, 0, 0, 0⟩
  | .aesArk rnd => ⟨0x2B, 0, 0, 0, 0, 0, rnd, 0⟩
  | .aesIsb => ⟨0x2C, 0, 0, 0, 0, 0, 0, 0⟩
  | .aesIsr => ⟨0x2D, 0, 0, 0, 0, 0, 0, 0⟩
  | .aesImc => ⟨0x2E, 0, 0, 0, 0, 0, 0, 0⟩
  | .sha512Init => ⟨0x30, 0, 0, 0, 0, 0, 0, 0⟩
  | .md5Init => ⟨0x31, 0, 0, 0, 0, 0, 0, 0⟩
  | .hashUpdate len => ⟨0x32, 0, 0, 0, 0, 0, 0, len⟩
  | .hashFinal => ⟨0x33, 0, 0, 0, 0, 0, 0, 0⟩
  | .ecSetcurve => ⟨0x40, 0, 0, 0, 0, 0, 0, 0⟩
  | .ecSetbase => ⟨0x41, 0, 0, 0, 0, 0, 0, 0⟩
  | .ecLdpt rd => ⟨0x42, rd, 0, 0, 0, 0, 0, 0⟩
  | .ecStpt ra => ⟨0x43, 0, ra, 0, 0, 0, 0, 0⟩
  | .ecLdk ks => ⟨0x44, 0, 0, 0, ks, 0, 0, 0⟩
  | .ecOncurve ra => ⟨0x45, 0, ra, 0, 0, 0, 0, 0⟩
  | .ecNeg rd ra => ⟨0x46, rd, ra, 0, 0, 0, 0, 0⟩
  | .ecAdd rd ra rb => ⟨0x47, rd, ra, rb, 0, 0, 0, 0⟩
  | .ecDbl rd ra => ⟨0x48, rd, ra, 0, 0, 0, 0, 0⟩
  | .ecMul rd ra ks => ⟨0x49, rd, ra, 0, ks, 0, 0, 0⟩
  | .ecPub rd ks => ⟨0x4A, rd, 0, 0, ks, 0, 0, 0⟩
  | .ecEnc rd ra rb ks => ⟨0x4B, rd, ra, rb, ks, 0, 0, 0⟩
  | .ecDec rd ra rb ks => ⟨0x4C, rd, ra, rb, ks, 0, 0, 0⟩

/-- The encoder lays out the command's fields. -/
theorem encode_eq_word (i : Instr) : encode i = i.fields.word := by cases i <;> rfl

theorem fields_encode (i : Instr) : fields (encode i) = i.fields := by
  rw [encode_eq_word, fields_word]
  cases i <;> rfl

/-- Every command has a row that builds it. -/
theorem exists_row (i : Instr) : ∃ r ∈ opcodeTable, r.build i.fields = i := by
  cases i <;> simp [opcodeTable, cipherRows, digestRows, ecRows, Instr.fields]

/-- A field whose mask bits are all set is kept whole. -/
theorem and_fullMask {n m : Nat} (hm : n = 2 ^ m) (x y : Fin n) (hy : y.val = 2 ^ m - 1) : x &&& y = x := by
  subst hm
  rw [Fin.ext_iff, Fin.and_val, hy, Nat.and_two_pow_sub_one_eq_mod, Nat.mod_eq_of_lt x.isLt]

/-- A field outside the mask counts as 0. -/
theorem and_emptyMask {n : Nat} [NeZero n] (x : Fin n) : x &&& 0 = 0 := by
  simp [Fin.ext_iff]

/-- A row's bits agree with a word's under the mask exactly when the word is laid out from the fields of the command the
row builds, and that command meets EC_ENC's constraint, the one the masks state (30_encoding.md R84). -/
theorem Row.masked_eq_iff {r : Row} (hr : r ∈ opcodeTable) (f : Fields) :
    f.masked (fields r.mask) = fields r.bits ↔
      f = (r.build f).fields ∧ ((r.build f).wellFormed = true ∨ r.mnemonic = "AES_ARK") := by
  obtain ⟨op, rd, ra, rb, ks, rsv, rnd, len⟩ := f
  have hop : op &&& 255 = op := and_fullMask (m := 8) rfl _ _ rfl
  have hrd : rd &&& 7 = rd := and_fullMask (m := 3) rfl _ _ rfl
  have hra : ra &&& 7 = ra := and_fullMask (m := 3) rfl _ _ rfl
  have hrb : rb &&& 7 = rb := and_fullMask (m := 3) rfl _ _ rfl
  have hks : ks &&& 3 = ks := and_fullMask (m := 2) rfl _ _ rfl
  have hrsv : rsv &&& 1 = rsv := and_fullMask (m := 1) rfl _ _ rfl
  have hrnd : rnd &&& 15 = rnd := and_fullMask (m := 4) rfl _ _ rfl
  have hlen : len &&& 255#8 = len := BitVec.and_allOnes
  have heven : rd &&& 1 = 0 ↔ rd.val % 2 = 0 := by revert rd; decide
  fin_cases hr <;>
    simp [Fields.masked, fields, Instr.fields, Instr.wellFormed, and_emptyMask, hop, hrd, hra, hrb, hks, hrsv, hrnd,
      hlen, heven]
  -- EC_ENC is the row whose mask covers a part of a field.
  · tauto

theorem Row.selects_iff_fields {r : Row} (hr : r ∈ opcodeTable) {w : Word} :
    r.selects w = true ↔ fields w = (r.build (fields w)).fields ∧
      ((r.build (fields w)).wellFormed = true ∨ r.mnemonic = "AES_ARK") :=
  Row.selects_iff.trans (Row.masked_eq_iff hr _)

/-! ### One row at most -/

/-- The OP of a row's words. -/
abbrev Row.opcode (r : Row) : Byte := r.bits.extractLsb' 0 8

/-- Every mask covers OP (30_encoding.md R87). -/
theorem opcode_of_selects {r : Row} (hr : r ∈ opcodeTable) {w : Word} (h : r.selects w = true) :
    r.opcode = w.extractLsb' 0 8 := by
  have hmask : ∀ r ∈ opcodeTable, r.mask.extractLsb' 0 8 = BitVec.allOnes 8 := by decide
  rw [Row.opcode, ← eq_of_beq h, BitVec.extractLsb'_and, hmask r hr, BitVec.and_allOnes]

/-- The rows' OP values differ (30_encoding.md R87). -/
theorem opcodes_nodup : (opcodeTable.map Row.opcode).Nodup := by decide

theorem row_eq_of_opcode {r r' : Row} (hr : r ∈ opcodeTable) (hr' : r' ∈ opcodeTable) (h : r.opcode = r'.opcode) :
    r = r' :=
  List.inj_on_of_nodup_map opcodes_nodup hr hr' h

/-- AES_ARK is the row with OP 0x2B (30_encoding.md R83). -/
theorem mnemonic_eq_aesArk_iff : ∀ r ∈ opcodeTable, (r.mnemonic = "AES_ARK" ↔ r.opcode = 0x2B) := by decide

theorem build_of_aesArk {r : Row} (hr : r ∈ opcodeTable) (h : r.mnemonic = "AES_ARK") (f : Fields) :
    r.build f = .aesArk f.rnd := by
  revert h
  fin_cases hr <;> simp

/-! ### The decoder by rows -/

/-- A word a row selects decodes to what the row builds, if that is well-formed. -/
theorem decode_of_selects {r : Row} (hr : r ∈ opcodeTable) {w : Word} (h : r.selects w = true) :
    decode w = if (r.build (fields w)).wellFormed then .legal (r.build (fields w)) else .illegal .fieldOutOfRange := by
  obtain ⟨r', hfind⟩ := Option.isSome_iff_exists.1 (List.find?_isSome (p := fun r : Row => r.selects w).2 ⟨r, hr, h⟩)
  have hr' := List.mem_of_find?_eq_some hfind
  have hsel' := List.find?_some (p := fun r : Row => r.selects w) hfind
  obtain rfl := row_eq_of_opcode hr' hr ((opcode_of_selects hr' hsel').trans (opcode_of_selects hr h).symm)
  simp only [decode, hfind]

/-- A word no row selects is illegal. -/
theorem decode_of_no_row {w : Word} (h : ∀ r ∈ opcodeTable, r.selects w = false) : ∃ why, decode w = .illegal why := by
  have hfind : opcodeTable.find? (·.selects w) = none := List.find?_eq_none.2 (by simpa using h)
  simp only [decode, hfind]
  split <;> exact ⟨_, rfl⟩

/-- A row's command is ill-formed exactly for AES_ARK with RND > 10 (30_encoding.md R85, R87). -/
theorem wellFormed_build_iff {r : Row} (hr : r ∈ opcodeTable) {w : Word} (h : r.selects w = true) :
    (r.build (fields w)).wellFormed = true ↔ ¬ (r.mnemonic = "AES_ARK" ∧ 10 < (w.extractLsb' 20 4).toNat) := by
  obtain ⟨-, -, -, -, -, -, hrnd, -⟩ := fieldsAreTheBits w
  by_cases hm : r.mnemonic = "AES_ARK"
  · simp [hm, build_of_aesArk hr hm, Instr.wellFormed, ← hrnd]
  · simpa [hm] using ((Row.selects_iff_fields hr).1 h).2

/-- AES_ARK with RND > 10 is illegal (30_encoding.md R87). -/
theorem decode_of_selects_outOfRange {r : Row} (hr : r ∈ opcodeTable) {w : Word} (h : r.selects w = true)
    (hark : r.mnemonic = "AES_ARK" ∧ 10 < (w.extractLsb' 20 4).toNat) : decode w = .illegal .fieldOutOfRange := by
  rw [decode_of_selects hr h, if_neg fun hwf => (wellFormed_build_iff hr h).1 hwf hark]

/-- Every other word a row selects is the row's command (30_encoding.md R87). -/
theorem decode_of_selects_legal {r : Row} (hr : r ∈ opcodeTable) {w : Word} (h : r.selects w = true)
    (hark : ¬ (r.mnemonic = "AES_ARK" ∧ 10 < (w.extractLsb' 20 4).toNat)) :
    decode w = .legal (r.build (fields w)) := by
  rw [decode_of_selects hr h, if_pos ((wellFormed_build_iff hr h).2 hark)]

/-- A legal word is selected by the row that builds its command. -/
theorem row_of_decode_legal {w : Word} {i : Instr} (h : decode w = .legal i) :
    ∃ r ∈ opcodeTable, r.selects w = true ∧ r.build (fields w) = i ∧ i.wellFormed = true := by
  by_cases hsel : ∃ r ∈ opcodeTable, r.selects w = true
  · obtain ⟨r, hr, hrw⟩ := hsel
    rw [decode_of_selects hr hrw] at h
    split at h
    · next hwf =>
      obtain rfl : r.build (fields w) = i := by injection h
      exact ⟨r, hr, hrw, rfl, hwf⟩
    · cases h
  · obtain ⟨why, hill⟩ := decode_of_no_row (w := w) (by simpa using hsel)
    cases hill.symm.trans h

/-- A word is illegal exactly when any row that selects it is AES_ARK's, and RND > 10 (30_encoding.md R86, R87). -/
theorem illegal_iff {w : Word} : (∃ why, decode w = .illegal why) ↔
    ∀ r ∈ opcodeTable, r.selects w = true → r.mnemonic = "AES_ARK" ∧ 10 < (w.extractLsb' 20 4).toNat := by
  constructor
  · rintro ⟨why, hill⟩ r hr hsel
    by_contra hark
    cases hill.symm.trans (decode_of_selects_legal hr hsel hark)
  · intro h
    by_cases hsel : ∃ r ∈ opcodeTable, r.selects w = true
    · obtain ⟨r, hr, hrw⟩ := hsel
      exact ⟨_, decode_of_selects_outOfRange hr hrw (h r hr hrw)⟩
    · exact decode_of_no_row (by simpa using hsel)

/-- The three ways a word can be illegal (30_encoding.md R86). -/
theorem illegal_iff_reason {w : Word} : (∃ why, decode w = .illegal why) ↔
    (∀ r ∈ opcodeTable, r.opcode ≠ w.extractLsb' 0 8) ∨
    (∃ r ∈ opcodeTable, r.opcode = w.extractLsb' 0 8 ∧ w &&& r.mask ≠ r.bits) ∨
    (w.extractLsb' 0 8 = 0x2B ∧ 10 < (w.extractLsb' 20 4).toNat) := by
  rw [illegal_iff]
  constructor
  · intro h
    by_cases hop : ∀ r ∈ opcodeTable, r.opcode ≠ w.extractLsb' 0 8
    · exact .inl hop
    · push Not at hop
      obtain ⟨r, hr, hop⟩ := hop
      by_cases hsel : w &&& r.mask = r.bits
      · obtain ⟨hark, hrnd⟩ := h r hr (beq_iff_eq.2 hsel)
        exact .inr (.inr ⟨hop.symm.trans ((mnemonic_eq_aesArk_iff r hr).1 hark), hrnd⟩)
      · exact .inr (.inl ⟨r, hr, hop, hsel⟩)
  · rintro (hop | ⟨r', hr', hop, hne⟩ | ⟨hop, hrnd⟩) r hr hsel
    · exact absurd (opcode_of_selects hr hsel) (hop r hr)
    · obtain rfl := row_eq_of_opcode hr hr' ((opcode_of_selects hr hsel).trans hop.symm)
      exact absurd (beq_iff_eq.1 hsel) hne
    · exact ⟨(mnemonic_eq_aesArk_iff r hr).2 ((opcode_of_selects hr hsel).trans hop), hrnd⟩

/-- The unassigned OP values (30_encoding.md R86). -/
theorem unassigned_iff (op : Byte) : (∀ r ∈ opcodeTable, r.opcode ≠ op) ↔
    (0x01 ≤ op.toNat ∧ op.toNat ≤ 0x0F) ∨ (0x13 ≤ op.toNat ∧ op.toNat ≤ 0x1F) ∨
    (0x23 ≤ op.toNat ∧ op.toNat ≤ 0x27) ∨ op.toNat = 0x2F ∨ (0x34 ≤ op.toNat ∧ op.toNat ≤ 0x3F) ∨
    0x4D ≤ op.toNat := by
  have := op.isLt
  simp [opcodeTable, cipherRows, digestRows, ecRows, Row.opcode, ← BitVec.toNat_inj]
  omega

/-- The engine's step on an illegal word (30_encoding.md R86). -/
theorem engineStep_illegal {s : Machine.State} {why : IllegalReason} (hb : s.status.busy = true)
    (h : decode s.pend = .illegal why) : Machine.engineStep s = .next (s.tick.raise .illegalCommand) := by
  simp [Machine.engineStep, Machine.State.pending, hb, h, Machine.execIllegal]

/-! ### The obligations -/

/-- Settles O1: the row that builds the command selects its word, because the word has the command's fields. -/
theorem decodeEncodeRoundTrip : Obligations.DecodeEncodeRoundTrip := by
  intro i hwf
  obtain ⟨r, hr, hbuild⟩ := exists_row i
  rw [← fields_encode] at hbuild
  have hsel : r.selects (encode i) = true :=
    (Row.selects_iff_fields hr).2 (by rw [hbuild]; exact ⟨fields_encode i, .inl hwf⟩)
  rw [decode_of_selects hr hsel, hbuild, if_pos hwf]

/-- Settles O2: a selected word has the fields of the command its row builds, and a word is its fields. -/
theorem legalWordIsTheEncoding : Obligations.LegalWordIsTheEncoding := by
  intro w i h
  obtain ⟨r, hr, hsel, rfl, hwf⟩ := row_of_decode_legal h
  refine ⟨hwf, fields_injective ?_⟩
  rw [fields_encode]
  exact ((Row.selects_iff_fields hr).1 hsel).1.symm

/-- Settles O4: the rows' OP values differ and every mask covers OP, so the matching row is the one the decoder finds. -/
theorem decoderIsTheOpcodeTable : Obligations.DecoderIsTheOpcodeTable := by
  refine ⟨fun w => ?_, fun w r hr hsel => ⟨fun hark => ⟨_, decode_of_selects_outOfRange hr hsel hark⟩,
    decode_of_selects_legal hr hsel⟩, fun w => decode_of_no_row⟩
  have hsame : ∀ op ∈ (opcodeTable.filter (·.selects w)).map Row.opcode, op = w.extractLsb' 0 8 := by
    simp only [List.mem_map, List.mem_filter]
    rintro _ ⟨r, ⟨hr, hsel⟩, rfl⟩
    exact opcode_of_selects hr hsel
  have hnodup := opcodes_nodup.sublist ((List.filter_sublist (p := (·.selects w))).map Row.opcode)
  rw [List.eq_replicate_of_mem hsame, List.nodup_replicate, List.length_map] at hnodup
  exact hnodup

/-- Settles O5: the row with the word's OP, if there is one, is the only one that could select it. -/
theorem illegalWordsCompleteWithIllegalCommand : Obligations.IllegalWordsCompleteWithIllegalCommand :=
  ⟨fun _ => illegal_iff_reason, fun w => unassigned_iff (w.extractLsb' 0 8), fun s _ hb h =>
    ⟨_, engineStep_illegal hb h, ⟨rfl, rfl⟩, Machine.onlyStatusWritten_complete s.tick s.status _⟩⟩

/-- Settles O6 by running the decoder on each word. -/
theorem specWordsDecode : Obligations.SpecWordsDecode := by
  unfold Obligations.SpecWordsDecode
  decide

end Sys2Proof
end

section
/-! SUPPORT. The command cycle (40_command_cycle.md): what one step is by the input it takes, the issue of a word, every
command's completion, and what a failed command leaves. -/

namespace Sys2Proof.Machine

section Cycle

variable {i : Instr} {s t : State} {rest : List HostInput}

/-! ### The step by the input it takes -/

theorem step_of_noInput (h : s.inputs = []) : step s = engineStep s := by
  simp only [step, h]

theorem step_of_engineTurn (h : s.inputs = .engineTurn :: rest) : step s = engineStep { s with inputs := rest } := by
  simp only [step, h]

theorem step_of_write {off width : Nat} {v : Word} (h : s.inputs = .write off width v :: rest) :
    step s = hostWrite off width v ({ s with inputs := rest } : State).tick := by
  simp only [step, h]

/-- An idle engine has no step (40_command_cycle.md R100). -/
theorem engineStep_idle (hb : s.status.busy = false) : engineStep s = .next s := by
  simp [engineStep, hb]

/-- A busy engine runs the command its pending word stands for (40_command_cycle.md R102, R103). -/
theorem engineStep_legal (hb : s.status.busy = true) (h : decode s.pend = .legal i) :
    engineStep s = exec i s.tick := by
  simp [engineStep, State.pending, hb, h]

/-- While BUSY = 0 a write of CMD issues the word (40_command_cycle.md R101). -/
theorem State.writeWindow_issue (w : Word) (hb : s.status.busy = false) : s.writeWindow 0x00C w = s.issue w := by
  simp [writeWindow, regionOf_cmd, hb]

/-! ### Completion -/

/-- Success and failure change validity flags only (10_state.md R23). -/
theorem statusOnSuccess_ovr (st : Status) (i : Instr) : (statusOnSuccess st i).ovr = st.ovr := by
  cases i <;> rfl

theorem statusOnFailure_ovr (st : Status) (e : ErrorKind) (i : Instr) : (statusOnFailure st e i).ovr = st.ovr := by
  cases i with
  | ecSetbase => simp only [statusOnFailure]; split <;> rfl
  | _ => rfl

/-- No ending changes OVR, a flag of the host's accesses (20_memory.md R66). -/
theorem Ending.ovr_eq (h : Ending i s t) : t.status.ovr = s.status.ovr := by
  cases h with
  | fails e he => exact statusOnFailure_ovr s.status e i
  | notInvertible hi r => simp
  | succeeds u r hc hd hs ht => simp [hs, statusOnSuccess_ovr]

/-! ### Failure -/

/-- EC_SETBASE reports NotConfigured only without a curve (47_ec.md R311). -/
theorem noCurve_of_ecSetbase_notConfigured (h : exec .ecSetbase s = .next t)
    (hcode : t.errcode = ErrorKind.notConfigured.code) : s.status.ecCv = false := by
  simp only [exec, execEcSetbase] at h
  split at h
  · assumption
  · split at h <;> injection h with h <;> subst h <;> cases hcode

/-- A base point needs a curve (47_ec.md R306). -/
theorem State.Inv.ecGv_of_noCurve (hs : s.Inv) (hcv : s.status.ecCv = false) : s.status.ecGv = false := by
  by_contra hgv
  obtain ⟨hcv', -⟩ := hs.base (Bool.eq_true_of_not_eq_false hgv)
  cases hcv.symm.trans hcv'

/-- The flags a failure clears are R106's: EC_SETBASE without a curve leaves EC_GV alone, which must be 0 already. -/
theorem complete_statusOnFailure (st : Status) (e : ErrorKind) (i : Instr)
    (hbase : i = .ecSetbase → e = .notConfigured → st.ecGv = false) :
    { statusOnFailure st e i with busy := false, done := true } = statusAfterFailure st i := by
  cases i with
  | ecSetbase =>
    by_cases he : e = .notConfigured
    · simp [statusOnFailure, statusAfterFailure, he, hbase rfl he]
    · simp [statusOnFailure, statusAfterFailure, he]
  | _ => rfl

/-- A command that can meet a number that is not invertible constructs no unit, so its failure clears no flag. -/
theorem statusAfterFailure_of_mayBeNonInvertible (hi : mayBeNonInvertible i = true) (st : Status) :
    statusAfterFailure st i = { st with busy := false, done := true } := by
  cases i with
  | ecAdd | ecDbl | ecMul | ecPub | ecEnc | ecDec => rfl
  | _ => cases hi

/-- Records are added after the old ones (60_exceptions.md R352). -/
theorem State.trace_prefix_emit (s : State) (r : List (Nat × List Byte)) : s.trace <+: (s.emit r).trace := by
  rw [State.emit_trace]
  split
  · exact List.prefix_append ..
  · exact List.prefix_rfl

/-! ### NOP -/

/-- NOP is the one command with OP = 0 (30_encoding.md R83). -/
theorem eq_nop_of_opcode_zero (h : (encode i).extractLsb' 0 8 = 0) : i = .nop := by
  obtain ⟨hop, -⟩ := fieldsAreTheBits (encode i)
  rw [fields_encode, h] at hop
  cases i with
  | nop => rfl
  | _ => cases hop

end Cycle

/-! ### The obligations -/

/-- Settles O7: the step is the engine's, whose pending word is the one decoded. -/
theorem stepRunsThePendingCommand : Obligations.StepRunsThePendingCommand := by
  intro s i rest hb hi
  exact ⟨fun h => (step_of_noInput h).trans (engineStep_legal hb hi),
    fun h => (step_of_engineTurn h).trans (engineStep_legal hb hi)⟩

/-- Settles O8: the step is the engine's, and an idle engine has none. -/
theorem idleEngineRests : Obligations.IdleEngineRests := by
  intro s hb
  exact ⟨fun h => (step_of_noInput h).trans (engineStep_idle hb),
    fun rest h => (step_of_engineTurn h).trans (engineStep_idle hb)⟩

/-- Settles O9: the step is the host's write of CMD, idle or busy. -/
theorem issueLatchesTheWord : Obligations.IssueLatchesTheWord := by
  intro s w rest h
  rw [step_of_write h, hostWrite_answered _ w (by decide) (by decide)]
  exact ⟨fun hb => congrArg _ (State.writeWindow_issue w hb),
    fun hb => congrArg _ (State.writeWindow_busy w hb (.inl (by decide)))⟩

/-- Settles O16: every ending is a completion. -/
theorem everyCommandCompletes : Obligations.EveryCommandCompletes := by
  intro i s
  obtain ⟨t, h, hend⟩ := exec_ending i s
  obtain ⟨hbusy, hdone, hcode, hctrl⟩ := hend.completes
  exact ⟨t, h, hbusy, hdone, hcode, hend.ovr_eq, hctrl⟩

/-- Settles O17, by the ending. The invariant is needed for EC_SETBASE without a curve, where EC_GV must be 0 already. -/
theorem failureWritesNothingElse : Obligations.FailureWritesNothingElse := by
  intro i s t hs h herr
  cases Ending.of_exec h with
  | fails e he =>
    have hbase : i = .ecSetbase → e = .notConfigured → s.status.ecGv = false := by
      rintro rfl rfl
      exact hs.ecGv_of_noCurve (noCurve_of_ecSetbase_notConfigured h rfl)
    obtain ⟨hctrl, hreg, hmem, htrace⟩ := onlyStatusWritten_complete s (statusOnFailure s.status e i) e.code
    exact ⟨complete_statusOnFailure s.status e i hbase, hctrl, hreg, hmem, fun _ => htrace, List.prefix_rfl⟩
  | notInvertible hi r =>
    refine ⟨?_, by simp [SameControl], sameRegisters_of_fields (by simp), fun a => State.stored_congr (by simp) a,
      fun hne => absurd rfl hne, s.trace_prefix_emit r⟩
    rw [statusAfterFailure_of_mayBeNonInvertible hi]
    simp
  | succeeds => exact absurd rfl herr

/-- Settles O28: a legal word with OP = 0 is NOP's word, and NOP's meaning is completion alone. -/
theorem nopOnlyCompletes : Obligations.NopOnlyCompletes := by
  refine ⟨by decide, fun w hop hw => ?_, rfl, fun s => ?_⟩
  · cases hdec : decode w with
    | illegal why => exact ⟨why, rfl⟩
    | legal i =>
      obtain ⟨-, rfl⟩ := legalWordIsTheEncoding w i hdec
      obtain rfl := eq_nop_of_opcode_zero hop
      exact absurd (by decide) hw
  · exact ⟨s.finish, rfl, ⟨rfl, rfl⟩, onlyStatusWritten_complete s s.status 0⟩

end Sys2Proof.Machine
end

section
/-! SUPPORT. The Feistel unit (41_feistel.md): permutations by position, the laws of the round that make decryption undo
encryption, and what FEI_KEY, FEI_ENC and FEI_DEC leave. -/

namespace Sys2Proof.Machine

namespace Feistel

/-- A table's last position is the least significant output bit; the earlier ones stand above it. -/
theorem perm_append (table : List Nat) (j : Nat) {n : Nat} (m : Nat) (v : BitVec n) :
    perm (table ++ [j]) m v = (perm table m v <<< 1) ||| (BitVec.ofBool (v.getLsbD (n - j))).setWidth m := by
  simp [perm]

/-- Output bit k, counted from the right, is the input bit that the table's entry k from its end names. -/
theorem getLsbD_perm {table : List Nat} {n m : Nat} (v : BitVec n) {k j : Nat} (hk : k < m)
    (hj : table.reverse[k]? = some j) : (perm table m v).getLsbD k = v.getLsbD (n - j) := by
  induction table using List.reverseRecOn generalizing k with
  | nil => simp at hj
  | append_singleton table i ih =>
    rw [perm_append]
    cases k with
    | zero => simp_all
    | succ k =>
      have hkm : k < m := by omega
      have hprev : (perm table m v).getLsbD k = v.getLsbD (n - j) := ih hkm (by simpa using hj)
      simpa [hk, hkm] using hprev

/-- Two tables of positions undo each other when each entry of the second finds its own position in the first
(41_feistel.md R121). -/
theorem perm_perm_of_inverse {table inv : List Nat} {m : Nat}
    (h : ∀ k < m, ∃ l < m, inv.reverse[k]? = some (m - l) ∧ table.reverse[l]? = some (m - k)) (v : BitVec m) :
    perm inv m (perm table m v) = v := by
  refine BitVec.eq_of_getLsbD_eq fun k hk => ?_
  obtain ⟨l, hl, hinv, htable⟩ := h k hk
  rw [getLsbD_perm _ hk hinv, Nat.sub_sub_self hl.le, getLsbD_perm _ hl htable, Nat.sub_sub_self hk.le]

/-- IP⁻¹ undoes IP (41_feistel.md R120). -/
@[simp] theorem ipInv_ip (v : Byte) : perm Config.ipInv 8 (perm Config.ip 8 v) = v :=
  perm_perm_of_inverse (by decide) v

/-- IP undoes IP⁻¹ (41_feistel.md R120). -/
@[simp] theorem ip_ipInv (v : Byte) : perm Config.ip 8 (perm Config.ipInv 8 v) = v :=
  perm_perm_of_inverse (by decide) v

/-- The swap is its own inverse (41_feistel.md R127). -/
@[simp] theorem sw_sw (x : Byte) : sw (sw x) = x := by
  simp only [sw, BitVec.extractLsb'_append_eq_left, BitVec.extractLsb'_append_eq_right]
  exact BitVec.extractLsb'_append_extractLsb'

/-- A round is its own inverse under the same subkey: it keeps the right half, so F's value cancels (41_feistel.md R126). -/
@[simp] theorem fk_fk (x k : Byte) : fk (fk x k) k = x := by
  simp only [fk, BitVec.extractLsb'_append_eq_left, BitVec.extractLsb'_append_eq_right, BitVec.xor_assoc,
    BitVec.xor_self, BitVec.xor_zero]
  exact BitVec.extractLsb'_append_extractLsb'

/-- Decryption's values are encryption's with the subkeys exchanged (41_feistel.md R130). -/
theorem decSteps_eq_encSteps (k1 k2 c : Byte) : decSteps k1 k2 c = encSteps k2 k1 c := rfl

/-- Decryption undoes encryption under any two subkeys (41_feistel.md R137). -/
theorem sdesDec_sdesEnc (k1 k2 p : Byte) : sdesDec k1 k2 (sdesEnc k1 k2 p) = p := by
  simp only [sdesDec, decSteps, sdesEnc, encSteps, ip_ipInv, fk_fk, sw_sw, ipInv_ip]

end Feistel

section Commands

variable {s : State}

/-- FEI_KEY with a LEN other than 10 (41_feistel.md R133). -/
theorem execFeiKey_invalidLength {len : Byte} (hlen : len ≠ 10) :
    execFeiKey len s = .next ((s.setFeiKv false).raise .invalidKeyLength) := if_pos hlen

/-- What FEI_KEY leaves when it succeeds (41_feistel.md R133). -/
theorem execFeiKey_next (s : State) : ∃ t, execFeiKey 10 s = .next t ∧
    (let ks := Feistel.schedule s.feistelKey
     CompletedWith t { s.status with feiKv := true } ∧ StoredAt t 0x3B0 [ks.1, ks.2] ∧ SameStorageOutside 0x3B0 2 s t ∧
     SameControl s t ∧ SameRegisters s t ∧ TraceGrowsBy [(1, [ks.1]), (2, [ks.2])] s t) :=
  ⟨_, rfl, stores_spec (s := s) (fun u => (u.writeBytes feiK1Addr _).setFeiKv true) _ 0x3B0 _ (fun _ => rfl)⟩

/-- FEI_ENC and FEI_DEC without a key (41_feistel.md R134, R135). -/
theorem feistelBlock_notConfigured (steps : Byte → Byte → Byte → Byte × Byte × Byte × Byte) (len : Byte)
    (hk : s.status.feiKv = false) : feistelBlock steps len s = .next (s.raise .notConfigured) := if_pos hk

/-- FEI_ENC and FEI_DEC with a key and a LEN other than 8 (41_feistel.md R134, R135). -/
theorem feistelBlock_invalidLength (steps : Byte → Byte → Byte → Byte × Byte × Byte × Byte) {len : Byte}
    (hk : s.status.feiKv = true) (hlen : len ≠ 8) :
    feistelBlock steps len s = .next (s.raise .invalidBlockLength) := by
  rw [feistelBlock, if_neg (by simp [hk]), if_pos hlen]

/-- FEI_ENC and FEI_DEC are one shape (41_feistel.md R134, R135). -/
theorem exec_eq_feistelBlock {i : Instr} {len : Byte} (hi : i = .feiEnc len ∨ i = .feiDec len) :
    ∃ steps, exec i s = feistelBlock steps len s := by
  obtain rfl | rfl := hi
  · exact ⟨Feistel.encSteps, rfl⟩
  · exact ⟨Feistel.decSteps, rfl⟩

/-- At the stored subkeys the steps of FEI_ENC and FEI_DEC are encryption's under `first`, then `second`
(41_feistel.md R129, R130). -/
theorem exec_eq_feistelBlock_encSteps {i : Instr} {len first second : Byte}
    (hi : (i = .feiEnc len ∧ first = s.feiK1 ∧ second = s.feiK2) ∨
      (i = .feiDec len ∧ first = s.feiK2 ∧ second = s.feiK1)) :
    ∃ steps, exec i s = feistelBlock steps len s ∧
      steps s.feiK1 s.feiK2 (s.din 0) = Feistel.encSteps first second (s.din 0) := by
  obtain ⟨rfl, rfl, rfl⟩ | ⟨rfl, rfl, rfl⟩ := hi
  · exact ⟨Feistel.encSteps, rfl, rfl⟩
  · exact ⟨Feistel.decSteps, rfl, Feistel.decSteps_eq_encSteps _ _ _⟩

end Commands

/-! ### The obligations -/

/-- Settles O29: the length error clears FEI_KV alone, and LEN = 10 is one store of the two subkeys. -/
theorem feiKeyStoresTheSchedule : Obligations.FeiKeyStoresTheSchedule := by
  refine ⟨fun s len hlen => ?_, fun s => ?_, by decide⟩
  · exact ⟨_, execFeiKey_invalidLength hlen, ⟨rfl, rfl⟩, onlyStatusWritten_complete s _ _⟩
  · obtain ⟨t, ht, hdone, hstored, hout, hctrl, hreg, htrace⟩ := execFeiKey_next s
    exact ⟨t, _, _, ht, rfl, hdone, hstored 0 (by simp), hstored 1 (by simp), hout, hctrl, hreg, htrace⟩

/-- Settles O30: both commands are `feistelBlock`, and FEI_DEC's steps are FEI_ENC's with the subkeys exchanged. -/
theorem feiBlockCommands : Obligations.FeiBlockCommands := by
  refine ⟨fun s len i hi => ?_, fun s i first second hk hi => ?_⟩
  · obtain ⟨steps, hexec⟩ := exec_eq_feistelBlock (s := s) hi
    refine ⟨fun hk => ?_, fun hk hlen => ?_⟩
    · exact ⟨_, hexec.trans (feistelBlock_notConfigured steps len hk), ⟨rfl, rfl⟩,
        onlyStatusWritten_complete s s.status _⟩
    · exact ⟨_, hexec.trans (feistelBlock_invalidLength steps hk hlen), ⟨rfl, rfl⟩,
        onlyStatusWritten_complete s s.status _⟩
  · obtain ⟨steps, hexec, hsteps⟩ := exec_eq_feistelBlock_encSteps hi
    have hnext := feistelBlock_next steps s hk
    rw [hsteps] at hnext
    obtain ⟨t, ht, hdone, hstored, hout, hctrl, hreg, htrace⟩ := hnext
    exact ⟨t, hexec.trans ht, hdone, ⟨hstored, htrace⟩, hout, hctrl, hreg⟩

/-- Settles O31: the rounds are undone in reverse order, whatever the subkeys. -/
theorem feistelRoundTrip : Obligations.FeistelRoundTrip :=
  fun key p => Feistel.sdesDec_sdesEnc (Feistel.schedule key).1 (Feistel.schedule key).2 p

end Sys2Proof.Machine
end

section
/-! SUPPORT. The laws of GF(2^8) (42_aes_key_expansion.md R151): the product is linear in each factor, commutes with
`xtime` and is associative. The bytes are generated from 1 by `xtime` and XOR, so a law that both keep holds of every byte
once it holds of 0 and 1. -/

namespace Sys2Proof.Machine.Aes

/-- `xtime` without its ninth bit: the shift drops bit 7, and 0x11B then leaves 0x1B (42_aes_key_expansion.md R151). -/
theorem xtime_eq (a : Byte) : xtime a = a <<< 1 ^^^ (if a.getLsbD 7 then 0x1B#8 else 0#8) := by
  have hshift : (a.setWidth 9 <<< 1).setWidth 8 = a <<< 1 := by
    ext i hi
    simp
  have hbit : (a.setWidth 9 <<< 1).getLsbD 8 = a.getLsbD 7 := by simp
  simp only [xtime, hbit]
  split
  · rw [BitVec.setWidth_xor, hshift]
    rfl
  · rw [hshift, BitVec.xor_zero]

@[simp] theorem xtime_zero : xtime 0#8 = 0#8 := by decide

/-- A byte selected by the XOR of two bits is the XOR of what each bit selects. -/
theorem select_xor (p q : Bool) (c : Byte) :
    (if p ^^ q then c else 0#8) = (if p then c else 0#8) ^^^ (if q then c else 0#8) := by
  cases p <;> cases q <;> simp

theorem xtime_xor (a b : Byte) : xtime (a ^^^ b) = xtime a ^^^ xtime b := by
  have hshift : (a ^^^ b) <<< 1 = a <<< 1 ^^^ b <<< 1 := BitVec.shiftLeft_xor_distrib a b 1
  rw [xtime_eq, xtime_eq, xtime_eq, hshift, BitVec.getLsbD_xor, select_xor]
  ac_rfl

/-! ### The loop of the product -/

/-- Whatever holds of the loop's start and is kept by `xtime` and XOR holds of its result. -/
theorem gmulFrom_induction {P : Byte → Prop} (hx : ∀ a, P a → P (xtime a)) (hxor : ∀ a b, P a → P b → P (a ^^^ b))
    (b : Byte) (n i : Nat) {a r : Byte} (ha : P a) (hr : P r) : P (gmulFrom b n i a r) := by
  induction n generalizing i a r with
  | zero => exact hr
  | succ n ih =>
    refine ih (i + 1) (hx a ha) ?_
    split
    · exact hxor r a hr ha
    · exact hr

theorem gmulFrom_xor_left (b : Byte) (n i : Nat) (a a' r r' : Byte) :
    gmulFrom b n i (a ^^^ a') (r ^^^ r') = gmulFrom b n i a r ^^^ gmulFrom b n i a' r' := by
  induction n generalizing i a a' r r' with
  | zero => rfl
  | succ n ih =>
    rw [gmulFrom, gmulFrom, gmulFrom, xtime_xor, ← ih]
    congr 1
    split
    · ac_rfl
    · rfl

theorem gmulFrom_succ (b : Byte) (n i : Nat) (a r : Byte) :
    gmulFrom b (n + 1) i a r = gmulFrom b n (i + 1) (xtime a) (r ^^^ (if b.getLsbD i then a else 0#8)) := by
  rw [gmulFrom]
  split
  · rfl
  · rw [BitVec.xor_zero]

theorem gmulFrom_xor_right (b b' : Byte) (n i : Nat) (a r r' : Byte) :
    gmulFrom (b ^^^ b') n i a (r ^^^ r') = gmulFrom b n i a r ^^^ gmulFrom b' n i a r' := by
  induction n generalizing i a r r' with
  | zero => rfl
  | succ n ih =>
    rw [gmulFrom_succ, gmulFrom_succ, gmulFrom_succ, ← ih, BitVec.getLsbD_xor, select_xor]
    congr 1
    ac_rfl

theorem gmulFrom_xtime (b : Byte) (n i : Nat) (a r : Byte) :
    gmulFrom b n i (xtime a) (xtime r) = xtime (gmulFrom b n i a r) := by
  induction n generalizing i a r with
  | zero => rfl
  | succ n ih =>
    rw [gmulFrom, gmulFrom, ← ih]
    congr 1
    split
    · rw [xtime_xor]
    · rfl

/-! ### The product -/

theorem gmul_xor_left (a b c : Byte) : gmul (a ^^^ b) c = gmul a c ^^^ gmul b c :=
  gmulFrom_xor_left c 8 0 a b 0 0

theorem gmul_xor_right (a b c : Byte) : gmul a (b ^^^ c) = gmul a b ^^^ gmul a c :=
  gmulFrom_xor_right b c 8 0 a 0 0

theorem gmul_xtime_left (a b : Byte) : gmul (xtime a) b = xtime (gmul a b) :=
  gmulFrom_xtime b 8 0 a 0

@[simp] theorem gmul_zero (a : Byte) : gmul a 0#8 = 0#8 := by
  simp [gmul, gmulFrom]

@[simp] theorem gmul_one (a : Byte) : gmul a 1#8 = a := by
  simp [gmul, gmulFrom]

@[simp] theorem zero_gmul (a : Byte) : gmul 0#8 a = 0#8 := by
  simpa using gmul_xor_left 0#8 0#8 a

/-- Bit i of `b` selects `xtime` of 1 taken i times, which is 2^i. -/
@[simp] theorem one_gmul (b : Byte) : gmul 1#8 b = b := by
  revert b
  decide +kernel

/-- A property of 0 and 1 that `xtime` and XOR keep holds of every byte, since every byte is 1 times itself. -/
theorem byte_induction {P : Byte → Prop} (h0 : P 0#8) (h1 : P 1#8) (hx : ∀ a, P a → P (xtime a))
    (hxor : ∀ a b, P a → P b → P (a ^^^ b)) (b : Byte) : P b :=
  one_gmul b ▸ gmulFrom_induction hx hxor b 8 0 h1 h0

theorem gmul_xtime_right (a b : Byte) : gmul a (xtime b) = xtime (gmul a b) := by
  induction a using byte_induction with
  | h0 => simp
  | h1 => simp
  | hx a ih => rw [gmul_xtime_left, ih, gmul_xtime_left]
  | hxor a a' ih ih' => rw [gmul_xor_left, ih, ih', gmul_xor_left, xtime_xor]

theorem gmul_assoc (a b c : Byte) : gmul (gmul a b) c = gmul a (gmul b c) := by
  induction c using byte_induction with
  | h0 => simp
  | h1 => simp
  | hx c ih => simp only [gmul_xtime_right, ih]
  | hxor c c' ih ih' => simp only [gmul_xor_right, ih, ih']

end Sys2Proof.Machine.Aes
end

section
/-! SUPPORT. The AES substitution tables (42_aes_key_expansion.md R152 to R154): the S-box is an inverse in GF(2^8)
followed by the affine map, and the two tables undo each other. -/

namespace Sys2Proof.Machine

namespace Aes

/-- The affine map A of the S-box (42_aes_key_expansion.md R153). -/
def affine (y : Byte) : Byte :=
  y ^^^ y.rotateLeft 1 ^^^ y.rotateLeft 2 ^^^ y.rotateLeft 3 ^^^ y.rotateLeft 4 ^^^ 0x63

/-- The affine map that undoes A. -/
def invAffine (s : Byte) : Byte := s.rotateLeft 1 ^^^ s.rotateLeft 3 ^^^ s.rotateLeft 6 ^^^ 0x05

@[simp] theorem affine_invAffine (s : Byte) : affine (invAffine s) = s := by
  revert s
  decide +kernel

/-- The table's entry for a byte that is not 0 is A of the byte's inverse (42_aes_key_expansion.md R152, R153). -/
theorem gmul_invAffine_sbox (x : Byte) (hx : x ≠ 0) : gmul x (invAffine (sbox x)) = 1 := by
  revert x
  decide +kernel

@[simp] theorem invAffine_sbox_zero : invAffine (sbox 0#8) = 0#8 := by decide

/-- INV_SBOX is the inverse permutation of SBOX (42_aes_key_expansion.md R154). -/
@[simp] theorem invSbox_sbox (x : Byte) : invSbox (sbox x) = x := by
  revert x
  decide +kernel

@[simp] theorem sbox_invSbox (x : Byte) : sbox (invSbox x) = x := by
  revert x
  decide +kernel

end Aes

/-- Settles O32: the inverse is what undoing A gives of the table's entry. -/
theorem sboxIsInverseThenAffine : Obligations.SboxIsInverseThenAffine := by
  intro x
  refine ⟨Aes.invAffine (Aes.sbox x), ?_, (Aes.affine_invAffine (Aes.sbox x)).symm⟩
  by_cases hx : x = 0
  · subst hx
    exact .inl ⟨rfl, Aes.invAffine_sbox_zero⟩
  · exact .inr (Aes.gmul_invAffine_sbox x hx)

end Sys2Proof.Machine
end

section
/-! SUPPORT. The AES round transforms (43_aes_rounds.md) element by element: each inverse transform undoes its transform,
MixColumns by the product of the two matrices. -/

namespace Sys2Proof.Machine

namespace Aes

@[simp] theorem el_grid (g : Fin 4 → Fin 4 → Byte) (r c : Fin 4) : el (grid g) r c = g r c := by
  have hr : (r.val + 4 * c.val) % 4 = r.val := by omega
  have hc : (r.val + 4 * c.val) / 4 = c.val := by omega
  simp [el, grid, hr, hc]

@[simp] theorem grid_el (b : Block) : (grid fun r c => el b r c) = b := by
  ext i hi
  simp [el, grid, Nat.mod_add_div]

/-- A block is its elements (43_aes_rounds.md R180). -/
theorem ext_el {b b' : Block} (h : ∀ r c, el b r c = el b' r c) : b = b' := by
  rw [← grid_el b, ← grid_el b']
  simp only [h]

@[simp] theorem invSubBytes_subBytes (b : Block) : invSubBytes (subBytes b) = b := by
  simp [invSubBytes, subBytes]

@[simp] theorem subBytes_invSubBytes (b : Block) : subBytes (invSubBytes b) = b := by
  simp [invSubBytes, subBytes]

@[simp] theorem invShiftRows_shiftRows (b : Block) : invShiftRows (shiftRows b) = b := by
  simp [invShiftRows, shiftRows]

@[simp] theorem shiftRows_invShiftRows (b : Block) : shiftRows (invShiftRows b) = b := by
  simp [invShiftRows, shiftRows]

@[simp] theorem addRoundKey_addRoundKey (key b : Block) : addRoundKey key (addRoundKey key b) = b := by
  ext i hi
  simp [addRoundKey]

/-! ### Products of matrices -/

/-- Entry (r, k) of a matrix held by rows. -/
def matrixEntry (m : List (List Byte)) (r k : Nat) : Byte := (m.getD r []).getD k 0

/-- The product of two 4 × 4 matrices over GF(2^8). -/
def mulMatrix (m n : List (List Byte)) : List (List Byte) :=
  List.ofFn fun r : Fin 4 => List.ofFn fun j : Fin 4 =>
    gmul (matrixEntry m r 0) (matrixEntry n 0 j) ^^^ gmul (matrixEntry m r 1) (matrixEntry n 1 j) ^^^
    gmul (matrixEntry m r 2) (matrixEntry n 2 j) ^^^ gmul (matrixEntry m r 3) (matrixEntry n 3 j)

/-- The 4 × 4 identity matrix. -/
def identityMatrix : List (List Byte) := [[1, 0, 0, 0], [0, 1, 0, 0], [0, 0, 1, 0], [0, 0, 0, 1]]

theorem matrixEntry_mulMatrix (m n : List (List Byte)) (r j : Fin 4) : matrixEntry (mulMatrix m n) r j =
    gmul (matrixEntry m r 0) (matrixEntry n 0 j) ^^^ gmul (matrixEntry m r 1) (matrixEntry n 1 j) ^^^
    gmul (matrixEntry m r 2) (matrixEntry n 2 j) ^^^ gmul (matrixEntry m r 3) (matrixEntry n 3 j) := by
  simp [matrixEntry, mulMatrix, List.getD_eq_getElem?_getD, -List.ofFn_succ]

/-- An element of the product with a matrix: its row times the element's column (43_aes_rounds.md R183). -/
theorem el_mulColumns (m : List (List Byte)) (b : Block) (r c : Fin 4) : el (mulColumns m b) r c =
    gmul (matrixEntry m r (0 : Fin 4)) (el b 0 c) ^^^ gmul (matrixEntry m r (1 : Fin 4)) (el b 1 c) ^^^
    gmul (matrixEntry m r (2 : Fin 4)) (el b 2 c) ^^^ gmul (matrixEntry m r (3 : Fin 4)) (el b 3 c) := el_grid _ r c

/-- Two multiplications of the columns are one by the product of the matrices. -/
theorem mulColumns_mulColumns (m n : List (List Byte)) (b : Block) :
    mulColumns m (mulColumns n b) = mulColumns (mulMatrix m n) b := by
  refine ext_el fun r c => ?_
  simp only [el_mulColumns, matrixEntry_mulMatrix, gmul_xor_right, gmul_xor_left, gmul_assoc]
  ac_rfl

@[simp] theorem mulColumns_identityMatrix (b : Block) : mulColumns identityMatrix b = b := by
  refine ext_el fun r c => ?_
  rw [el_mulColumns]
  fin_cases r <;> simp [matrixEntry, identityMatrix]

theorem invMixMatrix_mul_mixMatrix : mulMatrix Config.invMixMatrix Config.mixMatrix = identityMatrix := by
  decide +kernel

theorem mixMatrix_mul_invMixMatrix : mulMatrix Config.mixMatrix Config.invMixMatrix = identityMatrix := by
  decide +kernel

@[simp] theorem invMixColumns_mixColumns (b : Block) : invMixColumns (mixColumns b) = b := by
  rw [invMixColumns, mixColumns, mulColumns_mulColumns, invMixMatrix_mul_mixMatrix, mulColumns_identityMatrix]

@[simp] theorem mixColumns_invMixColumns (b : Block) : mixColumns (invMixColumns b) = b := by
  rw [invMixColumns, mixColumns, mulColumns_mulColumns, mixMatrix_mul_invMixMatrix, mulColumns_identityMatrix]

end Aes

/-- Settles O33, transform by transform. -/
theorem inverseTransformsUndo : Obligations.InverseTransformsUndo := fun b key =>
  ⟨Aes.invSubBytes_subBytes b, Aes.subBytes_invSubBytes b, Aes.invShiftRows_shiftRows b, Aes.shiftRows_invShiftRows b,
    Aes.invMixColumns_mixColumns b, Aes.mixColumns_invMixColumns b, Aes.addRoundKey_addRoundKey key b⟩

end Sys2Proof.Machine
end

section
/-! SUPPORT. The AES key schedule (42_aes_key_expansion.md): its words begin with the key and follow the recurrence of
R160, its bytes are its words in order, and what AES_KEYEXP leaves. -/

namespace Sys2Proof.Machine

namespace Aes

/-! ### The words of the schedule -/

/-- `n` more words of a schedule, each computed from the words before it (42_aes_key_expansion.md R160). -/
def extend (ws : List KeyWord) (n : Nat) : List KeyWord :=
  (List.range' ws.length n).foldl (fun ws i => ws ++ [nextWord ws i]) ws

theorem schedule_eq_extend (key : Block) : schedule key = extend (keyWords key) 40 := rfl

theorem extend_succ (ws : List KeyWord) (n : Nat) :
    extend ws (n + 1) = extend (ws ++ [nextWord ws ws.length]) n := by
  simp [extend, List.range'_succ]

theorem prefix_extend (ws : List KeyWord) (n : Nat) : ws <+: extend ws n := by
  induction n generalizing ws with
  | zero => exact List.prefix_rfl
  | succ n ih => exact extend_succ ws n ▸ (List.prefix_append ws _).trans (ih _)

theorem extend_length (ws : List KeyWord) (n : Nat) : (extend ws n).length = ws.length + n := by
  induction n generalizing ws with
  | zero => rfl
  | succ n ih => simp [extend_succ, ih, Nat.add_assoc, Nat.add_comm 1 n]

theorem schedule_length (key : Block) : (schedule key).length = 44 := by
  rw [schedule_eq_extend, extend_length]
  rfl

/-- Every word from w[4] on is what the recurrence gives of the words before it (42_aes_key_expansion.md R160). -/
def FollowsRecurrence (ws : List KeyWord) : Prop :=
  ∀ i, 4 ≤ i → i < ws.length → ws.getD i zeroWord = nextWord ws i

/-- The recurrence looks at words before the i-th only. -/
theorem nextWord_append {ws : List KeyWord} (vs : List KeyWord) {i : Nat} (h4 : 4 ≤ i) (hi : i ≤ ws.length) :
    nextWord (ws ++ vs) i = nextWord ws i := by
  rw [nextWord, nextWord, List.getD_append _ _ _ _ (by omega), List.getD_append _ _ _ _ (by omega)]

theorem FollowsRecurrence.append_nextWord {ws : List KeyWord} (h : FollowsRecurrence ws) :
    FollowsRecurrence (ws ++ [nextWord ws ws.length]) := by
  intro i h4 hi
  rw [List.length_append, List.length_singleton] at hi
  rw [nextWord_append _ h4 (by omega)]
  by_cases hlt : i < ws.length
  · rw [List.getD_append _ _ _ _ hlt, h i h4 hlt]
  · obtain rfl : i = ws.length := by omega
    simp

theorem FollowsRecurrence.extend {ws : List KeyWord} (h : FollowsRecurrence ws) (n : Nat) :
    FollowsRecurrence (extend ws n) := by
  induction n generalizing ws with
  | zero => exact h
  | succ n ih => exact extend_succ ws n ▸ ih h.append_nextWord

/-- The schedule follows the recurrence to its last word: the key's own four words are before it begins. -/
theorem followsRecurrence_schedule (key : Block) : FollowsRecurrence (schedule key) := by
  have hkey : FollowsRecurrence (keyWords key) := fun i h4 hi => absurd hi (by simpa [keyWords] using h4)
  exact schedule_eq_extend key ▸ hkey.extend 40

/-! ### The bytes of the schedule -/

theorem scheduleBytes_cons (w : KeyWord) (ws : List KeyWord) :
    scheduleBytes (w :: ws) = w.toList ++ scheduleBytes ws := List.flatMap_cons

theorem scheduleBytes_append (ws vs : List KeyWord) :
    scheduleBytes (ws ++ vs) = scheduleBytes ws ++ scheduleBytes vs := List.flatMap_append

theorem scheduleBytes_drop (ws : List KeyWord) (k : Nat) :
    scheduleBytes (ws.drop k) = (scheduleBytes ws).drop (4 * k) := by
  induction ws generalizing k with
  | nil => simp [scheduleBytes]
  | cons w ws ih =>
    cases k with
    | zero => rfl
    | succ k => simp [scheduleBytes_cons, ih, List.drop_append, Nat.mul_succ]

theorem scheduleBytes_take (ws : List KeyWord) (k : Nat) :
    scheduleBytes (ws.take k) = (scheduleBytes ws).take (4 * k) := by
  induction ws generalizing k with
  | nil => simp [scheduleBytes]
  | cons w ws ih =>
    cases k with
    | zero => rfl
    | succ k => simp [scheduleBytes_cons, ih, List.take_append, Nat.mul_succ]

/-- Word i byte j is byte 4i + j (10_state.md R30). -/
theorem scheduleBytes_getElem? {ws : List KeyWord} {i j : Nat} (hi : i < ws.length) (hj : j < 4) :
    (scheduleBytes ws)[4 * i + j]? = some (ws.getD i zeroWord)[j] := by
  rw [← List.getElem?_drop, ← scheduleBytes_drop, List.drop_eq_getElem_cons hi, scheduleBytes_cons,
    List.getElem?_append_left (by simpa using hj)]
  simp [hi, hj]

theorem scheduleBytes_keyWords (key : Block) : scheduleBytes (keyWords key) = key.toList := by
  refine List.ext_getElem (by simp [scheduleBytes, keyWords]) fun i hi _ => ?_
  have hlt : i < 16 := by simpa [scheduleBytes, keyWords] using hi
  interval_cases i <;> rfl

/-- The schedule begins with the key (42_aes_key_expansion.md R157). -/
theorem scheduleBytes_schedule_getElem? (key : Block) {j : Nat} (hj : j < 16) :
    (scheduleBytes (schedule key))[j]? = some key[j] := by
  obtain ⟨vs, hvs⟩ := prefix_extend (keyWords key) 40
  rw [schedule_eq_extend, ← hvs, scheduleBytes_append, scheduleBytes_keyWords,
    List.getElem?_append_left (by simpa using hj)]
  simp [hj]

end Aes

/-! ### The schedule in RK -/

/-- What stands in storage is read back. -/
theorem StoredAt.bytes_eq {t : State} {lo k n : Nat} {bs : List Byte} (h : StoredAt t lo bs) (hn : k + n ≤ bs.length) :
    t.bytes (lo + k) n = (bs.drop k).take n := by
  refine List.ext_getElem? fun j => ?_
  rw [State.bytes_getElem?, List.getElem?_take, List.getElem?_drop]
  split
  · have hstored := h (k + j) (by omega)
    rw [List.getElem?_eq_getElem (by omega)] at hstored ⊢
    rw [Nat.add_assoc, State.byte_of_stored hstored]
  · rfl

section Commands

variable {s t : State}

/-- With the schedule's bytes in RK, its words are RK's words (10_state.md R30). -/
theorem rkWord_of_storedAt {ws : List Aes.KeyWord} (h : StoredAt t rkBase (Aes.scheduleBytes ws))
    {i : Nat} (hi : i < ws.length) : t.rkWord i = ws.getD i Aes.zeroWord := by
  refine Vector.ext fun j hj => ?_
  have hbyte := Aes.scheduleBytes_getElem? hi hj
  have hstored := h (4 * i + j) (List.getElem?_eq_some_iff.1 hbyte).1
  rw [hbyte, ← Nat.add_assoc] at hstored
  simp [State.rkWord, State.byte_of_stored hstored]

/-- AES_KEYEXP with a LEN other than 16 (42_aes_key_expansion.md R160). -/
theorem execAesKeyexp_invalidLength {len : Byte} (hlen : len ≠ 16) :
    execAesKeyexp len s = .next ((s.setAesKv false).raise .invalidKeyLength) := if_pos hlen

/-- What AES_KEYEXP leaves when it succeeds (42_aes_key_expansion.md R160, R161). -/
theorem execAesKeyexp_next (s : State) : ∃ t, execAesKeyexp 16 s = .next t ∧
    CompletedWith t { s.status with aesKv := true } ∧ StoredAt t 0x300 (Aes.scheduleBytes (Aes.schedule s.dinBlock)) ∧
    SameStorageOutside 0x300 176 s t ∧ SameControl s t ∧ SameRegisters s t ∧
    TraceGrowsBy (Aes.keyRecords (Aes.schedule s.dinBlock)) s t := by
  have hl := Aes.scheduleBytes_length s.dinBlock
  rw [execAesKeyexp, if_neg (by simp)]
  generalize Aes.schedule s.dinBlock = ws at hl
  exact ⟨_, rfl, hl ▸ stores_spec (s := s) (fun u => (u.writeBytes rkBase (Aes.scheduleBytes ws)).setAesKv true) _ 0x300 _
    (fun _ => rfl)⟩

/-- The eleven records are the round keys in RK (42_aes_key_expansion.md R161, R162). -/
theorem keyRecords_of_storedAt {ws : List Aes.KeyWord} (h : StoredAt t 0x300 (Aes.scheduleBytes ws))
    (hl : (Aes.scheduleBytes ws).length = 176) :
    Aes.keyRecords ws = (List.range 11).map fun r => (r, t.bytes (0x300 + 16 * r) 16) := by
  refine List.map_congr_left fun r hr => ?_
  rw [List.mem_range] at hr
  rw [Aes.scheduleBytes_take, Aes.scheduleBytes_drop, h.bytes_eq (by omega), ← Nat.mul_assoc]

end Commands

/-- Settles O34: the length error clears AES_KV alone, and LEN = 16 is one store of the schedule of DIN[0..15]. -/
theorem aesKeyexpStoresTheSchedule : Obligations.AesKeyexpStoresTheSchedule := by
  refine ⟨fun s len hlen => ?_, fun s => ?_⟩
  · exact ⟨_, execAesKeyexp_invalidLength hlen, ⟨rfl, rfl⟩, onlyStatusWritten_complete s _ _⟩
  · obtain ⟨t, ht, hdone, hstored, hout, hctrl, hreg, htrace⟩ := execAesKeyexp_next s
    have hl := Aes.scheduleBytes_length s.dinBlock
    have hword : ∀ i < 44, t.rkWord i = (Aes.schedule s.dinBlock).getD i Aes.zeroWord :=
      fun i hi => rkWord_of_storedAt hstored (by rwa [Aes.schedule_length])
    refine ⟨t, ht, hdone, aesKeyexp_scheduleStored ht (by rw [hdone.2]), fun j hj => ?_, fun i h4 hi => ?_, hout, hctrl,
      hreg, keyRecords_of_storedAt hstored hl ▸ htrace⟩
    · rw [hstored j (by omega), Aes.scheduleBytes_schedule_getElem? _ hj]
      simp [State.dinBlock, State.block, dinBase]
    · rw [hword i hi, hword (i - 4) (by omega), hword (i - 1) (by omega)]
      exact Aes.followsRecurrence_schedule s.dinBlock i h4 (by rwa [Aes.schedule_length])

end Sys2Proof.Machine
end

section
/-! SUPPORT. The AES round pipeline (43_aes_rounds.md): the cipher's and the inverse cipher's states are the round states of
R188 and R189, the inverse cipher undoes the cipher, and what the block commands and the step commands leave. -/

namespace Sys2Proof.Machine

namespace Aes

variable (rk : Nat → Block) (b : Block)

/-! ### The cipher's states -/

theorem encState_succ_of_middle {r : Nat} (hr : r < 9) :
    encState rk b (r + 1) = encRound (rk (r + 1)) (encState rk b r) := by
  simp only [encState, encRound, if_neg (show ¬ r + 1 = 10 by omega)]

/-- Middle rounds in turn from the state after round r (43_aes_rounds.md R188). -/
theorem encRounds_range' {r n : Nat} (h : r + n ≤ 9) :
    encRounds rk (List.range' (r + 1) n) (encState rk b r) = (List.range' (r + 1) n).map (encState rk b) := by
  induction n generalizing r with
  | zero => rfl
  | succ n ih =>
    rw [List.range'_succ, encRounds, List.map_cons, ← encState_succ_of_middle rk b (by omega), ih (by omega)]

theorem cipherStates_eq : cipherStates rk b = (List.range 11).map (encState rk b) := by
  have hmiddle : encRounds rk [1, 2, 3, 4, 5, 6, 7, 8, 9] (addRoundKey (rk 0) b) =
      (List.range' 1 9).map (encState rk b) := encRounds_range' rk b (r := 0) (n := 9) le_rfl
  rw [cipherStates, hmiddle]
  rfl

theorem cipher_eq : cipher rk b = encState rk b 10 := by
  rw [cipher, cipherStates_eq]
  rfl

/-! ### The inverse cipher's states -/

/-- What round 9 - j of the inverse cipher takes: InvMixColumns stands between two rounds, and not before the first
(43_aes_rounds.md R189). -/
def decInput : Nat → Block
  | 0 => decState rk b 0
  | j + 1 => invMixColumns (decState rk b (j + 1))

theorem decState_succ (j : Nat) : decState rk b (j + 1) = decRound (rk (10 - (j + 1))) (decInput rk b j) := by
  cases j <;> rfl

/-- Rounds of the inverse cipher in turn from round 9 - j on (43_aes_rounds.md R189). -/
theorem decRounds_range' (j n : Nat) :
    decRounds rk ((List.range' (j + 1) n).map (10 - ·)) (decInput rk b j) =
      (List.range' (j + 1) n).map (decState rk b) := by
  induction n generalizing j with
  | zero => rfl
  | succ n ih => rw [List.range'_succ, List.map_cons, decRounds, List.map_cons, ← decState_succ, ← ih (j + 1), decInput]

theorem invCipherStates_eq : invCipherStates rk b = (List.range 11).map (decState rk b) :=
  congrArg (decState rk b 0 :: ·) (decRounds_range' rk b 0 10)

theorem invCipher_eq : invCipher rk b = decState rk b 10 := by
  rw [invCipher, invCipherStates_eq]
  rfl

/-! ### Decryption undoes encryption -/

/-- A round of the inverse cipher that takes what SubBytes and ShiftRows made of the cipher's state r leaves that state
with its round key taken off. -/
theorem decState_succ_of_decInput {c : Block} {j r : Nat} (hr : j + r = 9)
    (h : decInput rk c j = shiftRows (subBytes (encState rk b r))) :
    decState rk c (j + 1) = addRoundKey (rk r) (encState rk b r) := by
  rw [decState_succ, h, decRound, invShiftRows_shiftRows, invSubBytes_subBytes, show 10 - (j + 1) = r by omega]

/-- On the cipher's result, each round of the inverse cipher takes what SubBytes and ShiftRows made of the cipher's state
at the other end (43_aes_rounds.md R188, R189). -/
theorem decInput_encState {j r : Nat} (hr : j + r = 9) :
    decInput rk (encState rk b 10) j = shiftRows (subBytes (encState rk b r)) := by
  induction j generalizing r with
  | zero =>
    obtain rfl : r = 9 := by omega
    exact addRoundKey_addRoundKey (rk 10) _
  | succ j ih =>
    have hprev : j + (r + 1) = 9 := by omega
    rw [decInput, decState_succ_of_decInput rk b hprev (ih hprev), encState_succ_of_middle rk b (by omega), encRound,
      addRoundKey_addRoundKey, invMixColumns_mixColumns]

/-- The last round takes off round key 0 (43_aes_rounds.md R200). -/
theorem decState_encState : decState rk (encState rk b 10) 10 = b := by
  have hlast : 9 + 0 = 9 := rfl
  rw [decState_succ_of_decInput rk b hlast (decInput_encState rk b hlast), encState, addRoundKey_addRoundKey]

/-! ### Records -/

/-- The records of states are the states by number (43_aes_rounds.md R199). -/
theorem blockRecords_map_range (n : Nat) (g : Nat → Block) :
    blockRecords ((List.range n).map g) = (List.range n).map fun r => (r, (g r).toList) := by
  refine List.ext_getElem (by simp [blockRecords]) fun r _ _ => ?_
  simp [blockRecords]

/-! ### Elements and bytes of a block -/

theorem getElem_grid_el (g : Byte → Byte) (b : Block) {j : Nat} (hj : j < 16) :
    (grid fun r c => g (el b r c))[j] = g b[j] := by
  simp [grid, el, Nat.mod_add_div]

theorem getElem_addRoundKey (key b : Block) {j : Nat} (hj : j < 16) : (addRoundKey key b)[j] = b[j] ^^^ key[j] := by
  simp [addRoundKey]

end Aes

section Commands

variable {s : State}

/-- A byte of a block read from storage is the byte there. -/
theorem State.getElem_block (s : State) (a : Nat) {j : Nat} (hj : j < 16) : (s.block a)[j] = s.byte (a + j) := by
  simp [State.block]

/-- Element (r, c) of STATE is STATE[r + 4c] (43_aes_rounds.md R180). -/
theorem State.el_aesState (s : State) (r c : Fin 4) : Aes.el s.aesState r c = s.byte (0x200 + r + 4 * c) := by
  rw [Aes.el, State.aesState, State.getElem_block, stateBase, Nat.add_assoc]

/-! ### AES_ENC and AES_DEC -/

/-- AES_ENC and AES_DEC without a key (43_aes_rounds.md R190, R191). -/
theorem aesBlock_notConfigured (states : (Nat → Block) → Block → List Block) (len : Byte)
    (hk : s.status.aesKv = false) : aesBlock states len s = .next (s.raise .notConfigured) := if_pos hk

/-- AES_ENC and AES_DEC with a key and a LEN other than 16 (43_aes_rounds.md R190, R191). -/
theorem aesBlock_invalidLength (states : (Nat → Block) → Block → List Block) {len : Byte}
    (hk : s.status.aesKv = true) (hlen : len ≠ 16) :
    aesBlock states len s = .next (s.raise .invalidBlockLength) := by
  rw [aesBlock, if_neg (by simp [hk]), if_pos hlen]

/-- Records and a write of STATE can change places. -/
theorem State.writeAesState_emit (s : State) (r : List (Nat × List Byte)) (b : Block) :
    (s.emit r).writeAesState b = (s.writeAesState b).emit r :=
  apply_ite (State.writeAesState · b) _ _ _

/-- What AES_ENC and AES_DEC leave when they succeed: the last of the states in STATE and in DOUT (43_aes_rounds.md R190,
R191). -/
theorem aesBlock_next {states : (Nat → Block) → Block → List Block} {run : List Block} {out : Block}
    (hk : s.status.aesKv = true) (hrun : states s.roundKey s.dinBlock = run) (hlast : run.getLastD s.dinBlock = out) :
    ∃ t, aesBlock states 16 s = .next t ∧ CompletedWith t s.status ∧
      StoredAt t 0x200 out.toList ∧ StoredAt t 0x180 out.toList ∧
      (∀ a, ¬ (0x200 ≤ a ∧ a < 0x210) → ¬ (0x180 ≤ a ∧ a < 0x190) → t.stored a = s.stored a) ∧
      SameControl s t ∧ SameRegisters s t ∧ TraceGrowsBy (Aes.blockRecords run) s t := by
  refine ⟨_, by rw [aesBlock, if_neg (by simp [hk]), if_neg (by simp)], ?_⟩
  rw [hrun, hlast, State.writeAesState_emit]
  have hlen : out.toList.length = 16 := out.length_toList
  have hstate := storedAt_writeBytes s stateBase out.toList
  have hframe := sameStorageOutside_writeBytes s stateBase out.toList
  obtain ⟨hdone, hdout, hout, hctrl, hreg, htrace⟩ := stores_spec (s := s.writeAesState out)
    (fun u => u.writeDout 0 out.toList) (Aes.blockRecords run) 0x180 out.toList (fun _ => rfl)
  rw [hlen] at hframe hout
  refine ⟨hdone, fun j hj => ?_, hdout, fun a h1 h2 => ?_, hctrl, hreg, htrace⟩
  · exact (hout _ (by omega)).trans (hstate j hj)
  · exact (hout a h2).trans (hframe a h1)

/-- AES_ENC and AES_DEC are one shape (43_aes_rounds.md R190, R191). -/
theorem exec_eq_aesBlock {i : Instr} {len : Byte} (hi : i = .aesEnc len ∨ i = .aesDec len) :
    ∃ states, exec i s = aesBlock states len s := by
  obtain rfl | rfl := hi
  · exact ⟨Aes.cipherStates, rfl⟩
  · exact ⟨Aes.invCipherStates, rfl⟩

/-- The states of AES_ENC and AES_DEC are the round states of the cipher and of the inverse cipher (43_aes_rounds.md R188,
R189). -/
theorem exec_eq_aesBlock_states {i : Instr} {len : Byte} {after : Nat → Block}
    (hi : (i = .aesEnc len ∧ after = Aes.encState s.roundKey s.dinBlock) ∨
      (i = .aesDec len ∧ after = Aes.decState s.roundKey s.dinBlock)) :
    ∃ states, exec i s = aesBlock states len s ∧ states s.roundKey s.dinBlock = (List.range 11).map after := by
  obtain ⟨rfl, rfl⟩ | ⟨rfl, rfl⟩ := hi
  · exact ⟨Aes.cipherStates, rfl, Aes.cipherStates_eq _ _⟩
  · exact ⟨Aes.invCipherStates, rfl, Aes.invCipherStates_eq _ _⟩

/-! ### The step commands -/

/-- What a step command leaves, byte by byte; its record is STATE as it leaves it (43_aes_rounds.md R192 to R199). -/
theorem aesStep_bytes (transform : Block → Block) (s : State) : ∃ t, aesStep transform s = .next t ∧
    CompletedWith t s.status ∧ (∀ j (hj : j < 16), t.stored (0x200 + j) = some (transform s.aesState)[j]) ∧
    SameStorageOutside 0x200 16 s t ∧ SameControl s t ∧ SameRegisters s t ∧
    TraceGrowsBy [(0, t.bytes 0x200 16)] s t := by
  obtain ⟨t, ht, hdone, hstored, hout, hctrl, hreg, htrace⟩ := aesStep_next transform s
  have hlen : (transform s.aesState).toList.length = 16 := Vector.length_toList
  have hbytes : t.bytes 0x200 16 = (transform s.aesState).toList := by
    simpa [List.take_of_length_le] using hstored.bytes_eq (k := 0) (n := 16) hlen.ge
  refine ⟨t, ht, hdone, fun j hj => ?_, hout, hctrl, hreg, hbytes ▸ htrace⟩
  rw [hstored j (by omega)]
  simp [hj]

/-- What a step command leaves, element by element (43_aes_rounds.md R180). -/
theorem aesStep_elements (transform : Block → Block) (s : State) : ∃ t, aesStep transform s = .next t ∧
    CompletedWith t s.status ∧
    (∀ r c : Fin 4, t.stored (0x200 + r + 4 * c) = some (Aes.el (transform s.aesState) r c)) ∧
    SameStorageOutside 0x200 16 s t ∧ SameControl s t ∧ SameRegisters s t ∧
    TraceGrowsBy [(0, t.bytes 0x200 16)] s t := by
  obtain ⟨t, ht, hdone, hbyte, hframe⟩ := aesStep_bytes transform s
  exact ⟨t, ht, hdone, fun r c => Nat.add_assoc 0x200 r.val _ ▸ hbyte (r + 4 * c) (by omega), hframe⟩

/-- AES_SB and AES_ISB apply one function to every byte (43_aes_rounds.md R181, R187). -/
theorem exec_eq_aesStep_byteMap {i : Instr} {g : Byte → Byte}
    (hi : (i = .aesSb ∧ g = Aes.sbox) ∨ (i = .aesIsb ∧ g = Aes.invSbox)) :
    exec i s = aesStep (fun b => Aes.grid fun r c => g (Aes.el b r c)) s := by
  obtain ⟨rfl, rfl⟩ | ⟨rfl, rfl⟩ := hi <;> rfl

/-- AES_SR and AES_ISR take each element from another column of its row (43_aes_rounds.md R182, R185). -/
theorem exec_eq_aesStep_rowRotation {i : Instr} {source : Nat → Nat → Nat}
    (hi : (i = .aesSr ∧ source = fun r c => (c + r) % 4) ∨ (i = .aesIsr ∧ source = fun r c => (c + 4 - r) % 4)) :
    ∃ column : Fin 4 → Fin 4 → Fin 4, exec i s = aesStep (fun b => Aes.grid fun r c => Aes.el b r (column r c)) s ∧
      ∀ r c, (column r c).val = source r c := by
  obtain ⟨rfl, rfl⟩ | ⟨rfl, rfl⟩ := hi
  · exact ⟨fun r c => c + r, rfl, fun r c => Fin.val_add c r⟩
  · refine ⟨fun r c => c - r, rfl, fun r c => ?_⟩
    rw [Fin.val_sub]
    congr 1
    omega

/-- AES_MC and AES_IMC multiply the columns by a matrix (43_aes_rounds.md R183, R186). -/
theorem exec_eq_aesStep_mulColumns {i : Instr} {m : List (List Byte)}
    (hi : (i = .aesMc ∧ m = Config.mixMatrix) ∨ (i = .aesImc ∧ m = Config.invMixMatrix)) :
    exec i s = aesStep (Aes.mulColumns m) s := by
  obtain ⟨rfl, rfl⟩ | ⟨rfl, rfl⟩ := hi <;> rfl

/-- AES_ARK of a round no legal word names (30_encoding.md R85). -/
theorem execAesArk_illegal {rnd : Fin 16} (h : 10 < rnd.val) : execAesArk rnd s = .next (s.raise .illegalCommand) :=
  if_pos h

/-- AES_ARK without a key (43_aes_rounds.md R195). -/
theorem execAesArk_notConfigured {rnd : Fin 16} (h : rnd.val ≤ 10) (hk : s.status.aesKv = false) :
    execAesArk rnd s = .next (s.raise .notConfigured) := by
  rw [execAesArk, if_neg (by omega), if_pos hk]

/-- AES_ARK with a key (43_aes_rounds.md R195). -/
theorem execAesArk_configured {rnd : Fin 16} (h : rnd.val ≤ 10) (hk : s.status.aesKv = true) :
    execAesArk rnd s = aesStep (Aes.addRoundKey (s.roundKey rnd)) s := by
  rw [execAesArk, if_neg (by omega), if_neg (by simp [hk])]

end Commands

/-! ### The obligations -/

/-- Settles O35: both commands are `aesBlock`, and their states are the round states of R188 and R189. -/
theorem aesBlockCommands : Obligations.AesBlockCommands := by
  refine ⟨fun s len i hi => ?_, fun s i after hk hi => ?_⟩
  · obtain ⟨states, hexec⟩ := exec_eq_aesBlock (s := s) hi
    refine ⟨fun hk => ?_, fun hk hlen => ?_⟩
    · exact ⟨_, hexec.trans (aesBlock_notConfigured states len hk), ⟨rfl, rfl⟩,
        onlyStatusWritten_complete s s.status _⟩
    · exact ⟨_, hexec.trans (aesBlock_invalidLength states hk hlen), ⟨rfl, rfl⟩,
        onlyStatusWritten_complete s s.status _⟩
  · obtain ⟨states, hexec, hstates⟩ := exec_eq_aesBlock_states hi
    have hlast : ((List.range 11).map after).getLastD s.dinBlock = after 10 := rfl
    obtain ⟨t, ht, hleaves⟩ := aesBlock_next hk hstates hlast
    rw [Aes.blockRecords_map_range] at hleaves
    exact ⟨t, hexec.trans ht, hleaves⟩

/-- Settles O36: the inverse cipher's rounds undo the cipher's in reverse order. -/
theorem aesRoundTrip : Obligations.AesRoundTrip := by
  intro rk b
  rw [Aes.invCipher_eq, Aes.cipher_eq, Aes.decState_encState]

/-- Settles O37, byte by byte. -/
theorem aesByteSteps : Obligations.AesByteSteps := by
  intro s i g hi
  obtain ⟨t, ht, hdone, hbyte, hframe⟩ := aesStep_bytes (fun b => Aes.grid fun r c => g (Aes.el b r c)) s
  refine ⟨t, (exec_eq_aesStep_byteMap hi).trans ht, hdone, fun j hj => ?_, hframe⟩
  rw [hbyte j hj, Aes.getElem_grid_el, State.aesState, State.getElem_block, stateBase]

/-- Settles O38, element by element. -/
theorem aesRowSteps : Obligations.AesRowSteps := by
  intro s i source hi
  obtain ⟨column, hexec, hcolumn⟩ := exec_eq_aesStep_rowRotation (s := s) hi
  obtain ⟨t, ht, hdone, hel, hframe⟩ := aesStep_elements (fun b => Aes.grid fun r c => Aes.el b r (column r c)) s
  refine ⟨t, hexec.trans ht, hdone, fun r c hr hc => ?_, hframe⟩
  rw [hel ⟨r, hr⟩ ⟨c, hc⟩, Aes.el_grid, State.el_aesState, hcolumn]

/-- Settles O39, element by element. -/
theorem aesColumnSteps : Obligations.AesColumnSteps := by
  intro s i m hi
  obtain ⟨t, ht, hdone, hel, hframe⟩ := aesStep_elements (Aes.mulColumns m) s
  refine ⟨t, (exec_eq_aesStep_mulColumns hi).trans ht, hdone, fun r c hr hc => ?_, hframe⟩
  rw [hel ⟨r, hr⟩ ⟨c, hc⟩, Aes.el_mulColumns]
  simp only [State.el_aesState]
  rfl

/-- Settles O40: the two errors in order, and otherwise the step byte by byte. -/
theorem aesArkAddsTheRoundKey : Obligations.AesArkAddsTheRoundKey := by
  refine ⟨fun s rnd h => ?_, fun s rnd h hk => ?_, fun s rnd h hk => ?_⟩
  · exact ⟨_, execAesArk_illegal h, ⟨rfl, rfl⟩, onlyStatusWritten_complete s s.status _⟩
  · exact ⟨_, execAesArk_notConfigured h hk, ⟨rfl, rfl⟩, onlyStatusWritten_complete s s.status _⟩
  · obtain ⟨t, ht, hdone, hbyte, hframe⟩ := aesStep_bytes (Aes.addRoundKey (s.roundKey rnd)) s
    refine ⟨t, (execAesArk_configured h hk).trans ht, hdone, fun j hj => ?_, hframe⟩
    have hoff : rkBase + 16 * rnd.val + j = 0x300 + 4 * (4 * rnd.val + j / 4) + j % 4 := by
      rw [rkBase]
      omega
    rw [hbyte j hj, Aes.getElem_addRoundKey, State.aesState, State.roundKey, State.getElem_block, State.getElem_block,
      hoff, stateBase]

end Sys2Proof.Machine
end

section
/-! SUPPORT. The digest unit (44_digest.md): what INIT, HASH_UPDATE and HASH_FINAL leave, the digest's bytes word by word,
and the stream a computation in progress has absorbed, which every split of a message into updates extends to the whole
message (R231). -/

namespace Sys2Proof.Machine

/-! ### Bytes of numbers and words -/

/-- Byte j of a number, least significant first (00_scope.md R12). -/
theorem natToLe_getElem? (n v j : Nat) :
    (natToLe n v)[j]? = if j < n then some (BitVec.ofNat 8 (v / 256 ^ j)) else none := by
  induction n generalizing v j with
  | zero => simp [natToLe]
  | succ n ih =>
    cases j with
    | zero => simp [natToLe]
    | succ j => simp [natToLe, ih, Nat.div_div_eq_div_mul, Nat.pow_succ']

@[simp] theorem natToLe_length (n v : Nat) : (natToLe n v).length = n := by
  induction n generalizing v with
  | zero => rfl
  | succ n ih => simp [natToLe, ih]

@[simp] theorem natToBe_length (n v : Nat) : (natToBe n v).length = n := by simp [natToBe]

/-- Byte j of a word, as a number. -/
theorem extractLsb'_eq_ofNat_div {w : Nat} (x : BitVec w) (j : Nat) :
    x.extractLsb' (8 * j) 8 = BitVec.ofNat 8 (x.toNat / 256 ^ j) := by
  rw [BitVec.extractLsb', Nat.shiftRight_eq_div_pow, Nat.pow_mul]

/-- Byte j of a word, least significant first (44_digest.md R227). -/
theorem natToLe_toNat_getElem? {w n j : Nat} (x : BitVec w) (hj : j < n) :
    (natToLe n x.toNat)[j]? = some (x.extractLsb' (8 * j) 8) := by
  rw [natToLe_getElem?, if_pos hj, extractLsb'_eq_ofNat_div]

/-- Byte j of a word, most significant first (44_digest.md R227). -/
theorem natToBe_toNat_getElem? {w n j : Nat} (x : BitVec w) (hj : j < n) :
    (natToBe n x.toNat)[j]? = some (x.extractLsb' (8 * (n - 1 - j)) 8) := by
  rw [natToBe, List.getElem?_reverse (by simpa using hj), natToLe_length, natToLe_toNat_getElem? x (by omega)]

/-- Byte j of the i-th of equally long pieces laid end to end. -/
theorem flatMap_getElem?_of_length {α β : Type} {f : α → List β} {k : Nat} (hf : ∀ x, (f x).length = k) (xs : List α)
    (i : Nat) {j : Nat} (hj : j < k) : (xs.flatMap f)[k * i + j]? = xs[i]?.bind fun x => (f x)[j]? := by
  induction xs generalizing i with
  | nil => simp
  | cons x xs ih =>
    rw [List.flatMap_cons]
    cases i with
    | zero => simp [List.getElem?_append_left, hf, hj]
    | succ i =>
      have hge : (f x).length ≤ k * (i + 1) + j := by rw [hf, Nat.mul_succ]; omega
      have hsub : k * (i + 1) + j - (f x).length = k * i + j := by rw [hf, Nat.mul_succ]; omega
      rw [List.getElem?_append_right hge, hsub, ih, List.getElem?_cons_succ]

/-- The digest's bytes: each hash word big-endian (44_digest.md R227, 45_sha512.md R257). -/
theorem Sha512.digest_getElem? (h : Vector Word64 8) (i : Fin 8) {j : Nat} (hj : j < 8) :
    (Sha512.digest h)[8 * i.val + j]? = some (h[i].extractLsb' (56 - 8 * j) 8) := by
  rw [Sha512.digest, flatMap_getElem?_of_length (fun x : Word64 => natToBe_length 8 x.toNat) _ _ hj]
  simp [natToBe_toNat_getElem? _ hj, show 8 * (7 - j) = 56 - 8 * j by omega]

/-- The digest's bytes: bits 31:0 of each of H[0..3], little-endian (44_digest.md R227, 46_md5.md R277). -/
theorem Md5.digest_getElem? (h : Vector Word64 8) (i : Fin 4) {j : Nat} (hj : j < 4) :
    (Md5.digest h)[4 * i.val + j]? = some ((h[i.val]'(by omega)).extractLsb' (8 * j) 8) := by
  have hword : (ofHash h).toList[i.val]? = some ((h[i.val]'(by omega)).setWidth 32) := by fin_cases i <;> rfl
  rw [Md5.digest, flatMap_getElem?_of_length (fun x : Word => natToLe_length 4 x.toNat) _ _ hj, hword, Option.bind_some,
    natToLe_toNat_getElem? _ hj, BitVec.extractLsb'_setWidth_of_le (by omega)]

theorem Sha512.digest_length (h : Vector Word64 8) : (Sha512.digest h).length = 64 := by simp [Sha512.digest]

theorem Md5.digest_length (h : Vector Word64 8) : (Md5.digest h).length = 16 := by simp [Md5.digest]

/-- A run of bytes is the bytes at its offsets. -/
theorem State.bytes_eq_map_range (s : State) (a n : Nat) : s.bytes a n = (List.range n).map fun j => s.byte (a + j) := by
  refine List.ext_getElem? fun j => ?_
  rw [State.bytes_getElem?, List.getElem?_map]
  split <;> simp [*]

/-- What the host has written to DIN is what a command reads there (44_digest.md R231). -/
theorem State.dinBytes_writeBytes (s : State) (m : List Byte) : (s.writeBytes dinBase m).dinBytes m.length = m := by
  simpa [State.dinBytes] using (storedAt_writeBytes s dinBase m).bytes_eq (k := 0) (n := m.length) (by simp)

/-! ### What each command leaves -/

section Commands

variable {s : State} {d : DigestRun}

/-- SHA512_INIT and MD5_INIT are one shape (44_digest.md R221, R222). -/
theorem exec_initCommand (alg : HashAlg) (s : State) :
    exec alg.initCommand s = .next (((s.initDigest alg.iv).startHash alg).complete 0) := by
  cases alg <;> rfl

theorem md5Iv_eq : md5Iv = #v[0x67452301, 0xefcdab89, 0x98badcfe, 0x10325476, 0, 0, 0, 0] := by decide

/-- HASH_UPDATE without a computation (44_digest.md R224). -/
theorem execHashUpdate_notConfigured (len : Byte) (hact : s.status.hashAct = false) :
    execHashUpdate len s = .next (s.raise .notConfigured) := if_pos hact

/-- HASH_UPDATE with a LEN above 128 (44_digest.md R224). -/
theorem execHashUpdate_invalidLength {len : Byte} (hact : s.status.hashAct = true) (hlen : 128 < len.toNat) :
    execHashUpdate len s = .next (s.raise .invalidBlockLength) := by
  rw [execHashUpdate, if_neg (by simp [hact]), if_pos hlen]

/-- What HASH_UPDATE leaves when it succeeds (44_digest.md R224). -/
theorem execHashUpdate_next {len : Byte} (hact : s.status.hashAct = true) (hlen : len.toNat ≤ 128)
    (hd : s.digestRun.absorbAll s.status.hashAlg (s.dinBytes len.toNat) = d) :
    ∃ t, execHashUpdate len s = .next t ∧ CompletedWith t s.status ∧
      t.h = d.h ∧ t.buf = d.buf ∧ t.bufCnt = d.cnt ∧ TraceGrowsBy d.records s t ∧
      t.msgLen = s.msgLen + BitVec.ofNat 128 (8 * len.toNat) ∧
      SamePoints s t ∧ SameScalars s t ∧ SameCurve s t ∧ SameBase s t ∧ SameStorage s t ∧ SameControl s t := by
  refine ⟨_, by rw [execHashUpdate, if_neg (by simp [hact]), if_neg (by omega)], ?_⟩
  rw [hd, State.emit_eq]
  exact ⟨⟨rfl, rfl⟩, rfl, rfl, rfl, State.emit_trace s d.records, rfl, ⟨rfl, rfl⟩, ⟨rfl, rfl⟩, ⟨rfl, rfl, rfl⟩,
    ⟨rfl, rfl⟩, fun _ => rfl, rfl, rfl, rfl, rfl, rfl, rfl⟩

/-- HASH_FINAL without a computation (44_digest.md R227). -/
theorem execHashFinal_notConfigured (hact : s.status.hashAct = false) :
    execHashFinal s = .next (s.raise .notConfigured) := if_pos hact

/-- What HASH_FINAL leaves when it succeeds (44_digest.md R227). -/
theorem execHashFinal_next (hact : s.status.hashAct = true) (hd : s.digestRun.pad s.status.hashAlg s.msgLen = d) :
    ∃ t, execHashFinal s = .next t ∧ CompletedWith t { s.status with hashAct := false } ∧
      t.h = d.h ∧ t.buf = d.buf ∧ t.bufCnt = d.cnt ∧ TraceGrowsBy d.records s t ∧
      StoredAt t 0x180 (s.status.hashAlg.digest t.h) ∧
      SameStorageOutside 0x180 (s.status.hashAlg.digest t.h).length s t ∧ t.msgLen = s.msgLen ∧
      SamePoints s t ∧ SameScalars s t ∧ SameCurve s t ∧ SameBase s t ∧ SameControl s t := by
  refine ⟨_, by rw [execHashFinal, if_neg (by simp [hact])], ?_⟩
  rw [hd, State.emit_eq]
  exact ⟨⟨rfl, rfl⟩, rfl, rfl, rfl, State.emit_trace s d.records, storedAt_writeBytes s 0x180 _,
    sameStorageOutside_writeBytes s 0x180 _, rfl, ⟨rfl, rfl⟩, ⟨rfl, rfl⟩, ⟨rfl, rfl, rfl⟩, ⟨rfl, rfl⟩,
    rfl, rfl, rfl, rfl, rfl, rfl⟩

end Commands

/-! ### A message split into updates -/

/-- What INIT and the updates so far have left: the digest registers represent the bytes absorbed, and MSGLEN counts their
bits modulo 2^128 (44_digest.md R223, R224). -/
structure State.Hashing (alg : HashAlg) (s : State) (xs : List Byte) : Prop where
  active : s.status.hashAct = true
  algorithm : s.status.hashAlg = alg
  registers : DigestRun.Represents alg alg.iv s.digestRun xs
  bits : s.msgLen = BitVec.ofNat 128 (8 * xs.length)

section Split

variable {alg : HashAlg} {s : State} {xs : List Byte}

/-- What a digest command leaves in H, BUF and BUFCNT represents the stream its run does. -/
theorem DigestRun.Represents.of_registers {t : State} {d : DigestRun} {h0 : Vector Word64 8}
    (r : DigestRun.Represents alg h0 d xs) (hh : t.h = d.h) (hbuf : t.buf = d.buf) (hcnt : t.bufCnt = d.cnt) :
    DigestRun.Represents alg h0 t.digestRun xs := by
  have hrun : t.digestRun = { d with payloads := [] } := by rw [State.digestRun, hh, hbuf, hcnt]
  exact hrun ▸ r.payloads []

/-- INIT has absorbed nothing (44_digest.md R221). -/
theorem exec_initCommand_hashing (alg : HashAlg) (s : State) :
    ∃ t, exec alg.initCommand s = .next t ∧ t.Hashing alg [] :=
  ⟨_, exec_initCommand alg s, rfl, rfl, .empty alg.iv s.buf [], rfl⟩

/-- A write of storage changes no digest register. -/
theorem State.Hashing.writeBytes (hs : s.Hashing alg xs) (a : Nat) (bs : List Byte) :
    (s.writeBytes a bs).Hashing alg xs := ⟨hs.active, hs.algorithm, hs.registers, hs.bits⟩

/-- HASH_UPDATE extends the stream by DIN[0..LEN-1] (44_digest.md R224). -/
theorem State.Hashing.hashUpdate (hs : s.Hashing alg xs) {len : Byte} (hlen : len.toNat ≤ 128) :
    ∃ t, exec (.hashUpdate len) s = .next t ∧ t.Hashing alg (xs ++ s.dinBytes len.toNat) := by
  obtain ⟨hact, rfl, hrep, hbits⟩ := hs
  obtain ⟨t, ht, ⟨-, hst⟩, hh, hbuf, hcnt, -, hmsg, -⟩ := execHashUpdate_next hact hlen rfl
  refine ⟨t, ht, by simp [hst, hact], by simp [hst], (hrep.absorbAll _).of_registers hh hbuf hcnt, ?_⟩
  rw [hmsg, hbits, List.length_append, State.dinBytes_length, Nat.mul_add, BitVec.ofNat_add]

/-- A piece written to DIN and absorbed extends the stream by it (44_digest.md R231). -/
theorem State.Hashing.piece (hs : s.Hashing alg xs) {m : List Byte} (hm : m.length ≤ 128) :
    ∃ t, exec (.hashUpdate (BitVec.ofNat 8 m.length)) (s.writeBytes dinBase m) = .next t ∧ t.Hashing alg (xs ++ m) := by
  have hlen : (BitVec.ofNat 8 m.length).toNat = m.length := by rw [BitVec.toNat_ofNat]; omega
  obtain ⟨t, ht, htail⟩ := (hs.writeBytes dinBase m).hashUpdate (len := BitVec.ofNat 8 m.length) (by omega)
  rw [hlen, State.dinBytes_writeBytes] at htail
  exact ⟨t, ht, htail⟩

/-- The pieces absorbed one by one extend the stream by their concatenation (44_digest.md R231). -/
theorem State.Hashing.updateAll (hs : s.Hashing alg xs) {pieces : List (List Byte)}
    (hp : ∀ m ∈ pieces, m.length ≤ 128) :
    ∃ t, updateAll pieces s = .next t ∧ t.Hashing alg (xs ++ pieces.flatten) := by
  induction pieces generalizing s xs with
  | nil => exact ⟨s, rfl, by simpa using hs⟩
  | cons m ms ih =>
    obtain ⟨hm, hms⟩ := List.forall_mem_cons.1 hp
    obtain ⟨u, hu, hsu⟩ := hs.piece hm
    obtain ⟨t, ht, hst⟩ := ih hsu hms
    refine ⟨t, ?_, by simpa using hst⟩
    rw [Machine.updateAll, hu]
    exact ht

/-- What `pad()` absorbs after a stream completes the stream's padded form (44_digest.md R225, R226). -/
theorem HashAlg.padded_eq_append_padding (alg : HashAlg) (xs : List Byte) :
    alg.padded xs = xs ++ alg.padding (xs.length % alg.blockSize) (BitVec.ofNat 128 (8 * xs.length)) := by
  cases alg with
  | sha512 => simp [padded, padding, lengthField]
  | md5 =>
    have hmod : 8 * xs.length % 2 ^ 64 = 8 * xs.length % 2 ^ 128 % 2 ^ 64 := by omega
    simp only [padded, padding, lengthField, BitVec.toNat_ofNat, hmod, Nat.mod_add_mod, List.append_assoc]

/-- `hash(message)` is the digest of H after the padded message's blocks (44_digest.md R231). -/
theorem HashAlg.hash_eq (alg : HashAlg) (m : List Byte) :
    alg.hash m = alg.digest (alg.chain alg.iv (alg.padded m) ((alg.padded m).length / alg.blockSize)) := rfl

/-- Padding the registers of a stream leaves the H whose digest is the stream's hash (44_digest.md R225, R229). -/
theorem State.Hashing.digest_pad (hs : s.Hashing alg xs) :
    alg.digest (s.digestRun.pad alg s.msgLen).h = alg.hash xs := by
  have hlt : s.digestRun.cnt < alg.blockSize := hs.registers.cnt ▸ Nat.mod_lt _ alg.blockSize_pos
  have hrep : DigestRun.Represents alg alg.iv (s.digestRun.pad alg s.msgLen) (alg.padded xs) := by
    rw [DigestRun.pad_eq _ _ hlt, HashAlg.padded_eq_append_padding, ← hs.bits, ← hs.registers.cnt]
    exact hs.registers.absorbAll _
  rw [hrep.h, HashAlg.hash_eq]

/-- HASH_FINAL leaves the hash of the stream in DOUT (44_digest.md R227, R231). -/
theorem State.Hashing.hashFinal (hs : s.Hashing alg xs) :
    ∃ t, exec .hashFinal s = .next t ∧ t.errcode = 0 ∧ StoredAt t 0x180 (alg.hash xs) := by
  obtain ⟨t, ht, ⟨herr, -⟩, hh, -, -, -, hdout, -⟩ := execHashFinal_next hs.active rfl
  rw [hh, hs.algorithm, hs.digest_pad] at hdout
  exact ⟨t, ht, herr, hdout⟩

end Split

/-! ### The obligations -/

/-- Settles O43: both INIT commands store the algorithm's initial words. -/
theorem hashInitStartsAComputation : Obligations.HashInitStartsAComputation := by
  intro s alg
  refine ⟨_, exec_initCommand alg s, ⟨rfl, rfl⟩, ?_, ?_, rfl, rfl, rfl, ⟨rfl, rfl⟩, ⟨rfl, rfl⟩, ⟨rfl, rfl, rfl⟩,
    ⟨rfl, rfl⟩, fun _ => rfl, ⟨rfl, rfl, rfl, rfl, rfl, rfl⟩, rfl⟩
  · rintro rfl
    rfl
  · rintro rfl
    exact md5Iv_eq

/-- Settles O44: the two errors in order, and otherwise the absorption of DIN's bytes. -/
theorem hashUpdateAbsorbsDin : Obligations.HashUpdateAbsorbsDin := by
  refine ⟨fun s len hact => ?_, fun s len hact hlen => ?_, fun s len hact hlen => ?_⟩
  · exact ⟨_, execHashUpdate_notConfigured len hact, ⟨rfl, rfl⟩, onlyStatusWritten_complete s s.status _⟩
  · exact ⟨_, execHashUpdate_invalidLength hact hlen, ⟨rfl, rfl⟩, onlyStatusWritten_complete s s.status _⟩
  · obtain ⟨t, ht, hdone, hh, hbuf, hcnt, htrace, hmsg, hframe⟩ := execHashUpdate_next hact hlen
      (congrArg _ (s.bytes_eq_map_range 0x100 len.toNat))
    refine ⟨t, ht, hdone, ⟨hh, hbuf, hcnt, htrace⟩, ?_, hframe⟩
    rw [hmsg, BitVec.toNat_add, BitVec.toNat_ofNat, Nat.add_mod_mod]

/-- Settles O45: the error, and otherwise the digest of H after the padding, byte by byte. -/
theorem hashFinalWritesTheDigest : Obligations.HashFinalWritesTheDigest := by
  refine ⟨fun s hact => ?_, fun s hact => ?_⟩
  · exact ⟨_, execHashFinal_notConfigured hact, ⟨rfl, rfl⟩, onlyStatusWritten_complete s s.status _⟩
  · obtain ⟨t, ht, hdone, hh, hbuf, hcnt, htrace, hdout, hout, hframe⟩ := execHashFinal_next hact rfl
    refine ⟨t, ht, hdone, fun halg => ?_, fun halg => ?_, fun hlt => ?_, hframe⟩
    · rw [halg, HashAlg.digest] at hdout hout
      refine ⟨Sha512.digest_length t.h ▸ hout, fun i j hj => ?_⟩
      rw [Nat.add_assoc, hdout _ (by rw [Sha512.digest_length]; omega), Sha512.digest_getElem? _ _ hj]
    · rw [halg, HashAlg.digest] at hdout hout
      refine ⟨Md5.digest_length t.h ▸ hout, fun i j hj => ?_⟩
      rw [Nat.add_assoc, hdout _ (by rw [Md5.digest_length]; omega), Md5.digest_getElem? _ _ hj]
    · rw [DigestRun.pad_cnt _ _ hlt] at hcnt
      rw [DigestRun.pad_eq _ _ hlt] at hh hbuf htrace
      exact ⟨⟨hh, hbuf, htrace⟩, hcnt⟩

/-- Settles O46: the registers represent the bytes absorbed so far, whatever the split. -/
theorem digestOfASplitMessage : Obligations.DigestOfASplitMessage := by
  intro alg s pieces hp
  obtain ⟨u, hu, hsu⟩ := exec_initCommand_hashing alg s
  obtain ⟨v, hv, hsv⟩ := hsu.updateAll hp
  obtain ⟨t, ht, hdone⟩ := hsv.hashFinal
  refine ⟨t, ?_, hdone⟩
  rw [hu, andThen, hv, andThen, ht]

end Sys2Proof.Machine
end

section
/-! SUPPORT. The SHA-512 compression (45_sha512.md): its schedule is the words of R253 and R254 by number, and its
states of the working variables are the round states of R255 by number. -/

namespace Sys2Proof.Machine

namespace Sha512

/-! ### The message schedule -/

/-- W[t] of a block: a big-endian word of the block, and from W[16] on the recurrence (45_sha512.md R253, R254). -/
def scheduleWord (blk : List Byte) (t : Nat) : Word64 :=
  if t < 16 then BitVec.ofNat 64 (beToNat ((blk.drop (8 * t)).take 8))
  else smallSigma1 (scheduleWord blk (t - 2)) + scheduleWord blk (t - 7) + smallSigma0 (scheduleWord blk (t - 15)) +
    scheduleWord blk (t - 16)
termination_by t

/-- The first sixteen words are the block's (45_sha512.md R253). -/
theorem scheduleWord_of_lt (blk : List Byte) {t : Nat} (ht : t < 16) :
    scheduleWord blk t = BitVec.ofNat 64 (beToNat ((blk.drop (8 * t)).take 8)) := by
  rw [scheduleWord, if_pos ht]

/-- The later words follow the recurrence (45_sha512.md R254). -/
theorem scheduleWord_of_ge (blk : List Byte) {t : Nat} (ht : 16 ≤ t) :
    scheduleWord blk t = smallSigma1 (scheduleWord blk (t - 2)) + scheduleWord blk (t - 7) +
      smallSigma0 (scheduleWord blk (t - 15)) + scheduleWord blk (t - 16) := by
  rw [scheduleWord, if_neg (by omega)]

theorem baseWords_eq (blk : List Byte) : baseWords blk = (List.range 16).map (scheduleWord blk) :=
  List.map_congr_left fun _ ht => (scheduleWord_of_lt blk (List.mem_range.1 ht)).symm

/-- The model's step of the recurrence reads W[t - 16 .. t - 1] in the words so far (45_sha512.md R254). -/
theorem nextWord_map_range (blk : List Byte) {t : Nat} (ht : 16 ≤ t) :
    nextWord ((List.range t).map (scheduleWord blk)) t = scheduleWord blk t := by
  have hword : ∀ i < t, ((List.range t).map (scheduleWord blk)).getD i 0 = scheduleWord blk i :=
    fun i hi => by simp [hi]
  rw [nextWord, hword _ (by omega), hword _ (by omega), hword _ (by omega), hword _ (by omega),
    ← scheduleWord_of_ge blk ht]

/-- `n` more words after W[0 .. t-1] (45_sha512.md R254). -/
theorem foldl_nextWord_range' (blk : List Byte) {t : Nat} (ht : 16 ≤ t) (n : Nat) :
    (List.range' t n).foldl (fun w i => w ++ [nextWord w i]) ((List.range t).map (scheduleWord blk)) =
      (List.range (t + n)).map (scheduleWord blk) := by
  induction n generalizing t with
  | zero => rfl
  | succ n ih =>
    have hsnoc : (List.range t).map (scheduleWord blk) ++ [scheduleWord blk t] =
        (List.range (t + 1)).map (scheduleWord blk) := by simp [List.range_succ]
    rw [List.range'_succ, List.foldl_cons, nextWord_map_range blk ht, hsnoc, ih (by omega), Nat.add_right_comm,
      Nat.add_assoc]

theorem messageSchedule_eq (blk : List Byte) : messageSchedule blk = (List.range 80).map (scheduleWord blk) := by
  rw [messageSchedule, baseWords_eq, foldl_nextWord_range' blk le_rfl]

/-! ### The rounds -/

/-- The working variables before round t, which are those after round t - 1 (45_sha512.md R255). -/
def roundState (h : Words) (blk : List Byte) : Nat → Words
  | 0 => h
  | t + 1 => round (roundState h blk t) (Config.k512.getD t 0) (scheduleWord blk t)

/-- K[t] and W[t] stand side by side (45_sha512.md R255). -/
theorem zip_messageSchedule (blk : List Byte) : Config.k512.zip (messageSchedule blk) =
    (List.range 80).map fun t => (Config.k512.getD t 0, scheduleWord blk t) := by
  rw [messageSchedule_eq]
  refine List.ext_getElem (by simp) fun t ht _ => ?_
  have hk : t < Config.k512.length := List.lt_length_left_of_zip ht
  rw [List.getElem_zip, List.getElem_map, List.getElem_map, List.getElem_range, List.getD_eq_getElem _ _ hk]

/-- `n` rounds in turn from round t on (45_sha512.md R255). -/
theorem rounds_range' (h : Words) (blk : List Byte) (t n : Nat) :
    rounds ((List.range' t n).map fun i => (Config.k512.getD i 0, scheduleWord blk i)) (roundState h blk t) =
      (List.range' t n).map fun i => roundState h blk (i + 1) := by
  induction n generalizing t with
  | zero => rfl
  | succ n ih => rw [List.range'_succ, List.map_cons, rounds, ← roundState, ih (t + 1), List.map_cons]

theorem trace_eq (h : Words) (blk : List Byte) :
    trace h blk = (List.range 80).map fun t => roundState h blk (t + 1) := by
  rw [trace, zip_messageSchedule, List.range_eq_range']
  exact rounds_range' h blk 0 80

/-- `compress512` by its round states: the last one added into H, and a record of each (45_sha512.md R255). -/
theorem compress_eq (h : Words) (blk : List Byte) : compress h blk =
    (addInto h (roundState h blk 80), (List.range 80).map fun t => payload (roundState h blk (t + 1))) := by
  have hlast : ((List.range 80).map fun t => roundState h blk (t + 1)).getLastD h = roundState h blk 80 := rfl
  rw [compress, trace_eq, hlast, List.map_map]
  rfl

end Sha512

/-- Settles O41: the words and the round states by number are what the schedule and the rounds compute. -/
theorem sha512CompressFollowsTheRounds : Obligations.Sha512CompressFollowsTheRounds := by
  intro h blk _
  refine ⟨Sha512.scheduleWord blk, Sha512.roundState h blk, fun t ht => Sha512.scheduleWord_of_lt blk ht,
    fun t ht _ => Sha512.scheduleWord_of_ge blk ht, rfl, fun t _ => rfl, fun i => ?_, ?_⟩
  · rw [HashAlg.compress, Sha512.compress_eq]
    exact Sha512.addInto_getElem h _ i.val i.isLt
  · rw [HashAlg.compress, Sha512.compress_eq]

end Sys2Proof.Machine
end

section
/-! SUPPORT. The MD5 compression (46_md5.md): its message words are those of R274 by number, and its states of A..D are
the step states of R275 by number. -/

namespace Sys2Proof.Machine

namespace Md5

/-! ### The message words -/

/-- Each step reads one of the sixteen words of the block (46_md5.md R273). -/
theorem wordIndex_lt (n : Nat) : wordIndex n < 16 := by
  unfold wordIndex
  split_ifs <;> omega

/-- The word a step reads is a little-endian word of the block (46_md5.md R274). -/
theorem blockWords_getD (blk : List Byte) {k : Nat} (hk : k < 16) :
    (blockWords blk).getD k 0 = BitVec.ofNat 32 (leToNat ((blk.drop (4 * k)).take 4)) := by
  simp [blockWords, hk]

/-! ### The steps -/

/-- A..D before step n, which are those after step n - 1 (46_md5.md R275). -/
def stepState (v : Words) (blk : List Byte) : Nat → Words
  | 0 => v
  | n + 1 => stepWords (blockWords blk) (stepState v blk n) n

/-- The step equation, with the step's message word read in the block (46_md5.md R275). -/
theorem stepState_succ (v : Words) (blk : List Byte) (n : Nat) :
    stepState v blk (n + 1) =
      #v[(stepState v blk n)[3],
         (stepState v blk n)[1] + rotl ((stepState v blk n)[0] +
            mix n (stepState v blk n)[1] (stepState v blk n)[2] (stepState v blk n)[3] + Config.t5.getD n 0 +
            BitVec.ofNat 32 (leToNat ((blk.drop (4 * wordIndex n)).take 4))) (shiftAmount n),
         (stepState v blk n)[1], (stepState v blk n)[2]] := by
  rw [stepState, stepWords, blockWords_getD blk (wordIndex_lt n)]

/-- `count` steps in turn from step n on (46_md5.md R275). -/
theorem steps_range' (v : Words) (blk : List Byte) (n count : Nat) :
    steps (blockWords blk) (List.range' n count) (stepState v blk n) =
      (List.range' n count).map fun i => stepState v blk (i + 1) := by
  induction count generalizing n with
  | zero => rfl
  | succ count ih => rw [List.range'_succ, steps, ← stepState, ih (n + 1), List.map_cons]

theorem trace_eq (v : Words) (blk : List Byte) :
    trace v blk = (List.range 64).map fun n => stepState v blk (n + 1) := by
  rw [trace, List.range_eq_range']
  exact steps_range' v blk 0 64

/-- The last words added into the words of H, each held in the low half of its register (46_md5.md R270, R275). -/
def addInto (hs : Vector Word64 8) (v : Words) : Vector Word64 8 :=
  #v[((ofHash hs)[0] + v[0]).setWidth 64, ((ofHash hs)[1] + v[1]).setWidth 64, ((ofHash hs)[2] + v[2]).setWidth 64,
     ((ofHash hs)[3] + v[3]).setWidth 64, hs[4], hs[5], hs[6], hs[7]]

theorem addInto_getElem_of_lt (hs : Vector Word64 8) (v : Words) (i : Fin 4) :
    (addInto hs v)[i.val]'(by omega) = ((hs[i.val]'(by omega)).setWidth 32 + v[i]).setWidth 64 := by
  fin_cases i <;> rfl

/-- `compress5` by its step states: the last one added into H, and a record of each (46_md5.md R275). -/
theorem compress_eq (hs : Vector Word64 8) (blk : List Byte) : compress hs blk =
    (addInto hs (stepState (ofHash hs) blk 64),
      (List.range 64).map fun n => payload (stepState (ofHash hs) blk (n + 1))) := by
  have hlast : ((List.range 64).map fun n => stepState (ofHash hs) blk (n + 1)).getLastD (ofHash hs) =
      stepState (ofHash hs) blk 64 := rfl
  simp only [compress, trace_eq, hlast, List.map_map]
  rfl

end Md5

/-- Settles O42: the states of A..D by number are what the steps compute. -/
theorem md5CompressFollowsTheSteps : Obligations.Md5CompressFollowsTheSteps := by
  intro h blk _
  refine ⟨Md5.stepState (Md5.ofHash h) blk, rfl, fun n _ => Md5.stepState_succ _ blk n, fun i => ?_,
    (Md5.compress_words h blk).2, ?_⟩
  · rw [HashAlg.compress, Md5.compress_eq]
    exact Md5.addInto_getElem_of_lt h _ i
  · rw [HashAlg.compress, Md5.compress_eq]

end Sys2Proof.Machine
end

section
/-! SUPPORT. The modular inverse (47_ec.md R292): the loop of Euclid's algorithm ends at the greatest common divisor
within its fuel and keeps the congruences that make its last coefficient the inverse. -/

namespace Sys2Proof.Machine

namespace Ec

/-- One division of the loop. -/
theorem euclid_succ_of_ne_zero {r1 : Nat} (h : r1 ≠ 0) (fuel r0 : Nat) (s0 s1 : Int) :
    euclid (fuel + 1) r0 r1 s0 s1 = euclid fuel r1 (r0 % r1) s1 (s0 - (r0 / r1 : Nat) * s1) := by
  rw [Nat.mod_eq_sub_div_mul]
  exact if_neg h

theorem euclid_zero_right (fuel r0 : Nat) (s0 s1 : Int) : euclid fuel r0 0 s0 s1 = (r0, s0) := by
  cases fuel <;> rfl

/-- A division at least halves the product of the two remainders, so a fuel of its size in bits is enough. -/
theorem euclid_fst {fuel r0 r1 : Nat} (s0 s1 : Int) (hle : r1 ≤ r0) (hfuel : r0 * r1 < 2 ^ fuel) :
    (euclid fuel r0 r1 s0 s1).1 = Nat.gcd r0 r1 := by
  induction fuel generalizing r0 r1 s0 s1 with
  | zero =>
    obtain rfl : r1 = 0 := by nlinarith
    simp [euclid]
  | succ fuel ih =>
    rcases Nat.eq_zero_or_pos r1 with rfl | hpos
    · simp [euclid_zero_right]
    · have hmod : r0 % r1 < r1 := Nat.mod_lt _ hpos
      have hhalf : 2 * (r0 % r1) ≤ r0 := by
        have := Nat.mod_add_div r0 r1
        have : r1 * 1 ≤ r1 * (r0 / r1) := Nat.mul_le_mul_left _ ((Nat.one_le_div_iff hpos).2 hle)
        omega
      rw [euclid_succ_of_ne_zero hpos.ne', ih _ _ hmod.le (by rw [pow_succ] at hfuel; nlinarith), Nat.gcd_comm r0 r1,
        Nat.gcd_rec r1 r0, Nat.gcd_comm]

/-- The loop keeps `s·u ≡ r` for both remainders. -/
theorem euclid_modEq {p : Nat} {u : Int} {fuel r0 r1 : Nat} {s0 s1 : Int} (h0 : s0 * u ≡ r0 [ZMOD p])
    (h1 : s1 * u ≡ r1 [ZMOD p]) :
    (euclid fuel r0 r1 s0 s1).2 * u ≡ (euclid fuel r0 r1 s0 s1).1 [ZMOD p] := by
  induction fuel generalizing r0 r1 s0 s1 with
  | zero => exact h0
  | succ fuel ih =>
    rcases Nat.eq_zero_or_pos r1 with rfl | hpos
    · rwa [euclid_zero_right]
    · rw [euclid_succ_of_ne_zero hpos.ne']
      refine ih h1 ?_
      have hr : ((r0 % r1 : Nat) : Int) = r0 - (r0 / r1 : Nat) * r1 := by
        have := congrArg (Nat.cast (R := Int)) (Nat.mod_add_div r0 r1)
        push_cast at this ⊢
        linarith
      rw [hr, sub_mul, mul_assoc]
      exact h0.sub (h1.mul_left _)

section

variable {u : Int} {p : Nat}

/-- The least residue of an integer, as a natural number. -/
theorem emod_toNat_lt (u : Int) (hp : 0 < p) : (u % p).toNat < p := by
  have := Int.emod_lt_of_pos u (Int.natCast_pos.2 hp)
  have := Int.emod_nonneg u (Int.natCast_pos.2 hp).ne'
  omega

theorem natCast_emod_toNat (u : Int) (hp : 0 < p) : ((u % p).toNat : Int) = u % p :=
  Int.toNat_of_nonneg (Int.emod_nonneg u (Int.natCast_pos.2 hp).ne')

theorem mul_lt_two_pow {a b m n k : Nat} (ha : a < 2 ^ m) (hb : b < 2 ^ n) (h : m + n ≤ k) : a * b < 2 ^ k := calc
  a * b < 2 ^ m * 2 ^ n := Nat.mul_lt_mul'' ha hb
  _ = 2 ^ (m + n) := (pow_add ..).symm
  _ ≤ 2 ^ k := Nat.pow_le_pow_right two_pos h

/-- The loop of `inverse` ends at gcd(p, u mod p). -/
theorem euclid_inverse_fst (u : Int) (hp : 0 < p) (hlt : p < 2 ^ 256) :
    (euclid euclidFuel p (u % p).toNat 0 1).1 = Nat.gcd p (u % p).toNat := by
  have hr := emod_toNat_lt u hp
  exact euclid_fst _ _ hr.le (mul_lt_two_pow hlt (hr.trans hlt) (by decide))

/-- What `inverse` gives when it gives something: a residue whose product with u is 1 (47_ec.md R292). -/
theorem inverse_of_coprime (hp : 0 < p) (hlt : p < 2 ^ 256) (h : Nat.Coprime (u % p).toNat p) :
    ∃ v, inverse u p = some v ∧ v < p ∧ u * v ≡ 1 [ZMOD p] := by
  have hgcd : (euclid euclidFuel p (u % p).toNat 0 1).1 = 1 := (euclid_inverse_fst u hp hlt).trans h.symm
  refine ⟨_, by simp only [inverse, hgcd]; rfl, emod_toNat_lt _ hp, ?_⟩
  have hmod := euclid_modEq (p := p) (u := u) (fuel := euclidFuel) (r0 := p) (r1 := (u % p).toNat) (s0 := 0) (s1 := 1)
    (by simp [Int.ModEq]) (by rw [natCast_emod_toNat u hp, one_mul]; exact (Int.mod_modEq u p).symm)
  rw [hgcd, mul_comm] at hmod
  rw [natCast_emod_toNat _ hp]
  exact ((Int.mod_modEq _ _).mul_left u).trans hmod

/-- `inverse` raises NonInvertible when there is no inverse (47_ec.md R292). -/
theorem inverse_of_not_coprime (hp : 0 < p) (hlt : p < 2 ^ 256) (h : ¬ Nat.Coprime (u % p).toNat p) :
    inverse u p = none := by
  have hgcd : (euclid euclidFuel p (u % p).toNat 0 1).1 ≠ 1 :=
    fun he => h ((Nat.gcd_comm _ _).trans ((euclid_inverse_fst u hp hlt).symm.trans he))
  exact if_pos hgcd

/-- Two residues that are both inverse to u are the same one. -/
theorem eq_of_mul_modEq_one {v v' : Nat} (hv : v < p) (hv' : v' < p) (h : u * v ≡ 1 [ZMOD p])
    (h' : u * v' ≡ 1 [ZMOD p]) : v' = v := by
  have hmod : (v' : Int) ≡ v [ZMOD p] := calc
    (v' : Int) = v' * 1 := (mul_one _).symm
    _ ≡ v' * (u * v) [ZMOD p] := (h.symm.mul_left _)
    _ = v * (u * v') := by ring
    _ ≡ v * 1 [ZMOD p] := h'.mul_left _
    _ = v := mul_one _
  exact Nat.ModEq.eq_of_lt_of_lt ((Int.natCast_modEq_iff).1 hmod) hv' hv

end

end Ec

/-- Settles O47: the loop ends at the greatest common divisor with the inverse as its coefficient. -/
theorem inverseIsTheModularInverse : Obligations.InverseIsTheModularInverse := by
  intro u p hp hlt
  have hpos : 0 < p := by omega
  have hone : (1 : Int) % p = 1 := Int.emod_eq_of_lt (by decide) (by omega)
  refine ⟨fun h => ?_, Ec.inverse_of_not_coprime hpos hlt⟩
  obtain ⟨v, hinv, hv, hmul⟩ := Ec.inverse_of_coprime hpos hlt h
  have hv0 : v ≠ 0 := by
    rintro rfl
    simp [Int.ModEq, hone] at hmul
  exact ⟨v, hinv, Nat.one_le_iff_ne_zero.2 hv0, hv, Eq.trans hmul hone, fun v' _ hv' hmul' =>
    Ec.eq_of_mul_modEq_one hv hv' hmul (Eq.trans hmul' hone.symm)⟩

end Sys2Proof.Machine
end

section
/-! SUPPORT. The point formulas (47_ec.md R293 to R297), one equation per case, and that what arithmetic stores is
reduced (R290, R301), whatever the modulus. -/

namespace Sys2Proof.Machine

namespace Ec

section

variable {c : Curve} {m x1 y1 x2 : Int} {x y : Word256} {p q r : Point}

/-! ### Residues -/

/-- A stored residue is below the modulus (47_ec.md R290). -/
theorem residue_lt (v : Int) {p : Nat} (hp : 0 < p) : (residue v p).toNat < p := by
  rw [residue, BitVec.toNat_ofNat]
  exact (Nat.mod_le _ _).trans_lt (emod_toNat_lt v hp)

/-- A 256-bit modulus loses nothing of a residue (47_ec.md R290). -/
theorem residue_toNat (v : Int) {p : Nat} (hp : 0 < p) (hlt : p < 2 ^ 256) : ((residue v p).toNat : Int) = v % p := by
  rw [residue, BitVec.toNat_ofNat, Nat.mod_eq_of_lt ((emod_toNat_lt v hp).trans hlt), natCast_emod_toNat v hp]

/-! ### The cases of the formulas -/

theorem onCurve_affine_iff : onCurve c (.affine x y) = true ↔ x.toNat < c.p ∧ y.toNat < c.p ∧
    ((y.toNat : Int) ^ 2 - (x.toNat : Int) ^ 3 - c.a * x.toNat - c.b) % c.p = 0 := by
  simp only [onCurve, Bool.and_eq_true, decide_eq_true_eq, and_assoc]

/-- The point of a slope satisfies the `x3` and `y3` formulas (47_ec.md R296, R297). -/
theorem slopeResult_chord (hp : 0 < c.p) (hlt : c.p < 2 ^ 256) :
    SlopeResult c.p m x1 y1 x2 (some (chord c m x1 y1 x2)) := by
  refine ⟨_, _, rfl, ?_, ?_⟩
  · rw [residue_toNat _ hp hlt, Int.emod_emod]
  · rw [residue_toNat _ hp hlt, residue_toNat _ hp hlt, Int.emod_emod, Int.emod_emod]

@[simp] theorem double_of_y_zero (c : Curve) (x : Word256) : double c (.affine x 0) = some .infinity := rfl

theorem double_of_not_invertible (hy : y ≠ 0) (h : inverse (2 * (y.toNat : Int)) c.p = none) :
    double c (.affine x y) = none := by
  rw [double, if_neg hy, h]

theorem double_of_inverse (hy : y ≠ 0) {v : Nat} (h : inverse (2 * (y.toNat : Int)) c.p = some v) :
    double c (.affine x y) =
      some (chord c (((3 * (x.toNat : Int) ^ 2 + c.a) * v) % c.p) x.toNat y.toNat x.toNat) := by
  rw [double, if_neg hy, h]

@[simp] theorem add_infinity_left (c : Curve) (q : Point) : add c .infinity q = some q := by cases q <;> rfl

@[simp] theorem add_infinity_right (c : Curve) (p : Point) : add c p .infinity = some p := by cases p <;> rfl

theorem add_of_opposite {y1 y2 : Word256} (h : (y1.toNat + y2.toNat) % c.p = 0) :
    add c (.affine x y1) (.affine x y2) = some .infinity := if_pos ⟨rfl, h⟩

theorem add_self (h : (y.toNat + y.toNat) % c.p ≠ 0) : add c (.affine x y) (.affine x y) = double c (.affine x y) := by
  rw [add, if_neg fun hxy => h hxy.2, if_pos ⟨rfl, rfl⟩]

section Secant

variable {x1 y1 x2 y2 : Word256} (hne : ¬ (x1 = x2 ∧ ((y1.toNat + y2.toNat) % c.p = 0 ∨ y1 = y2)))
include hne

theorem add_of_not_invertible (h : inverse ((x2.toNat : Int) - x1.toNat) c.p = none) :
    add c (.affine x1 y1) (.affine x2 y2) = none := by
  rw [add, if_neg fun hxy => hne ⟨hxy.1, .inl hxy.2⟩, if_neg fun hxy => hne ⟨hxy.1, .inr hxy.2⟩, h]

theorem add_of_inverse {v : Nat} (h : inverse ((x2.toNat : Int) - x1.toNat) c.p = some v) :
    add c (.affine x1 y1) (.affine x2 y2) =
      some (chord c ((((y2.toNat : Int) - y1.toNat) * v) % c.p) x1.toNat y1.toNat x2.toNat) := by
  rw [add, if_neg fun hxy => hne ⟨hxy.1, .inl hxy.2⟩, if_neg fun hxy => hne ⟨hxy.1, .inr hxy.2⟩, h]

end Secant

/-! ### Reduced points -/

/-- The coordinates of a point are below p (47_ec.md R290). -/
def Reduced (p : Nat) : Point → Prop
  | .infinity => True
  | .affine x y => x.toNat < p ∧ y.toNat < p

theorem Reduced.eq_infinity_or_affine {p : Nat} {r : Point} (h : Reduced p r) :
    r = .infinity ∨ ∃ x y : Word256, r = .affine x y ∧ x.toNat < p ∧ y.toNat < p := by
  cases r with
  | infinity => exact .inl rfl
  | affine x y => exact .inr ⟨x, y, rfl, h⟩

/-- The on-curve test is a range test too (47_ec.md R294). -/
theorem reduced_of_onCurve (h : onCurve c p = true) : Reduced c.p p := by
  cases p with
  | infinity => trivial
  | affine x y =>
    obtain ⟨hx, hy, -⟩ := onCurve_affine_iff.1 h
    exact ⟨hx, hy⟩

variable (hp : 0 < c.p)
include hp

theorem reduced_chord : Reduced c.p (chord c m x1 y1 x2) := ⟨residue_lt _ hp, residue_lt _ hp⟩

theorem reduced_neg (h : Reduced c.p p) : Reduced c.p (neg c p) := by
  cases p with
  | infinity => trivial
  | affine x y => exact ⟨h.1, residue_lt _ hp⟩

theorem reduced_double (h : double c p = some r) : Reduced c.p r := by
  cases p with
  | infinity => cases h; trivial
  | affine x y =>
    by_cases hy : y = 0
    · rw [hy, double_of_y_zero] at h
      cases h; trivial
    · cases hinv : inverse (2 * (y.toNat : Int)) c.p with
      | none => cases (double_of_not_invertible hy hinv).symm.trans h
      | some v =>
        cases (double_of_inverse hy hinv).symm.trans h
        exact reduced_chord hp

theorem reduced_add (h1 : Reduced c.p p) (h2 : Reduced c.p q) (h : add c p q = some r) : Reduced c.p r := by
  cases p with
  | infinity => cases (add_infinity_left c q).symm.trans h; exact h2
  | affine x1 y1 =>
    cases q with
    | infinity => cases h; exact h1
    | affine x2 y2 =>
      by_cases hsame : x1 = x2 ∧ ((y1.toNat + y2.toNat) % c.p = 0 ∨ y1 = y2)
      · obtain ⟨rfl, hy⟩ := hsame
        by_cases hopp : (y1.toNat + y2.toNat) % c.p = 0
        · cases (add_of_opposite hopp).symm.trans h; trivial
        · obtain rfl := hy.resolve_left hopp
          exact reduced_double hp ((add_self hopp).symm.trans h)
      · cases hinv : inverse ((x2.toNat : Int) - x1.toNat) c.p with
        | none => cases (add_of_not_invertible hsame hinv).symm.trans h
        | some v =>
          cases (add_of_inverse hsame hinv).symm.trans h
          exact reduced_chord hp

end

end Ec

end Sys2Proof.Machine
end

section
/-! SUPPORT. The loop of scalar multiplication (47_ec.md R298): one equation per way an iteration can go, and the whole
loop as a run of numbered iterations. -/

namespace Sys2Proof.Machine

namespace Ec

/-- R after an iteration that still has the scalar bits m: Q is added when the lowest is 1 (47_ec.md R298). -/
def accumulate (c : Curve) (m : Nat) (r q : Point) : Option Point := if m % 2 = 1 then add c r q else some r

/-- Q after an iteration that still has the scalar bits m: doubled unless the iteration is the last (47_ec.md R298). -/
def advance (c : Curve) (m : Nat) (q : Point) : Option Point := if m / 2 ≠ 0 then double c q else some q

section Loop

variable {c : Curve} {fuel m : Nat} {r q r' q' : Point}

@[simp] theorem mulLoop_zero_scalar : mulLoop c fuel 0 r q = ([], some r) := by cases fuel <;> rfl

theorem mulLoop_of_accumulate_none (hm : m ≠ 0) (h : accumulate c m r q = none) :
    mulLoop c (fuel + 1) m r q = ([], none) := by
  unfold accumulate at h
  rw [mulLoop, if_neg hm, h]

theorem mulLoop_of_advance_none (hm : m ≠ 0) (h : accumulate c m r q = some r') (h' : advance c m q = none) :
    mulLoop c (fuel + 1) m r q = ([], none) := by
  unfold accumulate at h
  unfold advance at h'
  rw [mulLoop, if_neg hm, h]
  simp only [h']

theorem mulLoop_of_iteration (hm : m ≠ 0) (h : accumulate c m r q = some r') (h' : advance c m q = some q') :
    mulLoop c (fuel + 1) m r q =
      ((r', q') :: (mulLoop c fuel (m / 2) r' q').1, (mulLoop c fuel (m / 2) r' q').2) := by
  unfold accumulate at h
  unfold advance at h'
  rw [mulLoop, if_neg hm, h]
  simp only [h']

/-- The three ways an iteration can go. -/
theorem iteration_cases (c : Curve) (m : Nat) (r q : Point) :
    accumulate c m r q = none ∨ (∃ r', accumulate c m r q = some r' ∧ advance c m q = none) ∨
    ∃ r' q', accumulate c m r q = some r' ∧ advance c m q = some q' := by
  cases accumulate c m r q <;> cases advance c m q <;> simp

/-! ### What the loop computes is reduced -/

section Reduced

variable (hp : 0 < c.p) (hr : Reduced c.p r) (hq : Reduced c.p q)
include hp hq

theorem reduced_advance (h : advance c m q = some q') : Reduced c.p q' := by
  unfold advance at h
  split at h
  · exact reduced_double hp h
  · cases h; exact hq

include hr

theorem reduced_accumulate (h : accumulate c m r q = some r') : Reduced c.p r' := by
  unfold accumulate at h
  split at h
  · exact reduced_add hp hr hq h
  · cases h; exact hr

theorem reduced_mulLoop {out : Point} (h : (mulLoop c fuel m r q).2 = some out) : Reduced c.p out := by
  induction fuel generalizing m r q with
  | zero => cases h; exact hr
  | succ fuel ih =>
    rcases Nat.eq_zero_or_pos m with rfl | hm
    · cases h; exact hr
    · obtain hadd | ⟨r', hadd, hdbl⟩ | ⟨r', q', hadd, hdbl⟩ := iteration_cases c m r q
      · rw [mulLoop_of_accumulate_none hm.ne' hadd] at h; cases h
      · rw [mulLoop_of_advance_none hm.ne' hadd hdbl] at h; cases h
      · rw [mulLoop_of_iteration hm.ne' hadd hdbl] at h
        exact ih (reduced_accumulate hp hr hq hadd) (reduced_advance hp hq hdbl) h

end Reduced

theorem reduced_scalarMultiply {p out : Point} {k : Word256} (hp : 0 < c.p) (h : Reduced c.p p)
    (hout : (scalarMultiply c p k).2 = some out) : Reduced c.p out :=
  reduced_mulLoop (r := .infinity) hp trivial h hout

end Loop

/-! ### The loop as a run -/

/-- The scalar's bits from the i-th on, as the i-th iteration finds them. -/
theorem div_two_pow_succ (k i : Nat) : k / 2 ^ (i + 1) = k / 2 / 2 ^ i := by
  rw [Nat.pow_succ', Nat.div_div_eq_div_mul]

theorem div_two_pow_mod_two (k i : Nat) : k / 2 ^ i % 2 = 1 ↔ k.testBit i = true := by
  rw [Nat.testBit_eq_decide_div_mod_eq, decide_eq_true_eq]

/-- Bits are left after iteration i exactly when it is not the last. -/
theorem div_two_pow_div_two_ne_zero (k i : Nat) : k / 2 ^ i / 2 ≠ 0 ↔ i + 1 < Nat.size k := by
  rw [Nat.lt_size, Nat.div_div_eq_div_mul, ← Nat.pow_succ, ← Nat.pos_iff_ne_zero, Nat.div_pos_iff]
  have := Nat.two_pow_pos (i + 1)
  omega

theorem size_eq_size_half {k : Nat} (hk : k ≠ 0) : Nat.size k = Nat.size (k / 2) + 1 := by
  have hbit := Nat.size_bit (b := k.bodd) (n := k.div2) (by rwa [Nat.bit_bodd_div2])
  rwa [Nat.bit_bodd_div2, Nat.div2_val] at hbit

/-- A loop over the bits of k makes n iterations, (R, Q) being (r i, q i) before iteration i, and ends with `out`:
either with every bit done, or because iteration n fails. -/
structure MulRun (c : Curve) (k n : Nat) (r q : Nat → Point) (out : List (Point × Point) × Option Point) : Prop where
  le_size : n ≤ Nat.size k
  accumulates : ∀ i < n, accumulate c (k / 2 ^ i) (r i) (q i) = some (r (i + 1))
  advances : ∀ i < n, advance c (k / 2 ^ i) (q i) = some (q (i + 1))
  iterations : out.1 = (List.range n).map fun i => (r (i + 1), q (i + 1))
  result : n = Nat.size k → out.2 = some (r n)
  failure : n < Nat.size k → out.2 = none ∧
    (accumulate c (k / 2 ^ n) (r n) (q n) = none ∨ advance c (k / 2 ^ n) (q n) = none)

/-- The sequence `f` with `p` before it. -/
def prepend (p : Point) (f : Nat → Point) : Nat → Point
  | 0 => p
  | i + 1 => f i

section Run

variable {c : Curve} {k : Nat} {r0 q0 : Point}

/-- A scalar of 0 takes no iteration. -/
theorem mulRun_zero_scalar : MulRun c 0 0 (fun _ => r0) (fun _ => q0) ([], some r0) := by
  constructor <;> simp

/-- A first iteration that fails. -/
theorem mulRun_of_failure (hk : k ≠ 0) (h : accumulate c k r0 q0 = none ∨ advance c k q0 = none) :
    MulRun c k 0 (fun _ => r0) (fun _ => q0) ([], none) := by
  have hsize : 0 < Nat.size k := Nat.size_pos.2 (Nat.pos_iff_ne_zero.2 hk)
  constructor <;> simp [hsize.ne, h]

/-- A first iteration and then a run over the other bits. -/
theorem MulRun.cons {n : Nat} {r q : Nat → Point} {out : List (Point × Point) × Option Point}
    (hrun : MulRun c (k / 2) n r q out) (hk : k ≠ 0) (hadd : accumulate c k r0 q0 = some (r 0))
    (hdbl : advance c k q0 = some (q 0)) :
    MulRun c k (n + 1) (prepend r0 r) (prepend q0 q) ((r 0, q 0) :: out.1, out.2) where
  le_size := by rw [size_eq_size_half hk]; exact Nat.succ_le_succ hrun.le_size
  accumulates i hi := by
    cases i with
    | zero => rw [pow_zero, Nat.div_one]; exact hadd
    | succ i => rw [div_two_pow_succ]; exact hrun.accumulates i (by omega)
  advances i hi := by
    cases i with
    | zero => rw [pow_zero, Nat.div_one]; exact hdbl
    | succ i => rw [div_two_pow_succ]; exact hrun.advances i (by omega)
  iterations := by rw [hrun.iterations, List.range_succ_eq_map, List.map_cons, List.map_map]; rfl
  result hn := hrun.result (by rw [size_eq_size_half hk] at hn; omega)
  failure hn := by rw [div_two_pow_succ]; exact hrun.failure (by rw [size_eq_size_half hk] at hn; omega)

/-- The loop is a run from its R and Q, when its fuel covers the scalar's bits. -/
theorem exists_mulRun {fuel : Nat} (hk : k < 2 ^ fuel) :
    ∃ n r q, r 0 = r0 ∧ q 0 = q0 ∧ MulRun c k n r q (mulLoop c fuel k r0 q0) := by
  induction fuel generalizing k r0 q0 with
  | zero =>
    obtain rfl : k = 0 := by simpa using hk
    exact ⟨_, _, _, rfl, rfl, mulRun_zero_scalar⟩
  | succ fuel ih =>
    by_cases h0 : k = 0
    · rw [h0, mulLoop_zero_scalar]
      exact ⟨_, _, _, rfl, rfl, mulRun_zero_scalar⟩
    · obtain hadd | ⟨r', hadd, hdbl⟩ | ⟨r', q', hadd, hdbl⟩ := iteration_cases c k r0 q0
      · rw [mulLoop_of_accumulate_none h0 hadd]
        exact ⟨_, _, _, rfl, rfl, mulRun_of_failure h0 (.inl hadd)⟩
      · rw [mulLoop_of_advance_none h0 hadd hdbl]
        exact ⟨_, _, _, rfl, rfl, mulRun_of_failure h0 (.inr hdbl)⟩
      · rw [mulLoop_of_iteration h0 hadd hdbl]
        obtain ⟨n, r, q, rfl, rfl, hrun⟩ := ih (k := k / 2) (r0 := r') (q0 := q') (by rw [pow_succ] at hk; omega)
        exact ⟨_, _, _, rfl, rfl, hrun.cons h0 hadd hdbl⟩

/-- Scalar multiplication is a run from R = Infinity and Q = P (47_ec.md R298). -/
theorem exists_mulRun_scalarMultiply (c : Curve) (p : Point) (k : Word256) :
    ∃ n r q, r 0 = .infinity ∧ q 0 = p ∧ MulRun c k.toNat n r q (scalarMultiply c p k) :=
  exists_mulRun k.isLt

/-- A run with a result has one iteration per bit of the scalar. -/
theorem MulRun.eq_size_of_result {n : Nat} {r q : Nat → Point} {out : List (Point × Point) × Option Point} {p : Point}
    (hrun : MulRun c k n r q out) (h : out.2 = some p) : n = Nat.size k := by
  refine hrun.le_size.antisymm (not_lt.1 fun hlt => ?_)
  cases (hrun.failure hlt).1.symm.trans h

/-! ### An iteration of a run by the scalar's bits -/

variable {i : Nat} {r q r' q' : Point}

theorem accumulate_of_bit (hi : k.testBit i = true) : accumulate c (k / 2 ^ i) r q = add c r q :=
  if_pos ((div_two_pow_mod_two k i).2 hi)

theorem accumulate_of_no_bit (hi : k.testBit i = false) : accumulate c (k / 2 ^ i) r q = some r :=
  if_neg fun h => by simp [(div_two_pow_mod_two k i).1 h] at hi

theorem advance_of_not_last (hi : i + 1 < Nat.size k) : advance c (k / 2 ^ i) q = double c q :=
  if_pos ((div_two_pow_div_two_ne_zero k i).2 hi)

theorem advance_of_last (hi : Nat.size k ≤ i + 1) : advance c (k / 2 ^ i) q = some q :=
  if_neg fun h => hi.not_gt ((div_two_pow_div_two_ne_zero k i).1 h)

theorem accumulate_eq_none (h : accumulate c (k / 2 ^ i) r q = none) : k.testBit i = true ∧ add c r q = none := by
  cases hi : k.testBit i with
  | false => cases (accumulate_of_no_bit hi).symm.trans h
  | true => exact ⟨rfl, (accumulate_of_bit hi).symm.trans h⟩

theorem advance_eq_none (h : advance c (k / 2 ^ i) q = none) : i + 1 < Nat.size k ∧ double c q = none := by
  rcases lt_or_ge (i + 1) (Nat.size k) with hi | hi
  · exact ⟨hi, (advance_of_not_last hi).symm.trans h⟩
  · cases (advance_of_last hi).symm.trans h

end Run

end Ec

end Sys2Proof.Machine
end

section
/-! SUPPORT. The elliptic-curve commands that load, store and test (47_ec.md R310 to R315): their outcomes and what each
leaves. -/

namespace Sys2Proof.Machine

section Commands

variable {s t : State}

/-! ### General facts -/

@[simp] theorem State.emit_nil (s : State) : s.emit [] = s := by simp [State.emit]

/-- A command that emits no record leaves the sink as it is. -/
theorem TraceGrowsBy.trace_eq (h : TraceGrowsBy [] s t) : t.trace = s.trace := by simpa [TraceGrowsBy] using h

/-- A byte sequence stands in storage when its two parts stand one after the other. -/
theorem storedAt_append {lo : Nat} {xs ys : List Byte} :
    StoredAt t lo (xs ++ ys) ↔ StoredAt t lo xs ∧ StoredAt t (lo + xs.length) ys := by
  refine ⟨fun h => ⟨fun j hj => ?_, fun j hj => ?_⟩, fun h j hj => ?_⟩
  · rw [h j (by simp; omega), List.getElem?_append_left hj]
  · rw [Nat.add_assoc, h (xs.length + j) (by simp; omega), List.getElem?_append_right (by omega),
      Nat.add_sub_cancel_left]
  · rcases lt_or_ge j xs.length with hlt | hge
    · rw [h.1 j hlt, List.getElem?_append_left hlt]
    · obtain ⟨i, rfl⟩ := Nat.exists_eq_add_of_le hge
      rw [← Nat.add_assoc, h.2 i (by simpa using hj), List.getElem?_append_right hge, Nat.add_sub_cancel_left]

theorem storedAt_singleton {lo : Nat} {b : Byte} (h : StoredAt t lo [b]) : t.stored lo = some b := h 0 Nat.zero_lt_one

/-- A word that stands in storage little-endian, byte by byte. -/
theorem stored_of_storedAt_natToLe {lo n j : Nat} {x : Word256} (h : StoredAt t lo (natToLe n x.toNat)) (hj : j < n) :
    t.stored (lo + j) = some (x.extractLsb' (8 * j) 8) := by
  rw [h j (by simpa using hj), natToLe_toNat_getElem? x hj]

theorem natToLe_zero (n : Nat) : natToLe n 0 = List.replicate n 0 := by
  induction n with
  | zero => rfl
  | succ n ih => rw [natToLe, Nat.zero_div, ih, List.replicate_succ]; rfl

/-- A word is determined by its number. -/
theorem ofNat_eq_of_toNat_eq {x : Word256} {n : Nat} (h : x.toNat = n) : BitVec.ofNat 256 n = x := by
  rw [← h, BitVec.ofNat_toNat, BitVec.setWidth_eq]

/-- A slot of DIN is stored whole (00_scope.md R12). -/
theorem State.toNat_ofNat_slot (s : State) (i : Nat) : (BitVec.ofNat 256 (s.slot i)).toNat = s.slot i := by
  rw [BitVec.toNat_ofNat, Nat.mod_eq_of_lt (s.slot_lt i)]

/-! ### Outcomes -/

/-- EC_SETCURVE with operands that make no curve (47_ec.md R310). -/
theorem execEcSetcurve_singular (h : singular (s.slot 0) (s.slot 1) (s.slot 2)) :
    execEcSetcurve s = .next ((s.setEcValid false false).raise .singularCurve) := by
  simp only [execEcSetcurve]
  exact congrArg _ (if_pos h)

/-- EC_SETCURVE with operands that make a curve (47_ec.md R310). -/
theorem execEcSetcurve_nonsingular (h : ¬ singular (s.slot 0) (s.slot 1) (s.slot 2)) :
    execEcSetcurve s =
      .next (((s.setCurve (s.slot 0 % s.slot 2) (s.slot 1 % s.slot 2) (s.slot 2)).setEcValid true false).finish) := by
  simp only [execEcSetcurve]
  exact congrArg _ (if_neg h)

/-- What EC_SETCURVE leaves when it stores a curve: all but the curve and its flags. -/
theorem storesCurve_frame (s : State) (a b p : Nat) :
    let t := ((s.setCurve a b p).setEcValid true false).finish
    SameBase s t ∧ SamePoints s t ∧ SameScalars s t ∧ SameDigest s t ∧ SameStorage s t ∧ SameControl s t ∧
      t.trace = s.trace :=
  ⟨⟨rfl, rfl⟩, ⟨rfl, rfl⟩, ⟨rfl, rfl⟩, ⟨rfl, rfl, rfl, rfl⟩, fun _ => rfl, ⟨rfl, rfl, rfl, rfl, rfl, rfl⟩, rfl⟩

/-- EC_SETBASE without a curve (47_ec.md R311). -/
theorem execEcSetbase_notConfigured (hcv : s.status.ecCv = false) : execEcSetbase s = .next (s.raise .notConfigured) :=
  if_pos hcv

section Setbase

variable {x y : Word256} (hcv : s.status.ecCv = true) (hx : x.toNat = s.slot 0) (hy : y.toNat = s.slot 1)
include hcv hx hy

/-- EC_SETBASE with a point off the curve (47_ec.md R311). -/
theorem execEcSetbase_offCurve (hon : Ec.onCurve s.curve (.affine x y) = false) :
    execEcSetbase s = .next ((s.setEcGv false).raise .pointNotOnCurve) := by
  rw [execEcSetbase, if_neg (by simp [hcv]), ofNat_eq_of_toNat_eq hx, ofNat_eq_of_toNat_eq hy]
  exact if_pos hon

/-- EC_SETBASE with a point on the curve (47_ec.md R311). -/
theorem execEcSetbase_onCurve (hon : Ec.onCurve s.curve (.affine x y) = true) :
    execEcSetbase s = .next (((s.setBase (.affine x y) (s.slot 2)).setEcGv true).finish) := by
  rw [execEcSetbase, if_neg (by simp [hcv]), ofNat_eq_of_toNat_eq hx, ofNat_eq_of_toNat_eq hy]
  exact if_neg (by simp [hon])

end Setbase

/-- What EC_SETBASE leaves when it stores a base point: all but the base and its flag. -/
theorem storesBase_frame (s : State) (g : Point) (n : Nat) :
    let t := ((s.setBase g n).setEcGv true).finish
    SameCurve s t ∧ SamePoints s t ∧ SameScalars s t ∧ SameDigest s t ∧ SameStorage s t ∧ SameControl s t ∧
      t.trace = s.trace :=
  ⟨⟨rfl, rfl, rfl⟩, ⟨rfl, rfl⟩, ⟨rfl, rfl⟩, ⟨rfl, rfl, rfl, rfl⟩, fun _ => rfl, ⟨rfl, rfl, rfl, rfl, rfl, rfl⟩, rfl⟩

/-- EC_LDPT with the infinity flag (47_ec.md R312). -/
theorem execEcLdpt_infinity (rd : PReg) (h : (s.byte 0x140).getLsbD 0 = true) :
    execEcLdpt rd s = .next ((s.writePr rd .infinity).finish) := by
  have hflag : (s.din 64).getLsbD 0 = true := h
  rw [execEcLdpt, if_pos hflag]

/-- EC_LDPT without the infinity flag (47_ec.md R312). -/
theorem execEcLdpt_affine (rd : PReg) (h : (s.byte 0x140).getLsbD 0 = false) : execEcLdpt rd s =
    .next ((s.writePr rd (.affine (BitVec.ofNat 256 (s.slot 0)) (BitVec.ofNat 256 (s.slot 1)))).finish) := by
  have hflag : (s.din 64).getLsbD 0 = false := h
  rw [execEcLdpt, if_neg (by rw [hflag]; decide)]

/-- What EC_LDPT leaves, whatever point it loads. -/
theorem loadsPoint_spec (s : State) (rd : PReg) (p : Point) : CompletedWith (s.writePr rd p).finish s.status ∧
    HoldsPoint (s.writePr rd p).finish rd p ∧ SameRegistersBut [rd] s (s.writePr rd p).finish ∧
    SameStorage s (s.writePr rd p).finish ∧ SameControl s (s.writePr rd p).finish ∧
    (s.writePr rd p).finish.trace = s.trace := by
  obtain ⟨hdone, hholds, hreg, hmem, hctrl, htrace⟩ := writesPoint_spec s [] rd p
  rw [State.emit_nil] at hdone hholds hreg hmem hctrl htrace
  exact ⟨hdone, hholds, hreg, hmem, hctrl, htrace.trace_eq⟩

/-- EC_ONCURVE without a curve (47_ec.md R315). -/
theorem execEcOncurve_notConfigured (ra : PReg) (hcv : s.status.ecCv = false) :
    execEcOncurve ra s = .next (s.raise .notConfigured) := if_pos hcv

/-- EC_ONCURVE with a curve (47_ec.md R315). -/
theorem execEcOncurve_configured (ra : PReg) (hcv : s.status.ecCv = true) : execEcOncurve ra s =
    .next ((s.writeDout 0 [if Ec.onCurve s.curve (s.readPr ra) then 1 else 0, 0, 0, 0]).finish) := by
  rw [execEcOncurve, if_neg (by simp [hcv])]

/-- What a command that writes bytes of DOUT and emits nothing leaves. -/
theorem writesDout_spec (s : State) (bs : List Byte) : CompletedWith (s.writeDout 0 bs).finish s.status ∧
    StoredAt (s.writeDout 0 bs).finish 0x180 bs ∧ SameStorageOutside 0x180 bs.length s (s.writeDout 0 bs).finish ∧
    SameRegisters s (s.writeDout 0 bs).finish ∧ SameControl s (s.writeDout 0 bs).finish ∧
    (s.writeDout 0 bs).finish.trace = s.trace := by
  obtain ⟨hdone, hbytes, hmem, hctrl, hreg, htrace⟩ :=
    stores_spec (s := s) (fun u => u.writeDout 0 bs) [] 0x180 bs (fun _ => rfl)
  rw [State.emit_nil] at hdone hbytes hmem hctrl hreg htrace
  exact ⟨hdone, hbytes, hmem, hreg, hctrl, htrace.trace_eq⟩

end Commands

/-- Settles O51, by the two outcomes. -/
theorem ecSetcurveSetsTheCurve : Obligations.EcSetcurveSetsTheCurve := by
  refine ⟨fun s h => ⟨_, execEcSetcurve_singular h, ⟨rfl, rfl⟩, onlyStatusWritten_complete s _ _⟩, fun s h => ?_⟩
  refine ⟨_, execEcSetcurve_nonsingular h, ⟨rfl, rfl⟩, ?_, ?_, s.toNat_ofNat_slot 2, storesCurve_frame s _ _ _⟩
  · exact Nat.mod_eq_of_lt ((Nat.mod_le _ _).trans_lt (s.slot_lt 0))
  · exact Nat.mod_eq_of_lt ((Nat.mod_le _ _).trans_lt (s.slot_lt 1))

/-- Settles O52, by the three outcomes. -/
theorem ecSetbaseSetsTheBase : Obligations.EcSetbaseSetsTheBase := by
  refine ⟨fun s hcv => ?_, fun s x y hcv hx hy hon => ?_, fun s x y hcv hx hy hon => ?_⟩
  · exact ⟨_, execEcSetbase_notConfigured hcv, ⟨rfl, rfl⟩, onlyStatusWritten_complete s s.status _⟩
  · exact ⟨_, execEcSetbase_offCurve hcv hx hy hon, ⟨rfl, rfl⟩, onlyStatusWritten_complete s _ _⟩
  · exact ⟨_, execEcSetbase_onCurve hcv hx hy hon, ⟨rfl, rfl⟩, rfl, s.toNat_ofNat_slot 2,
      storesBase_frame s _ _⟩

/-- Settles O53: EC_LDPT by its flag, and EC_LDK's one register. -/
theorem ecLoads : Obligations.EcLoads := by
  refine ⟨fun s rd => ?_, fun s ks => ⟨_, rfl, ⟨rfl, rfl⟩, ?_, ?_, fun j hj => ?_, ⟨rfl, rfl⟩, ⟨rfl, rfl, rfl⟩,
    ⟨rfl, rfl⟩, ⟨rfl, rfl, rfl, rfl⟩, fun _ => rfl, ⟨rfl, rfl, rfl, rfl, rfl, rfl⟩, rfl⟩⟩
  · cases hflag : (s.byte 0x140).getLsbD 0 with
    | true =>
      obtain ⟨hdone, hholds, hframe⟩ := loadsPoint_spec s rd .infinity
      exact ⟨_, execEcLdpt_infinity rd hflag, hdone, fun _ => hholds, by simp, hframe⟩
    | false =>
      obtain ⟨hdone, hholds, hframe⟩ :=
        loadsPoint_spec s rd (.affine (BitVec.ofNat 256 (s.slot 0)) (BitVec.ofNat 256 (s.slot 1)))
      exact ⟨_, execEcLdpt_affine rd hflag, hdone, by simp,
        fun _ => ⟨_, _, s.toNat_ofNat_slot 0, s.toNat_ofNat_slot 1, hholds⟩, hframe⟩
  · simp
  · simpa using s.toNat_ofNat_slot 0
  · have hne : ks.val ≠ j.val := fun e => hj (Fin.ext e.symm)
    simp [hne]

/-- Settles O54: the parts of the point's byte form stand one after the other. -/
theorem ecStptStoresThePoint : Obligations.EcStptStoresThePoint := by
  intro s ra
  obtain ⟨t, ht⟩ : ∃ t, t = (s.writeDout 0 (Ec.pointBytes (s.readPr ra) ++ [0, 0, 0])).finish := ⟨_, rfl⟩
  obtain ⟨hdone, hbytes, hmem, hframe⟩ := writesDout_spec s (Ec.pointBytes (s.readPr ra) ++ [0, 0, 0])
  rw [← ht] at hdone hbytes hmem hframe
  obtain ⟨hpoint, hpad⟩ := storedAt_append.1 hbytes
  rw [Ec.pointBytes_length] at hpad
  refine ⟨t, congrArg _ ht.symm, hdone, fun hp => ?_, fun x y hp => ?_, hpad, by simpa using hmem, hframe⟩
  · rw [hp, Ec.pointBytes] at hpoint
    obtain ⟨hzero, hinf⟩ := storedAt_append.1 hpoint
    refine ⟨fun j hj => ?_, storedAt_singleton hinf⟩
    rw [natToLe_zero, List.replicate_append_replicate] at hzero
    rw [hzero j (by rw [List.length_replicate]; exact hj), List.getElem?_replicate, if_pos hj]
  · rw [hp, Ec.pointBytes] at hpoint
    obtain ⟨hxy, hinf⟩ := storedAt_append.1 hpoint
    obtain ⟨hx, hy⟩ := storedAt_append.1 hxy
    exact ⟨fun j hj => stored_of_storedAt_natToLe hx hj, fun j hj => stored_of_storedAt_natToLe hy hj,
      storedAt_singleton hinf⟩

/-- Settles O55: the answer is the on-curve test, written out. -/
theorem ecOncurveAnswersInDout : Obligations.EcOncurveAnswersInDout := by
  refine ⟨fun s ra hcv => ?_, fun s ra hcv => ?_⟩
  · exact ⟨_, execEcOncurve_notConfigured ra hcv, ⟨rfl, rfl⟩, onlyStatusWritten_complete s s.status _⟩
  · obtain ⟨hdone, hbytes, hframe⟩ := writesDout_spec s [if Ec.onCurve s.curve (s.readPr ra) then 1 else 0, 0, 0, 0]
    refine ⟨_, execEcOncurve_configured ra hcv, hdone, ?_, hframe⟩
    convert hbytes using 2
    cases s.readPr ra with
    | infinity => rfl
    | affine x y => simp only [Ec.onCurve_affine_iff]; rfl

end Sys2Proof.Machine
end

section
/-! SUPPORT. The elliptic-curve commands that compute points (47_ec.md R316 to R323): each, configured and with its
operands on the curve, is the end of one computation, and what that end leaves is said once. -/

namespace Sys2Proof.Machine

/-! ### The end of a computation -/

/-- What a command whose computation is not invertible leaves: the records emitted so far (47_ec.md R300). -/
theorem notInvertible_spec (s : State) (records : List (Nat × List Byte)) :
    let t := (s.emit records).complete ErrorKind.nonInvertible.code
    RaisedWith t s.status .nonInvertible ∧ SameRegisters s t ∧ SameStorage s t ∧ SameControl s t ∧
      TraceGrowsBy records s t :=
  ⟨⟨rfl, by simp⟩, sameRegisters_of_fields (by simp), fun a => State.stored_congr (by simp) a, by simp [SameControl],
    State.emit_trace s records⟩

section Commands

variable {s : State} {rd ra rb : PReg} {ks : SReg}

/-! ### Each command's computation -/

section Configured

variable (hcv : s.status.ecCv = true)
include hcv

theorem execEcNeg_onCurve (ha : Ec.onCurve s.curve (s.readPr ra) = true) : execEcNeg rd ra s =
    .next (s.finishPoint rd (State.pointRecords (some (Ec.neg s.curve (s.readPr ra))))
      (some (Ec.neg s.curve (s.readPr ra)))) := by
  rw [execEcNeg, if_neg (by simp [hcv]), if_neg (by simp [ha]), State.pointRecords]

theorem execEcAdd_onCurve (ha : Ec.onCurve s.curve (s.readPr ra) = true)
    (hb : Ec.onCurve s.curve (s.readPr rb) = true) : execEcAdd rd ra rb s =
    .next (s.finishPoint rd (State.pointRecords (Ec.add s.curve (s.readPr ra) (s.readPr rb)))
      (Ec.add s.curve (s.readPr ra) (s.readPr rb))) := by
  rw [execEcAdd, if_neg (by simp [hcv]), if_neg (by simp [ha]), if_neg (by simp [hb])]

theorem execEcDbl_onCurve (ha : Ec.onCurve s.curve (s.readPr ra) = true) : execEcDbl rd ra s =
    .next (s.finishPoint rd (State.pointRecords (Ec.double s.curve (s.readPr ra)))
      (Ec.double s.curve (s.readPr ra))) := by
  rw [execEcDbl, if_neg (by simp [hcv]), if_neg (by simp [ha])]

theorem execEcMul_onCurve (ha : Ec.onCurve s.curve (s.readPr ra) = true) : execEcMul rd ra ks s =
    .next (s.finishPoint rd (Ec.mulRecords 0 (Ec.scalarMultiply s.curve (s.readPr ra) (s.readSk ks)).1)
      (Ec.scalarMultiply s.curve (s.readPr ra) (s.readSk ks)).2) := by
  rw [execEcMul, if_neg (by simp [hcv]), if_neg (by simp [ha])]

theorem execEcPub_configured (hgv : s.status.ecGv = true) : execEcPub rd ks s =
    .next (s.finishPoint rd (Ec.mulRecords 0 (Ec.scalarMultiply s.curve s.ecG (s.readSk ks)).1)
      (Ec.scalarMultiply s.curve s.ecG (s.readSk ks)).2) := by
  rw [execEcPub, if_neg (by simp [hcv, hgv])]

theorem execEcDec_onCurve (ha : Ec.onCurve s.curve (s.readPr ra) = true)
    (hb : Ec.onCurve s.curve (s.readPr rb) = true) : execEcDec rd ra rb ks s =
    .next (s.finishPoint rd (ecDecrypt s.curve (s.readPr ra) (s.readPr rb) (s.readSk ks)).1
      (ecDecrypt s.curve (s.readPr ra) (s.readPr rb) (s.readSk ks)).2) := by
  rw [execEcDec, if_neg (by simp [hcv]), if_neg (by simp [ha]), if_neg (by simp [hb])]

section Encrypt

variable (heven : rd.val % 2 = 0) (hgv : s.status.ecGv = true) (ha : Ec.onCurve s.curve (s.readPr ra) = true)
  (hb : Ec.onCurve s.curve (s.readPr rb) = true)
include heven hgv ha hb

theorem execEcEnc_of_points {records : List (Nat × List Byte)} {c1 c2 : Point}
    (h : ecEncrypt s.curve s.ecG (s.readPr ra) (s.readPr rb) (s.readSk ks) = (records, some (c1, c2))) :
    execEcEnc rd ra rb ks s = .next ((((s.emit records).writePr rd c1).writePr (rd + 1) c2).finish) := by
  rw [execEcEnc, if_neg (by simp [heven]), if_neg (by simp [hcv, hgv]), if_neg (by simp [ha]), if_neg (by simp [hb])]
  simp only [h]

theorem execEcEnc_not_invertible {records : List (Nat × List Byte)}
    (h : ecEncrypt s.curve s.ecG (s.readPr ra) (s.readPr rb) (s.readSk ks) = (records, none)) :
    execEcEnc rd ra rb ks s = .next ((s.emit records).raise .nonInvertible) := by
  rw [execEcEnc, if_neg (by simp [heven]), if_neg (by simp [hcv, hgv]), if_neg (by simp [ha]), if_neg (by simp [hb])]
  simp only [h]

end Encrypt

end Configured

/-- EC_ENC with an odd RD stands for no legal word (notes/assumptions/9.md). -/
theorem execEcEnc_odd (hodd : rd.val % 2 = 1) : execEcEnc rd ra rb ks s = .next (s.raise .illegalCommand) :=
  if_pos (by omega)

end Commands

/-! ### The outcomes of encryption and decryption -/

section ElGamal

variable {c : Curve} {g m pu c1 c2 shared : Point} {k : Word256}

theorem ecEncrypt_of_base_none (h : (Ec.scalarMultiply c g k).2 = none) :
    ecEncrypt c g m pu k = (Ec.mulRecords 0 (Ec.scalarMultiply c g k).1, none) := by
  simp only [ecEncrypt, h]

section Base

variable (hg : (Ec.scalarMultiply c g k).2 = some c1)
include hg

theorem ecEncrypt_of_shared_none (h : (Ec.scalarMultiply c pu k).2 = none) : ecEncrypt c g m pu k =
    (Ec.mulRecords 0 (Ec.scalarMultiply c g k).1 ++ Ec.mulRecords 256 (Ec.scalarMultiply c pu k).1, none) := by
  simp only [ecEncrypt, hg, h]

section Shared

variable (hp : (Ec.scalarMultiply c pu k).2 = some shared)
include hp

theorem ecEncrypt_of_sum_none (h : Ec.add c m shared = none) : ecEncrypt c g m pu k =
    (Ec.mulRecords 0 (Ec.scalarMultiply c g k).1 ++ Ec.mulRecords 256 (Ec.scalarMultiply c pu k).1, none) := by
  simp only [ecEncrypt, hg, hp, h]

theorem ecEncrypt_of_sum (h : Ec.add c m shared = some c2) : ecEncrypt c g m pu k =
    (Ec.mulRecords 0 (Ec.scalarMultiply c g k).1 ++ Ec.mulRecords 256 (Ec.scalarMultiply c pu k).1,
      some (c1, c2)) := by
  simp only [ecEncrypt, hg, hp, h]

end Shared

end Base

theorem ecDecrypt_of_shared_none (h : (Ec.scalarMultiply c c1 k).2 = none) :
    ecDecrypt c c1 c2 k = (Ec.mulRecords 0 (Ec.scalarMultiply c c1 k).1, none) := by
  simp only [ecDecrypt, h]

theorem ecDecrypt_of_shared (h : (Ec.scalarMultiply c c1 k).2 = some shared) : ecDecrypt c c1 c2 k =
    (Ec.mulRecords 0 (Ec.scalarMultiply c c1 k).1, Ec.add c c2 (Ec.neg c shared)) := by
  simp only [ecDecrypt, h]

end ElGamal

/-- What EC_ENC leaves when it writes both points (47_ec.md R321). -/
theorem writesPoints_spec (s : State) (records : List (Nat × List Byte)) (rd : PReg) (c1 c2 : Point) :
    let t := (((s.emit records).writePr rd c1).writePr (rd + 1) c2).finish
    CompletedWith t s.status ∧ HoldsPoint t rd c1 ∧ HoldsPoint t (rd + 1) c2 ∧ SameRegistersBut [rd, rd + 1] s t ∧
      SameStorage s t ∧ SameControl s t ∧ TraceGrowsBy records s t := by
  have hne : ∀ i : PReg, (i + 1).val ≠ i.val := by decide
  refine ⟨by simp [CompletedWith], by simp [HoldsPoint, hne], by simp [HoldsPoint],
    ⟨samePointsBut_writePr₂ rd (rd + 1) c1 c2 (by simp) (by simp), ?_⟩, fun a => State.stored_congr (by simp) a,
    by simp [SameControl], by simpa [TraceGrowsBy] using State.emit_trace s records⟩
  simp [SameScalars, SameCurve, SameBase, SameDigest]

/-! ### The obligations -/

/-- Settles O56: the formulas' cases, and the one end of the three commands. -/
theorem ecNegAddDbl : Obligations.EcNegAddDbl := by
  refine ⟨fun c hp hlt => ?_, fun s i rd result hcv h => ?_⟩
  · have hpos : 0 < c.p := by omega
    refine ⟨rfl, rfl, fun q => ⟨Ec.add_infinity_left c q, Ec.add_infinity_right c q⟩,
      fun x y => ⟨_, rfl, Ec.residue_toNat _ hpos hlt⟩, fun x y => ⟨?_, Ec.double_of_not_invertible, fun hy v hv => ?_⟩,
      fun x1 y1 x2 y2 => ⟨?_, ?_, fun hne => ⟨Ec.add_of_not_invertible hne, fun v hv => ?_⟩⟩⟩
    · rintro rfl
      exact Ec.double_of_y_zero c x
    · rw [Ec.double_of_inverse hy hv]
      exact Ec.slopeResult_chord hpos hlt
    · rintro rfl hopp
      exact Ec.add_of_opposite hopp
    · rintro rfl hopp rfl
      exact Ec.add_self hopp
    · rw [Ec.add_of_inverse hne hv]
      exact Ec.slopeResult_chord hpos hlt
  · have hexec : exec i s = .next (s.finishPoint rd (State.pointRecords result) result) := by
      obtain ⟨ra, rfl, ha, rfl⟩ | ⟨ra, rb, rfl, ha, hb, rfl⟩ | ⟨ra, rfl, ha, rfl⟩ := h
      · exact execEcNeg_onCurve hcv ha
      · exact execEcAdd_onCurve hcv ha hb
      · exact execEcDbl_onCurve hcv ha
    refine ⟨?_, ?_⟩
    · rintro rfl
      obtain ⟨hraise, hreg, hmem, hctrl, htrace⟩ := notInvertible_spec s []
      exact ⟨_, hexec, hraise, hctrl, hreg, hmem, htrace.trace_eq⟩
    · rintro r rfl
      exact ⟨_, hexec, writesPoint_spec s _ rd r⟩

/-- Settles O57: the loop as a run, and the one end of the two commands. -/
theorem ecMulPub : Obligations.EcMulPub := by
  refine ⟨fun c p k => ?_, fun s i rd ks p hcv h => ?_⟩
  · obtain ⟨n, r, q, hr0, hq0, hrun⟩ := Ec.exists_mulRun_scalarMultiply c p k
    refine ⟨n, r, q, hrun.le_size, hr0, hq0,
      fun i hi => ⟨fun hbit => ?_, fun hbit => ?_, fun hlast => ?_, fun hlast => ?_⟩, hrun.iterations, hrun.result, fun hn => ?_⟩
    · rw [← hrun.accumulates i hi, Ec.accumulate_of_bit hbit]
    · exact Option.some_injective _ ((hrun.accumulates i hi).symm.trans (Ec.accumulate_of_no_bit hbit))
    · rw [← hrun.advances i hi, Ec.advance_of_not_last hlast]
    · exact Option.some_injective _ ((hrun.advances i hi).symm.trans (Ec.advance_of_last hlast.ge))
    · obtain ⟨hnone, hfail⟩ := hrun.failure hn
      exact ⟨hnone, hfail.imp Ec.accumulate_eq_none Ec.advance_eq_none⟩
  · intro m records
    have hexec : exec i s = .next (s.finishPoint rd records m.2) := by
      have hrecords : records = Ec.mulRecords 0 m.1 := by simp [records, Ec.mulRecords]
      rw [hrecords]
      obtain ⟨ra, rfl, rfl, ha⟩ | ⟨rfl, hgv, rfl⟩ := h
      · exact execEcMul_onCurve hcv ha
      · exact execEcPub_configured hcv hgv
    refine ⟨fun hnone => ?_, fun r hsome => ?_⟩
    · rw [hnone] at hexec
      exact ⟨_, hexec, notInvertible_spec s records⟩
    · rw [hsome] at hexec
      exact ⟨_, hexec, writesPoint_spec s records rd r⟩

/-- Settles O58, by the outcomes of encryption. -/
theorem ecEncWritesBothPoints : Obligations.EcEncWritesBothPoints := by
  refine ⟨fun s rd ra rb ks hodd => ?_, fun s rd ra rb ks heven hcv hgv ha hb => ?_⟩
  · exact ⟨_, execEcEnc_odd hodd, ⟨rfl, rfl⟩, onlyStatusWritten_complete s s.status _⟩
  · refine ⟨fun c1 shared c2 hkg hkp hsum => ?_, fun hkg => ?_, fun c1 hkg hfail => ?_⟩
    · exact ⟨_, execEcEnc_of_points hcv heven hgv ha hb (ecEncrypt_of_sum hkg hkp hsum), writesPoints_spec s _ rd c1 c2⟩
    · exact ⟨_, execEcEnc_not_invertible hcv heven hgv ha hb (ecEncrypt_of_base_none hkg), notInvertible_spec s _⟩
    · have hfails := @execEcEnc_not_invertible s rd ra rb ks hcv heven hgv ha hb
      obtain hkp | ⟨shared, hkp, hsum⟩ := hfail
      · exact ⟨_, hfails (ecEncrypt_of_shared_none hkg hkp), notInvertible_spec s _⟩
      · exact ⟨_, hfails (ecEncrypt_of_sum_none hkg hkp hsum), notInvertible_spec s _⟩

/-- Settles O59, by the outcomes of decryption. -/
theorem ecDecWritesThePoint : Obligations.EcDecWritesThePoint := by
  intro s rd ra rb ks hcv ha hb
  have hexec := execEcDec_onCurve (rd := rd) (ks := ks) hcv ha hb
  refine ⟨fun shared m hdc hsum => ?_, fun hfail => ?_⟩
  · rw [ecDecrypt_of_shared hdc, hsum] at hexec
    exact ⟨_, hexec, writesPoint_spec s _ rd m⟩
  · have hdec : ecDecrypt s.curve (s.readPr ra) (s.readPr rb) (s.readSk ks) =
        (Ec.mulRecords 0 (Ec.scalarMultiply s.curve (s.readPr ra) (s.readSk ks)).1, none) := by
      obtain hdc | ⟨shared, hdc, hsum⟩ := hfail
      · exact ecDecrypt_of_shared_none hdc
      · rw [ecDecrypt_of_shared hdc, hsum]
    rw [hdec] at hexec
    exact ⟨_, hexec, notInvertible_spec s _⟩

/-! ### Reduced results -/

/-- A point that has passed the on-curve check is reduced (47_ec.md R294, R306). -/
theorem reduced_of_checked {c : Curve} {p : Point} (h : ¬ Ec.onCurve c p = false) : Ec.Reduced c.p p :=
  Ec.reduced_of_onCurve (by simpa using h)

/-- When the command succeeds, each of these point registers has been written and its point's coordinates are
below p. -/
def Reduces (p : Nat) (regs : List PReg) (o : Outcome) : Prop :=
  ∀ t, o = .next t → t.errcode = 0 → ∀ rd ∈ regs, t.prWritten[rd] = true ∧ Ec.Reduced p t.pr[rd]

theorem HoldsPoint.reduced {t : State} {rd : PReg} {p : Nat} {r : Point} (h : HoldsPoint t rd r) (hr : Ec.Reduced p r) :
    t.prWritten[rd] = true ∧ Ec.Reduced p t.pr[rd] := ⟨h.1, h.2.symm ▸ hr⟩

section Reduces

variable {s : State} {p : Nat} {regs : List PReg}

theorem Reduces.raise (e : ErrorKind) : Reduces p regs (.next (s.raise e)) := by
  rintro t ⟨⟩ h
  exact absurd h e.code_ne_zero

theorem Reduces.ite {c : Prop} [Decidable c] {o o' : Outcome} (h : c → Reduces p regs o)
    (h' : ¬ c → Reduces p regs o') : Reduces p regs (if c then o else o') := by
  split
  · exact h ‹_›
  · exact h' ‹_›

theorem Reduces.finishPoint {rd : PReg} {records : List (Nat × List Byte)} {result : Option Point}
    (h : ∀ r, result = some r → Ec.Reduced p r) : Reduces p [rd] (.next (s.finishPoint rd records result)) := by
  cases result with
  | none => exact .raise (s := s.emit records) .nonInvertible
  | some r =>
    rintro t ⟨⟩ - rd' hrd
    obtain rfl := List.mem_singleton.1 hrd
    obtain ⟨-, hholds, -⟩ := writesPoint_spec s records rd' r
    exact hholds.reduced (h r rfl)

theorem reduced_ecDecrypt {c : Curve} {c1 c2 r : Point} {k : Word256} (hp : 0 < c.p) (h1 : Ec.Reduced c.p c1)
    (h2 : Ec.Reduced c.p c2) (h : (ecDecrypt c c1 c2 k).2 = some r) : Ec.Reduced c.p r := by
  cases hdc : (Ec.scalarMultiply c c1 k).2 with
  | none => rw [ecDecrypt_of_shared_none hdc] at h; cases h
  | some shared =>
    rw [ecDecrypt_of_shared hdc] at h
    exact Ec.reduced_add hp h2 (Ec.reduced_neg hp (Ec.reduced_scalarMultiply hp h1 hdc)) h

theorem reduced_ecEncrypt {c : Curve} {g m pu : Point} {r : Point × Point} {k : Word256} (hp : 0 < c.p)
    (hg : Ec.Reduced c.p g) (hm : Ec.Reduced c.p m) (hpu : Ec.Reduced c.p pu)
    (h : (ecEncrypt c g m pu k).2 = some r) : Ec.Reduced c.p r.1 ∧ Ec.Reduced c.p r.2 := by
  cases hkg : (Ec.scalarMultiply c g k).2 with
  | none => rw [ecEncrypt_of_base_none hkg] at h; cases h
  | some c1 =>
    cases hkp : (Ec.scalarMultiply c pu k).2 with
    | none => rw [ecEncrypt_of_shared_none hkg hkp] at h; cases h
    | some shared =>
      cases hsum : Ec.add c m shared with
      | none => rw [ecEncrypt_of_sum_none hkg hkp hsum] at h; cases h
      | some c2 =>
        cases (congrArg Prod.snd (ecEncrypt_of_sum hkg hkp hsum)).symm.trans h
        exact ⟨Ec.reduced_scalarMultiply hp hg hkg, Ec.reduced_add hp hm (Ec.reduced_scalarMultiply hp hpu hkp) hsum⟩

theorem Reduces.writePoints {rd : PReg} {records : List (Nat × List Byte)} {c1 c2 : Point} (h1 : Ec.Reduced p c1)
    (h2 : Ec.Reduced p c2) :
    Reduces p [rd, rd + 1] (.next ((((s.emit records).writePr rd c1).writePr (rd + 1) c2).finish)) := by
  rintro t ⟨⟩ - rd' hrd
  obtain ⟨-, hc1, hc2, -⟩ := writesPoints_spec s records rd c1 c2
  rcases List.mem_pair.1 hrd with rfl | rfl
  · exact hc1.reduced h1
  · exact hc2.reduced h2

end Reduces

section Inv

variable {s : State} (hs : s.Inv)
include hs

/-- The modulus is positive where a curve is set (47_ec.md R291). -/
theorem State.Inv.curve_p_pos (hcv : ¬ s.status.ecCv = false) : 0 < s.curve.p := by
  obtain ⟨hp, -⟩ := hs.curve (by simpa using hcv)
  omega

/-- The base point is reduced where one is set (47_ec.md R306). -/
theorem State.Inv.reduced_base (hgv : ¬ s.status.ecGv = false) : Ec.Reduced s.curve.p s.ecG :=
  Ec.reduced_of_onCurve (hs.base (by simpa using hgv)).2

/-- EC_ENC writes two reduced points (47_ec.md R301). -/
theorem execEcEnc_reduces (rd ra rb : PReg) (ks : SReg) : Reduces s.curve.p [rd, rd + 1] (execEcEnc rd ra rb ks s) := by
  refine .ite (fun _ => .raise _) fun hodd => .ite (fun _ => .raise _) fun hset => .ite (fun _ => .raise _) fun ha =>
    .ite (fun _ => .raise _) fun hb => ?_
  obtain ⟨hcv, hgv⟩ := not_or.1 hset
  have hred := fun r h => reduced_ecEncrypt (r := r) (k := s.readSk ks) (hs.curve_p_pos hcv) (hs.reduced_base hgv)
    (reduced_of_checked ha) (reduced_of_checked hb) h
  dsimp only
  split
  · exact .raise (s := s.emit _) .nonInvertible
  · next r hr => exact .writePoints (hred r hr).1 (hred r hr).2

end Inv

/-- Settles O60: each command's checks give reduced operands, and its computation keeps points reduced. -/
theorem arithmeticResultsAreReduced : Obligations.ArithmeticResultsAreReduced := by
  intro i s t rd hs hi h herr hrd
  have hred : Reduces s.curve.p (destinationPoints i) (exec i s) := by
    cases i with
    | ecNeg rd ra =>
      refine .ite (fun _ => .raise _) fun hcv => .ite (fun _ => .raise _) fun ha => .finishPoint ?_
      rintro r ⟨⟩
      exact Ec.reduced_neg (hs.curve_p_pos hcv) (reduced_of_checked ha)
    | ecAdd rd ra rb =>
      exact .ite (fun _ => .raise _) fun hcv => .ite (fun _ => .raise _) fun ha => .ite (fun _ => .raise _) fun hb =>
        .finishPoint fun _ => Ec.reduced_add (hs.curve_p_pos hcv) (reduced_of_checked ha) (reduced_of_checked hb)
    | ecDbl rd ra =>
      exact .ite (fun _ => .raise _) fun hcv => .ite (fun _ => .raise _) fun ha =>
        .finishPoint fun _ => Ec.reduced_double (hs.curve_p_pos hcv)
    | ecMul rd ra ks =>
      exact .ite (fun _ => .raise _) fun hcv => .ite (fun _ => .raise _) fun ha =>
        .finishPoint fun _ => Ec.reduced_scalarMultiply (hs.curve_p_pos hcv) (reduced_of_checked ha)
    | ecPub rd ks =>
      refine .ite (fun _ => .raise _) fun hset => ?_
      obtain ⟨hcv, hgv⟩ := not_or.1 hset
      exact .finishPoint fun _ => Ec.reduced_scalarMultiply (hs.curve_p_pos hcv) (hs.reduced_base hgv)
    | ecEnc rd ra rb ks => exact execEcEnc_reduces hs rd ra rb ks
    | ecDec rd ra rb ks =>
      exact .ite (fun _ => .raise _) fun hcv => .ite (fun _ => .raise _) fun ha => .ite (fun _ => .raise _) fun hb =>
        .finishPoint fun _ => reduced_ecDecrypt (hs.curve_p_pos hcv) (reduced_of_checked ha) (reduced_of_checked hb)
    | _ => simp [mayBeNonInvertible] at hi
  obtain ⟨hwritten, hpoint⟩ := hred t h herr rd hrd
  exact ⟨hwritten, hpoint.eq_infinity_or_affine⟩

end Sys2Proof.Machine
end

section
/-! SUPPORT. Over an odd prime the unit computes in the group of points of Mathlib's elliptic curves (47_ec.md R300,
R301, R324): each point the unit holds represents one point of the group, and addition, doubling, negation and scalar
multiplication represent the group's. -/

namespace Sys2Proof.Machine

/-- The curve y² = x³ + a·x + b over the integers modulo p (47_ec.md R294). -/
def Curve.weierstrass (c : Curve) : WeierstrassCurve.Affine (ZMod c.p) := ⟨0, 0, 0, c.a, c.b⟩

section

variable (c : Curve)

@[simp] theorem Curve.weierstrass_a₁ : c.weierstrass.a₁ = 0 := rfl
@[simp] theorem Curve.weierstrass_a₂ : c.weierstrass.a₂ = 0 := rfl
@[simp] theorem Curve.weierstrass_a₃ : c.weierstrass.a₃ = 0 := rfl
@[simp] theorem Curve.weierstrass_a₄ : c.weierstrass.a₄ = c.a := rfl
@[simp] theorem Curve.weierstrass_a₆ : c.weierstrass.a₆ = c.b := rfl

/-! The group law's formulas, as the rules write them (47_ec.md R295 to R297). -/

@[simp] theorem Curve.weierstrass_negY (x y : ZMod c.p) : c.weierstrass.negY x y = -y := by
  simp [WeierstrassCurve.Affine.negY]

@[simp] theorem Curve.weierstrass_addX (x1 x2 m : ZMod c.p) : c.weierstrass.addX x1 x2 m = m ^ 2 - x1 - x2 := by
  simp [WeierstrassCurve.Affine.addX]

@[simp] theorem Curve.weierstrass_addY (x1 x2 y1 m : ZMod c.p) :
    c.weierstrass.addY x1 x2 y1 m = m * (x1 - (m ^ 2 - x1 - x2)) - y1 := by
  rw [WeierstrassCurve.Affine.addY, weierstrass_negY, WeierstrassCurve.Affine.negAddY, weierstrass_addX]
  ring

end

namespace Ec

/-- A point of the unit, with its coordinates below p, is the group's point with those coordinates modulo p. -/
inductive Represents (c : Curve) : Point → c.weierstrass.Point → Prop
  | infinity : Represents c .infinity .zero
  | affine {x y : Word256} (hx : x.toNat < c.p) (hy : y.toNat < c.p)
      (h : c.weierstrass.Nonsingular (x.toNat : ZMod c.p) (y.toNat : ZMod c.p)) :
      Represents c (.affine x y) (.some _ _ h)

section Prime

variable {c : Curve} (hc : c.overPrime)

/-! ### Numbers modulo p -/

/-- Numbers below p are equal when they are equal modulo p. -/
theorem word_eq_of_cast_eq {p : Nat} {x y : Word256} (hx : x.toNat < p) (hy : y.toNat < p)
    (h : (x.toNat : ZMod p) = y.toNat) : x = y :=
  BitVec.eq_of_toNat_eq (Nat.ModEq.eq_of_lt_of_lt ((ZMod.natCast_eq_natCast_iff _ _ p).1 h) hx hy)

/-- A stored residue is its number modulo p (47_ec.md R290). -/
theorem cast_residue (v : Int) {p : Nat} (hp : 0 < p) (hlt : p < 2 ^ 256) :
    ((residue v p).toNat : ZMod p) = v := by
  rw [← Int.cast_natCast, residue_toNat v hp hlt, ZMod.intCast_mod]

/-- A point of the group has one representation. -/
theorem Represents.unique {p q : Point} {P : c.weierstrass.Point} (hp : Represents c p P) (hq : Represents c q P) :
    p = q := by
  cases hp with
  | infinity => cases hq; rfl
  | affine hx hy h =>
    generalize hP : WeierstrassCurve.Affine.Point.some _ _ h = P at hq
    cases hq with
    | infinity => cases hP
    | affine hx' hy' h' =>
      injection hP with hX hY
      rw [word_eq_of_cast_eq hx hx' hX, word_eq_of_cast_eq hy hy' hY]

theorem Represents.of_coordinates {x y : Word256} {X Y : ZMod c.p} (hx : x.toNat < c.p) (hy : y.toNat < c.p)
    (hX : (x.toNat : ZMod c.p) = X) (hY : (y.toNat : ZMod c.p) = Y) (h : c.weierstrass.Nonsingular X Y) :
    Represents c (.affine x y) (.some _ _ h) := by
  subst hX hY
  exact .affine hx hy h

/-- The test for opposite points is the group's (47_ec.md R297). -/
theorem cast_eq_negY_iff {x y1 y2 : Nat} :
    (y1 : ZMod c.p) = c.weierstrass.negY x y2 ↔ (y1 + y2) % c.p = 0 := by
  rw [Curve.weierstrass_negY, eq_neg_iff_add_eq_zero, ← Nat.cast_add, ZMod.natCast_eq_zero_iff,
    Nat.dvd_iff_mod_eq_zero]

include hc

theorem two_ne_zero_of_overPrime : (2 : ZMod c.p) ≠ 0 := by
  obtain ⟨hp, hne, -⟩ := hc
  have : ((2 : Nat) : ZMod c.p) ≠ 0 := by
    rw [Ne, ZMod.natCast_eq_zero_iff, Nat.prime_dvd_prime_iff_eq hp Nat.prime_two]
    exact hne
  exact_mod_cast this

variable [Fact c.p.Prime]

/-- Modulo p the inverse is the field's, and a number that is not 0 has one (47_ec.md R292). -/
theorem exists_inverse_of_cast_ne_zero {u : Int} (hu : (u : ZMod c.p) ≠ 0) :
    ∃ v, inverse u c.p = some v ∧ (v : ZMod c.p) = (u : ZMod c.p)⁻¹ := by
  obtain ⟨hp, -, hlt, -⟩ := hc
  have hcop : Nat.Coprime (u % c.p).toNat c.p := by
    rw [Nat.coprime_comm, hp.coprime_iff_not_dvd, ← ZMod.natCast_eq_zero_iff, ← Int.cast_natCast,
      natCast_emod_toNat u hp.pos, ZMod.intCast_mod]
    exact hu
  obtain ⟨v, hinv, -, hmul⟩ := inverse_of_coprime hp.pos hlt hcop
  have hone := (ZMod.intCast_eq_intCast_iff _ _ _).2 hmul
  push_cast at hone
  exact ⟨v, hinv, eq_inv_of_mul_eq_one_right hone⟩

/-- EC_SETCURVE's check is the discriminant's (47_ec.md R310). -/
theorem weierstrass_Δ_ne_zero : c.weierstrass.Δ ≠ 0 := by
  have htwo := two_ne_zero_of_overPrime hc
  obtain ⟨hp, -, -, ha, hb, hsing⟩ := hc
  have hdisc : ((4 * c.a ^ 3 + 27 * c.b ^ 2 : Nat) : ZMod c.p) ≠ 0 := by
    rw [Ne, ZMod.natCast_eq_zero_iff, Nat.dvd_iff_mod_eq_zero]
    intro h
    exact hsing (.inr (by rwa [Nat.mod_eq_of_lt ha, Nat.mod_eq_of_lt hb]))
  have hΔ : c.weierstrass.Δ = -(2 ^ 4 * ((4 * c.a ^ 3 + 27 * c.b ^ 2 : Nat) : ZMod c.p)) := by
    push_cast
    simp only [WeierstrassCurve.Δ, WeierstrassCurve.b₂, WeierstrassCurve.b₄, WeierstrassCurve.b₆, WeierstrassCurve.b₈,
      Curve.weierstrass_a₁, Curve.weierstrass_a₂, Curve.weierstrass_a₃, Curve.weierstrass_a₄, Curve.weierstrass_a₆]
    ring
  rw [hΔ]
  exact neg_ne_zero.2 (mul_ne_zero (pow_ne_zero _ htwo) hdisc)

/-! ### Representation -/

/-- The on-curve test's equation is the curve's, all of whose points are nonsingular (47_ec.md R294). -/
theorem nonsingular_iff (x y : Nat) : c.weierstrass.Nonsingular (x : ZMod c.p) (y : ZMod c.p) ↔
    ((y : Int) ^ 2 - (x : Int) ^ 3 - c.a * x - c.b) % c.p = 0 := by
  rw [← WeierstrassCurve.Affine.equation_iff_nonsingular_of_Δ_ne_zero (weierstrass_Δ_ne_zero hc),
    WeierstrassCurve.Affine.equation_iff', ← Int.dvd_iff_emod_eq_zero, ← ZMod.intCast_zmod_eq_zero_iff_dvd]
  push_cast
  simp only [Curve.weierstrass_a₁, Curve.weierstrass_a₂, Curve.weierstrass_a₃, Curve.weierstrass_a₄,
    Curve.weierstrass_a₆]
  ring_nf

/-- A point is on the curve exactly when it represents a point of the group (47_ec.md R294). -/
theorem onCurve_iff_represents {p : Point} : onCurve c p = true ↔ ∃ P, Represents c p P := by
  cases p with
  | infinity => exact ⟨fun _ => ⟨_, .infinity⟩, fun _ => rfl⟩
  | affine x y =>
    rw [onCurve_affine_iff, ← nonsingular_iff hc]
    refine ⟨fun ⟨hx, hy, h⟩ => ⟨_, .affine hx hy h⟩, ?_⟩
    rintro ⟨P, hrep⟩
    cases hrep with
    | affine hx hy h => exact ⟨hx, hy, h⟩

/-- The `x3` and `y3` formulas are the group law's (47_ec.md R296, R297). -/
theorem represents_chord {m x1 y1 x2 : Int} {l X1 Y1 X2 : ZMod c.p} (hm : (m : ZMod c.p) = l)
    (hx1 : (x1 : ZMod c.p) = X1) (hy1 : (y1 : ZMod c.p) = Y1) (hx2 : (x2 : ZMod c.p) = X2)
    (h : c.weierstrass.Nonsingular (c.weierstrass.addX X1 X2 l) (c.weierstrass.addY X1 X2 Y1 l)) :
    Represents c (chord c m x1 y1 x2) (.some _ _ h) := by
  obtain ⟨hp, -, hlt, -⟩ := hc
  subst hm hx1 hy1 hx2
  refine .of_coordinates (residue_lt _ hp.pos) (residue_lt _ hp.pos) ?_ ?_ h
  · rw [cast_residue _ hp.pos hlt, ZMod.intCast_mod]
    push_cast
    rw [Curve.weierstrass_addX]
  · rw [cast_residue _ hp.pos hlt, ZMod.intCast_mod]
    push_cast
    rw [Curve.weierstrass_addY]

theorem represents_neg {p : Point} {P : c.weierstrass.Point} (h : Represents c p P) : Represents c (neg c p) (-P) := by
  cases h with
  | infinity => exact .infinity
  | @affine x y hx hy h =>
    obtain ⟨hp, -, hlt, -⟩ := hc
    refine .of_coordinates hx (residue_lt _ hp.pos) rfl ?_ _
    rw [cast_residue _ hp.pos hlt]
    simp

theorem represents_double {p : Point} {P : c.weierstrass.Point} (h : Represents c p P) :
    ∃ r, double c p = some r ∧ Represents c r (P + P) := by
  cases h with
  | infinity => exact ⟨_, rfl, .infinity⟩
  | @affine x y hx hy h =>
    by_cases hy0 : y = 0
    · subst hy0
      refine ⟨_, rfl, ?_⟩
      rw [WeierstrassCurve.Affine.Point.add_self_of_Y_eq (by simp)]
      exact .infinity
    · have hcast : (y.toNat : ZMod c.p) ≠ 0 := fun hz =>
        hy0 (word_eq_of_cast_eq hy (by simpa using (Nat.zero_le _).trans_lt hy) (by simpa using hz))
      have htwo : ((2 * (y.toNat : Int) : Int) : ZMod c.p) ≠ 0 := by
        push_cast
        exact mul_ne_zero (two_ne_zero_of_overPrime hc) hcast
      obtain ⟨v, hinv, hv⟩ := exists_inverse_of_cast_ne_zero hc htwo
      have hsub : (y.toNat : ZMod c.p) - c.weierstrass.negY x.toNat y.toNat =
          ((2 * (y.toNat : Int) : Int) : ZMod c.p) := by
        rw [Curve.weierstrass_negY, sub_neg_eq_add, ← two_mul]
        push_cast
        rfl
      have hne : (y.toNat : ZMod c.p) ≠ c.weierstrass.negY x.toNat y.toNat := fun he =>
        htwo (hsub.symm.trans (sub_eq_zero.2 he))
      refine ⟨_, double_of_inverse hy0 hinv, ?_⟩
      rw [WeierstrassCurve.Affine.Point.add_self_of_Y_ne hne]
      refine represents_chord hc ?_ (Int.cast_natCast _) (Int.cast_natCast _) (Int.cast_natCast _) _
      rw [WeierstrassCurve.Affine.slope_of_Y_ne rfl hne, hsub, ZMod.intCast_mod, div_eq_mul_inv, ← hv]
      push_cast
      simp

section Affine

variable {x1 y1 x2 y2 : Word256} {P Q : c.weierstrass.Point} (hP : Represents c (.affine x1 y1) P)
  (hQ : Represents c (.affine x2 y2) Q)
include hP hQ

/-- Two points with one x are opposite or equal (47_ec.md R297). -/
theorem represents_add_of_x_eq (hx : x1 = x2) :
    ∃ r, add c (.affine x1 y1) (.affine x2 y2) = some r ∧ Represents c r (P + Q) := by
  subst hx
  have hdbl := represents_double hc hP
  cases hP with
  | affine hx hy1 h1 =>
    cases hQ with
    | affine _ hy2 h2 =>
      by_cases hopp : (y1.toNat + y2.toNat) % c.p = 0
      · refine ⟨_, add_of_opposite hopp, ?_⟩
        rw [WeierstrassCurve.Affine.Point.add_of_Y_eq rfl (cast_eq_negY_iff.2 hopp)]
        exact .infinity
      · obtain rfl := word_eq_of_cast_eq hy1 hy2
          (WeierstrassCurve.Affine.Y_eq_of_Y_ne h1.1 h2.1 rfl (mt cast_eq_negY_iff.1 hopp))
        rwa [add_self hopp]

/-- Two points with different x add along the line through them (47_ec.md R297). -/
theorem represents_add_of_x_ne (hx : x1 ≠ x2) :
    ∃ r, add c (.affine x1 y1) (.affine x2 y2) = some r ∧ Represents c r (P + Q) := by
  cases hP with
  | affine hx1 hy1 h1 =>
    cases hQ with
    | affine hx2 hy2 h2 =>
      have hX : (x1.toNat : ZMod c.p) ≠ x2.toNat := fun he => hx (word_eq_of_cast_eq hx1 hx2 he)
      obtain ⟨v, hinv, hv⟩ := exists_inverse_of_cast_ne_zero hc (u := (x2.toNat : Int) - x1.toNat)
        (by push_cast; exact sub_ne_zero.2 hX.symm)
      refine ⟨_, add_of_inverse (fun h => hx h.1) hinv, ?_⟩
      rw [WeierstrassCurve.Affine.Point.add_of_X_ne hX]
      refine represents_chord hc ?_ (Int.cast_natCast _) (Int.cast_natCast _) (Int.cast_natCast _) _
      rw [WeierstrassCurve.Affine.slope_of_X_ne hX, ZMod.intCast_mod]
      push_cast at hv ⊢
      rw [hv, ← div_eq_mul_inv, ← neg_div_neg_eq, neg_sub, neg_sub]

end Affine

theorem represents_add {p q : Point} {P Q : c.weierstrass.Point} (hp : Represents c p P) (hq : Represents c q Q) :
    ∃ r, add c p q = some r ∧ Represents c r (P + Q) := by
  cases p with
  | infinity =>
    cases hp
    exact ⟨q, add_infinity_left c q, by rwa [← WeierstrassCurve.Affine.Point.zero_def, zero_add]⟩
  | affine x1 y1 =>
    cases q with
    | infinity =>
      cases hq
      exact ⟨_, rfl, by rwa [← WeierstrassCurve.Affine.Point.zero_def, add_zero]⟩
    | affine x2 y2 =>
      by_cases hx : x1 = x2
      · exact represents_add_of_x_eq hc hp hq hx
      · exact represents_add_of_x_ne hc hp hq hx

/-! ### Scalar multiplication -/

variable {m : Nat} {r q : Point} {R Q : c.weierstrass.Point}

theorem represents_accumulate (hr : Represents c r R) (hq : Represents c q Q) :
    ∃ r', accumulate c m r q = some r' ∧ Represents c r' (R + (m % 2) • Q) := by
  unfold accumulate
  split
  · next h => rw [h, one_nsmul]; exact represents_add hc hr hq
  · next h => rw [Nat.mod_two_ne_one.1 h, zero_nsmul, add_zero]; exact ⟨r, rfl, hr⟩

/-- Q after an iteration: its multiples are what the rest of the loop adds (47_ec.md R298). -/
theorem represents_advance (hq : Represents c q Q) :
    ∃ q' Q', advance c m q = some q' ∧ Represents c q' Q' ∧ (m / 2) • Q' = (m / 2) • 2 • Q := by
  unfold advance
  split
  · obtain ⟨q', hdbl, hq'⟩ := represents_double hc hq
    exact ⟨q', _, hdbl, hq', by rw [two_nsmul]⟩
  · next h => exact ⟨q, Q, rfl, hq, by rw [not_not.1 h, zero_nsmul, zero_nsmul]⟩

/-- The loop adds m·Q to R. -/
theorem represents_mulLoop {fuel : Nat} (hm : m < 2 ^ fuel) (hr : Represents c r R) (hq : Represents c q Q) :
    ∃ out, (mulLoop c fuel m r q).2 = some out ∧ Represents c out (R + m • Q) := by
  induction fuel generalizing m r q R Q with
  | zero =>
    obtain rfl : m = 0 := by simpa using hm
    exact ⟨r, rfl, by rwa [zero_nsmul, add_zero]⟩
  | succ fuel ih =>
    by_cases h0 : m = 0
    · subst h0
      exact ⟨r, rfl, by rwa [zero_nsmul, add_zero]⟩
    · obtain ⟨r', hadd, hr'⟩ := represents_accumulate hc (m := m) hr hq
      obtain ⟨q', Q', hdbl, hq', hQ'⟩ := represents_advance hc (m := m) hq
      have hsum : R + (m % 2) • Q + (m / 2) • Q' = R + m • Q := by
        rw [hQ', ← mul_nsmul, add_assoc, ← add_nsmul, Nat.mod_add_div]
      rw [mulLoop_of_iteration h0 hadd hdbl, ← hsum]
      exact ih (by rw [pow_succ] at hm; omega) hr' hq'

/-- Scalar multiplication is the group's (47_ec.md R298). -/
theorem represents_scalarMultiply (k : Word256) (hq : Represents c q Q) :
    ∃ out, (scalarMultiply c q k).2 = some out ∧ Represents c out (k.toNat • Q) := by
  obtain ⟨out, hout, hrep⟩ := represents_mulLoop hc (R := 0) k.isLt .infinity hq
  exact ⟨out, hout, by rwa [zero_add] at hrep⟩

/-- Decryption undoes encryption: m + k·(d·G) - d·(k·G) = m (47_ec.md R299). -/
theorem ecDecrypt_ecEncrypt {g m : Point} (hg : onCurve c g = true) (hm : onCurve c m = true) (d k : Word256) :
    ∃ pu c1 c2, (scalarMultiply c g d).2 = some pu ∧ (ecEncrypt c g m pu k).2 = some (c1, c2) ∧
      (ecDecrypt c c1 c2 d).2 = some m := by
  obtain ⟨G, hG⟩ := (onCurve_iff_represents hc).1 hg
  obtain ⟨M, hM⟩ := (onCurve_iff_represents hc).1 hm
  obtain ⟨pu, hpu, hPu⟩ := represents_scalarMultiply hc d hG
  obtain ⟨c1, hc1, hC1⟩ := represents_scalarMultiply hc k hG
  obtain ⟨kp, hkp, hKp⟩ := represents_scalarMultiply hc k hPu
  obtain ⟨c2, hc2, hC2⟩ := represents_add hc hM hKp
  obtain ⟨dc, hdc, hDc⟩ := represents_scalarMultiply hc d hC1
  obtain ⟨m', hm', hM'⟩ := represents_add hc hC2 (represents_neg hc hDc)
  have hcancel : M + k.toNat • d.toNat • G + -(d.toNat • k.toNat • G) = M := by
    rw [smul_comm, add_neg_cancel_right]
  rw [hcancel] at hM'
  refine ⟨pu, c1, c2, hpu, ?_, ?_⟩
  · rw [ecEncrypt_of_sum hc1 hkp hc2]
  · rw [ecDecrypt_of_shared hdc, hm', hM'.unique hM]

end Prime

end Ec

/-- Settles O48: each operation represents the group's, whose points are the curve's. -/
theorem primeCurveArithmeticIsClosed : Obligations.PrimeCurveArithmeticIsClosed := by
  intro c p q k hc hp hq
  have := Fact.mk hc.1
  have hiff {r : Point} := Ec.onCurve_iff_represents (p := r) hc
  obtain ⟨P, hP⟩ := hiff.1 hp
  obtain ⟨Q, hQ⟩ := hiff.1 hq
  obtain ⟨sum, hsum, hSum⟩ := Ec.represents_add hc hP hQ
  obtain ⟨dbl, hdbl, hDbl⟩ := Ec.represents_double hc hP
  obtain ⟨mul, hmul, hMul⟩ := Ec.represents_scalarMultiply hc k hP
  exact ⟨⟨sum, hsum, hiff.2 ⟨_, hSum⟩⟩, ⟨dbl, hdbl, hiff.2 ⟨_, hDbl⟩⟩, ⟨mul, hmul, hiff.2 ⟨_, hMul⟩⟩,
    hiff.2 ⟨_, Ec.represents_neg hc hP⟩⟩

/-- Settles O49: the laws hold in the group, and the loop's run has one iteration per bit. -/
theorem groupLawsOfThePrimeCurve : Obligations.GroupLawsOfThePrimeCurve := by
  intro c p k hc hp
  have := Fact.mk hc.1
  obtain ⟨P, hP⟩ := (Ec.onCurve_iff_represents hc).1 hp
  refine ⟨Ec.add_infinity_right c p, Ec.add_infinity_left c p, ?_, rfl, ?_, ?_, ?_⟩
  · obtain ⟨r, hr, hR⟩ := Ec.represents_add hc hP (Ec.represents_neg hc hP)
    rw [add_neg_cancel] at hR
    rw [hr, hR.unique .infinity]
  · obtain ⟨r, hr, hR⟩ := Ec.represents_scalarMultiply hc 1 hP
    rw [show (1 : Word256).toNat = 1 from rfl, one_nsmul] at hR
    rw [hr, hR.unique hP]
  · obtain ⟨r, hr, hR⟩ := Ec.represents_scalarMultiply hc 2 hP
    obtain ⟨r', hr', hR'⟩ := Ec.represents_double hc hP
    rw [show (2 : Word256).toNat = 2 from rfl, two_nsmul] at hR
    rw [hr, hr', hR.unique hR']
  · obtain ⟨n, r, q, -, -, hrun⟩ := Ec.exists_mulRun_scalarMultiply c p k
    obtain ⟨out, hout, -⟩ := Ec.represents_scalarMultiply hc k hP
    rw [hrun.iterations, List.length_map, List.length_range, hrun.eq_size_of_result hout]

/-- Settles O50: the round trip holds over every odd prime, and (1, 1, 11) is such a curve with (1, 5) on it. -/
theorem elGamalRoundTrip : Obligations.ElGamalRoundTrip := by
  intro m d k hm
  have hc : exampleCurve.overPrime := ⟨by norm_num [exampleCurve], by decide, by decide, by decide, by decide,
    by unfold singular; decide⟩
  have := Fact.mk hc.1
  exact Ec.ecDecrypt_ecEncrypt hc (by decide) hm d k

end Sys2Proof.Machine
end

section
/-! SUPPORT. Which error a command reports (60_exceptions.md R341, R342): `Reports` lists the ranks of the order, and
each command's checks stand in that order. -/

namespace Sys2Proof.Machine

/-- The outcome is a completion whose code is the first of R342's order that applies to the command; the decoder's own
rank, IllegalCommand, comes before any command is run. -/
inductive Reports (i : Instr) (s : State) : Outcome → Prop
  | notConfigured {t : State} (hnc : notConfigured s i = true) (ht : t.errcode = ErrorKind.notConfigured.code) :
      Reports i s (.next t)
  | length {t : State} {e : ErrorKind} (hnc : notConfigured s i = false) (hl : lengthError i = some e)
      (ht : t.errcode = e.code) : Reports i s (.next t)
  | operand {t : State} {e : ErrorKind} (hnc : notConfigured s i = false) (hl : lengthError i = none)
      (ho : OperandError s e i) (ht : t.errcode = e.code) : Reports i s (.next t)
  | computed {t : State} (hnc : notConfigured s i = false) (hl : lengthError i = none) (ho : ∀ e, ¬ OperandError s e i)
      (ht : t.errcode = 0 ∨ (mayBeNonInvertible i = true ∧ t.errcode = ErrorKind.nonInvertible.code)) :
      Reports i s (.next t)

/-! ### The checks in order -/

section Checks

variable {i : Instr} {s u : State} {o : Outcome} {c : Prop} [Decidable c] {e : ErrorKind}

/-- A test of the validity flags, then the rest of the command. -/
theorem Reports.checkConfigured (hc : c ↔ Machine.notConfigured s i = true)
    (h : Machine.notConfigured s i = false → Reports i s o) :
    Reports i s (if c then .next (u.raise .notConfigured) else o) := by
  split
  · next hf => exact .notConfigured (hc.1 hf) rfl
  · next hf => exact h (Bool.eq_false_of_not_eq_true fun hnc => hf (hc.2 hnc))

variable (hnc : Machine.notConfigured s i = false)
include hnc

/-- A test of LEN, then the rest of the command. -/
theorem Reports.checkLength (hl : lengthError i = if c then some e else none)
    (h : lengthError i = none → Reports i s o) : Reports i s (if c then .next (u.raise e) else o) := by
  split
  · next hf => exact .length hnc (hl.trans (if_pos hf)) rfl
  · next hf => exact h (hl.trans (if_neg hf))

variable (hl : lengthError i = none)
include hl

/-- A test of an operand, then the rest of the command. -/
theorem Reports.checkOperand (hc : c → OperandError s e i) (h : ¬ c → Reports i s o) :
    Reports i s (if c then .next (u.raise e) else o) := by
  split
  · next hf => exact .operand hnc hl (hc hf) rfl
  · next hf => exact h hf

variable (ho : ∀ e, ¬ OperandError s e i)
include ho

/-- Success, every check passed. -/
theorem Reports.success : Reports i s (.next u.finish) := .computed hnc hl ho (.inl rfl)

/-- The end of a computation of one point. -/
theorem Reports.finishPoint (hi : mayBeNonInvertible i = true) {rd : PReg} {r : List (Nat × List Byte)}
    (p : Option Point) : Reports i s (.next (u.finishPoint rd r p)) := by
  cases p with
  | none => exact .computed hnc hl ho (.inr ⟨hi, rfl⟩)
  | some p => exact .success hnc hl ho

end Checks

/-! ### Each command -/

section Commands

variable (s : State)

theorem execEcSetcurve_reports : Reports .ecSetcurve s (execEcSetcurve s) := by
  by_cases h : singular (s.slot 0) (s.slot 1) (s.slot 2)
  · rw [execEcSetcurve_singular h]
    exact .operand rfl rfl ⟨rfl, h⟩ rfl
  · rw [execEcSetcurve_nonsingular h]
    exact .success rfl rfl fun e he => h he.2

theorem execEcSetbase_reports : Reports .ecSetbase s (execEcSetbase s) :=
  .checkConfigured (by simp [notConfigured]) fun hnc => .checkOperand hnc rfl (fun hg => ⟨rfl, hg⟩) fun hg =>
    .success hnc rfl fun _ he => hg he.2

/-- Every command of a legal word reports the first error that applies. -/
theorem exec_reports {i : Instr} (hw : i.wellFormed = true) : Reports i s (exec i s) := by
  cases i with
  | nop | aesSb | aesSr | aesMc | aesIsb | aesIsr | aesImc | sha512Init | md5Init | ecLdpt | ecStpt | ecLdk =>
    exact .success rfl rfl fun _ => id
  | feiKey len | aesKeyexp len =>
    exact .checkLength rfl (by simp [lengthError, ← BitVec.toNat_inj]) fun hl => .success rfl hl fun _ => id
  | feiEnc len | feiDec len | aesEnc len | aesDec len =>
    exact .checkConfigured (by simp [notConfigured]) fun hnc =>
      .checkLength hnc (by simp [lengthError, ← BitVec.toNat_inj]) fun hl => .success hnc hl fun _ => id
  | aesArk rnd =>
    have hr : ¬ 10 < rnd.val := by simpa [Instr.wellFormed] using hw
    rw [exec, execAesArk, if_neg hr]
    exact .checkConfigured (by simp [notConfigured]) fun hnc => .success hnc rfl fun _ => id
  | hashUpdate len =>
    exact .checkConfigured (by simp [notConfigured]) fun hnc =>
      .checkLength hnc (by simp only [lengthError, ← not_le, ite_not]) fun hl => .success hnc hl fun _ => id
  | hashFinal => exact .checkConfigured (by simp [notConfigured]) fun hnc => .success hnc rfl fun _ => id
  | ecSetcurve => exact execEcSetcurve_reports s
  | ecSetbase => exact execEcSetbase_reports s
  | ecOncurve ra => exact .checkConfigured (by simp [notConfigured]) fun hnc => .success hnc rfl fun _ => id
  | ecNeg rd ra =>
    exact .checkConfigured (by simp [notConfigured]) fun hnc => .checkOperand hnc rfl (fun ha => ⟨rfl, ha⟩) fun ha =>
      .success hnc rfl fun _ he => ha he.2
  | ecDbl rd ra | ecMul rd ra ks =>
    exact .checkConfigured (by simp [notConfigured]) fun hnc => .checkOperand hnc rfl (fun ha => ⟨rfl, ha⟩) fun ha =>
      .finishPoint hnc rfl (fun _ he => ha he.2) rfl _
  | ecAdd rd ra rb | ecDec rd ra rb ks =>
    exact .checkConfigured (by simp [notConfigured]) fun hnc =>
      .checkOperand hnc rfl (fun ha => ⟨rfl, .inl ha⟩) fun ha =>
      .checkOperand hnc rfl (fun hb => ⟨rfl, .inr hb⟩) fun hb =>
      .finishPoint hnc rfl (fun _ he => he.2.elim ha hb) rfl _
  | ecPub rd ks =>
    exact .checkConfigured (by simp [notConfigured]) fun hnc => .finishPoint hnc rfl (fun _ => id) rfl _
  | ecEnc rd ra rb ks =>
    have heven : ¬ rd.val % 2 ≠ 0 := by simpa [Instr.wellFormed] using hw
    rw [exec, execEcEnc, if_neg heven]
    refine .checkConfigured (by simp [notConfigured]) fun hnc =>
      .checkOperand hnc rfl (fun ha => ⟨rfl, .inl ha⟩) fun ha =>
      .checkOperand hnc rfl (fun hb => ⟨rfl, .inr hb⟩) fun hb => ?_
    have ho : ∀ e, ¬ OperandError s e (.ecEnc rd ra rb ks) := fun _ he => he.2.elim ha hb
    dsimp only
    split
    · exact .computed hnc rfl ho (.inr ⟨rfl, rfl⟩)
    · exact .success hnc rfl ho

end Commands

/-! ### NotConfigured -/

/-- Only NotConfigured has its code (60_exceptions.md R340). -/
theorem ErrorKind.eq_notConfigured_of_code {e : ErrorKind} (h : e.code = 0x11) : e = .notConfigured := by
  cases e with
  | notConfigured => rfl
  | _ => exact absurd h (by decide)

theorem lengthError_ne_notConfigured (i : Instr) : lengthError i ≠ some .notConfigured := by
  cases i with
  | feiKey | aesKeyexp | feiEnc | feiDec | aesEnc | aesDec | hashUpdate => simp only [lengthError]; split <;> simp
  | _ => nofun

theorem not_operandError_notConfigured (s : State) (i : Instr) : ¬ OperandError s .notConfigured i := by
  cases i with
  | ecSetcurve | ecSetbase | ecNeg | ecAdd | ecDbl | ecMul | ecEnc | ecDec => exact fun h => by cases h.1
  | _ => exact id

/-- A command reports NotConfigured exactly when a construction it needs is missing (60_exceptions.md R341). -/
theorem Reports.code_eq_iff {i : Instr} {s t : State} (h : Reports i s (.next t)) :
    t.errcode = 0x11 ↔ Machine.notConfigured s i = true := by
  cases h with
  | notConfigured hnc ht => exact iff_of_true ht hnc
  | length hnc hl ht =>
    refine iff_of_false (fun hcode => ?_) (by simp [hnc])
    exact lengthError_ne_notConfigured i (ErrorKind.eq_notConfigured_of_code (ht.symm.trans hcode) ▸ hl)
  | operand hnc hl ho ht =>
    refine iff_of_false (fun hcode => ?_) (by simp [hnc])
    exact not_operandError_notConfigured s i (ErrorKind.eq_notConfigured_of_code (ht.symm.trans hcode) ▸ ho)
  | computed hnc hl ho ht =>
    refine iff_of_false (fun hcode => ?_) (by simp [hnc])
    obtain ht | ⟨-, ht⟩ := ht <;> exact absurd (ht.symm.trans hcode) (by decide)

/-! ### The obligation -/

/-- A command has at most one operand error (60_exceptions.md R342). -/
theorem OperandError.unique {s : State} {e e' : ErrorKind} {i : Instr} (h : OperandError s e i)
    (h' : OperandError s e' i) : e' = e := by
  cases i with
  | ecSetcurve | ecSetbase | ecNeg | ecAdd | ecDbl | ecMul | ecEnc | ecDec => exact h'.1.trans h.1.symm
  | _ => exact h.elim

/-- Settles O19: an illegal word is the decoder's rank, and the ranks of a command exclude each other. -/
theorem reportedErrorFollowsThePriority : Obligations.ReportedErrorFollowsThePriority := by
  refine ⟨fun s why hb hw => ?_, fun i s hw => ?_⟩
  · obtain ⟨-, -, hillegal⟩ := illegalWordsCompleteWithIllegalCommand
    obtain ⟨t, ht, ⟨hcode, -⟩, -⟩ := hillegal s why hb hw
    exact ⟨t, ht, hcode⟩
  · have hr := exec_reports s hw
    generalize exec i s = o at hr
    cases hr with
    | notConfigured hnc ht => exact ⟨_, rfl, fun _ => ht, by simp [hnc], by simp [hnc], by simp [hnc]⟩
    | length hnc hl ht =>
      refine ⟨_, rfl, by simp [hnc], fun _ e he => ?_, by simp [hl], by simp [hl]⟩
      rwa [← Option.some_injective _ (hl.symm.trans he)]
    | operand hnc hl ho ht =>
      exact ⟨_, rfl, by simp [hnc], by simp [hl], fun _ _ e he => ho.unique he ▸ ht, fun _ _ hno => absurd ho (hno _)⟩
    | computed hnc hl ho ht =>
      exact ⟨_, rfl, by simp [hnc], by simp [hl], fun _ _ e he => absurd he (ho e), fun _ _ _ => ht⟩

end Sys2Proof.Machine
end

section
/-! SUPPORT. DONE and the interrupt output (60_exceptions.md R347, R348): what the engine's step and a host write do to
DONE. -/

namespace Sys2Proof.Machine

variable {s t : State}

/-- The engine's step sets DONE if it completes a command and leaves it alone if the engine is idle
(40_command_cycle.md R104). -/
theorem engineStep_done (h : engineStep s = .next t) : t.status.done = (s.status.busy || s.status.done) := by
  rcases engineStep_cases h with ⟨hb, rfl⟩ | ⟨hb, -, rfl⟩ | ⟨hb, i, -, hexec⟩
  · simp [hb]
  · simp [hb]
  · obtain ⟨-, hdone, -⟩ := (Ending.of_exec hexec).completes
    simp [hb, hdone]

/-- A host write leaves DONE alone or clears it, by its W1C bit, an issue or a soft reset (60_exceptions.md R347). -/
theorem writeWindow_done_cases (s : State) {off : Nat} (v : Word) (h4 : off % 4 = 0) :
    (s.writeWindow off v).status.done = s.status.done ∨
    (s.writeWindow off v).status.done = false ∧ ((off = 0x008 ∧ v.getLsbD 1 = true) ∨
      (off = 0x00C ∧ s.status.busy = false) ∨ (off = 0x004 ∧ v.getLsbD 31 = true)) := by
  rcases writeWindow_cases s v h4 with ⟨hoff, hv, e⟩ | ⟨-, -, e⟩ | ⟨hoff, e⟩ | ⟨hoff, hb, e⟩ | ⟨-, -, e⟩ | ⟨-, -, e⟩ |
    ⟨-, e⟩ <;> rw [e]
  · exact .inr ⟨rfl, .inr (.inr ⟨hoff, hv⟩)⟩
  · exact .inl rfl
  · cases hv : v.getLsbD 1 with
    | false => exact .inl (by rw [State.writeStatus, hv]; exact Bool.and_true _)
    | true => exact .inr ⟨by rw [State.writeStatus, hv]; exact Bool.and_false _, .inl ⟨hoff, rfl⟩⟩
  · exact .inr ⟨rfl, .inr (.inl ⟨hoff, hb⟩)⟩
  · exact .inl rfl
  · exact .inl rfl
  · exact .inl rfl

/-- The engine's step is next: no input is left, or the next is its turn (40_command_cycle.md R103). -/
def EngineIsNext (s : State) : Prop := s.inputs = [] ∨ ∃ rest, s.inputs = .engineTurn :: rest

/-- The inputs that clear DONE: its W1C bit, an issue, a soft reset and a hardware reset (60_exceptions.md R347). -/
def ClearsDone (s : State) : Prop :=
  (∃ v rest, s.inputs = .write 0x008 4 v :: rest ∧ v.getLsbD 1 = true) ∨
  (∃ w rest, s.inputs = .write 0x00C 4 w :: rest ∧ s.status.busy = false) ∨
  (∃ v rest, s.inputs = .write 0x004 4 v :: rest ∧ v.getLsbD 31 = true) ∨
  ∃ rest, s.inputs = .hardwareReset :: rest

theorem step_done_of_engineIsNext (h : step s = .next t) (hi : EngineIsNext s) :
    t.status.done = (s.status.busy || s.status.done) := by
  obtain hi | ⟨rest, hi⟩ := hi
  · exact engineStep_done ((step_of_noInput hi).symm.trans h)
  · exact engineStep_done (s := { s with inputs := rest }) ((step_of_engineTurn hi).symm.trans h)

/-- Any other step leaves DONE alone or is one of those that clear it. -/
theorem step_done_cases (h : step s = .next t) :
    EngineIsNext s ∨ t.status.done = s.status.done ∨ (t.status.done = false ∧ ClearsDone s) := by
  rcases step_cases h with ⟨hi, -⟩ | ⟨rest, hi, -⟩ | ⟨off, rest, -, -, -, rfl⟩ | ⟨off, v, rest, hi, h4, -, rfl⟩ |
    ⟨rest, hi, rfl⟩
  · exact .inl (.inl hi)
  · exact .inl (.inr ⟨rest, hi⟩)
  · exact .inr (.inl rfl)
  · refine .inr ((writeWindow_done_cases _ v h4).imp_right fun ⟨hd, hw⟩ => ⟨hd, ?_⟩)
    rcases hw with ⟨rfl, hv⟩ | ⟨rfl, hb⟩ | ⟨rfl, hv⟩
    · exact .inl ⟨v, rest, hi, hv⟩
    · exact .inr (.inl ⟨v, rest, hi, hb⟩)
    · exact .inr (.inr (.inl ⟨v, rest, hi, hv⟩))
  · exact .inr (.inr ⟨rfl, .inr (.inr (.inr ⟨rest, hi⟩))⟩)

/-- Settles O21: the engine's step sets DONE or keeps it, and every other step keeps it or clears it. -/
theorem doneChangesOnlyByTheRules : Obligations.DoneChangesOnlyByTheRules := by
  intro s t h
  have hengine := step_done_of_engineIsNext h
  refine ⟨fun hb hi => by simp [hengine hi, hb], fun h0 h1 => ?_, fun h1 h0 => ?_⟩
  · rcases step_done_cases h with hi | hd | ⟨hd, -⟩
    · exact ⟨by simpa [hengine hi, h0] using h1, hi⟩
    · simp [hd, h0] at h1
    · simp [hd] at h1
  · rcases step_done_cases h with hi | hd | ⟨-, hclears⟩
    · simp [hengine hi, h1] at h0
    · simp [hd, h1] at h0
    · exact hclears

/-- Settles O20: a completion sets DONE and keeps CTRL, and each of the other accesses clears DONE or IRQ_EN. -/
theorem interruptFollowsDone : Obligations.InterruptFollowsDone := by
  refine ⟨fun s => Bool.and_eq_true_iff, fun i s t h => ?completion, fun s v hv => ?clear, fun s w hb => ?issue,
    fun s v hv => ?disable, fun s => ⟨rfl, rfl⟩⟩
  case completion =>
    obtain ⟨-, hdone, -, hctrl, -⟩ := (Ending.of_exec h).completes
    simp [State.irq, hdone, hctrl]
  case clear =>
    refine ⟨_, hostWrite_answered s v (by decide) (by decide), ?_⟩
    rw [State.writeWindow_status]
    simp [State.irq, State.writeStatus, hv]
  case issue =>
    refine ⟨_, hostWrite_answered s w (by decide) (by decide), ?_⟩
    rw [State.writeWindow_issue w hb]
    rfl
  case disable =>
    refine ⟨_, hostWrite_answered s v (by decide) (by decide), ?_⟩
    rw [State.writeWindow_ctrl]
    cases hr : v.getLsbD 31 with
    | true => rw [State.writeCtrl_softReset hr]; rfl
    | false => rw [State.writeCtrl_enables hr, hv]; exact Bool.and_false _

end Sys2Proof.Machine
end

section
/-! SUPPORT. Nothing a command computes depends on CTRL or on the trace sink (60_exceptions.md R352, 10_state.md R38): a
command does the same to a state with another CTRL and another sink. -/

namespace Sys2Proof.Machine

/-- The state with another CTRL and another trace sink. -/
def State.retrace (s : State) (c : Ctrl) (sink : List TraceRecord) : State := { s with ctrl := c, trace := sink }

section Reads

variable (s : State) (c : Ctrl) (sink : List TraceRecord)

@[simp] theorem State.retrace_status : (s.retrace c sink).status = s.status := rfl
@[simp] theorem State.retrace_msgLen : (s.retrace c sink).msgLen = s.msgLen := rfl
@[simp] theorem State.retrace_digestRun : (s.retrace c sink).digestRun = s.digestRun := rfl
@[simp] theorem State.retrace_dinBlock : (s.retrace c sink).dinBlock = s.dinBlock := rfl

@[simp] theorem State.retrace_bytes (a n : Nat) : (s.retrace c sink).bytes a n = s.bytes a n := by
  rw [bytes_eq_map_range, bytes_eq_map_range]
  rfl

@[simp] theorem State.retrace_dinBytes (n : Nat) : (s.retrace c sink).dinBytes n = s.dinBytes n :=
  s.retrace_bytes c sink _ n

@[simp] theorem State.retrace_slot (i : Nat) : (s.retrace c sink).slot i = s.slot i :=
  congrArg leToNat (s.retrace_bytes c sink _ _)

end Reads

/-- Emitting records changes the sink alone, so it leaves two such states alike. -/
theorem State.emit_retrace (s : State) (c : Ctrl) (sink : List TraceRecord) (r : List (Nat × List Byte)) :
    (s.retrace c sink).emit r = (s.emit r).retrace c ((s.retrace c sink).emit r).trace := by
  rw [emit_eq (s.retrace c sink) r, emit_eq s r]
  rfl

/-- The second outcome is the first with another CTRL and another sink. -/
def SameButTrace (o o' : Outcome) : Prop := ∃ t c sink, o = .next t ∧ o' = .next (State.retrace t c sink)

namespace SameButTrace

variable {s : State} {c : Ctrl} {sink : List TraceRecord}

theorem next {t : State} : SameButTrace (.next t) (.next (t.retrace c sink)) := ⟨t, c, sink, rfl, rfl⟩

theorem ite {p : Prop} [Decidable p] {o₁ o₁' o₂ o₂' : Outcome} (h₁ : SameButTrace o₁ o₁') (h₂ : SameButTrace o₂ o₂') :
    SameButTrace (if p then o₁ else o₂) (if p then o₁' else o₂') := by
  split
  · exact h₁
  · exact h₂

/-- The end of a command that emits records; `f` is its writes after them. -/
theorem emits (f : State → State) {r : List (Nat × List Byte)}
    (hf : ∀ t c sink, f (State.retrace t c sink) = (f t).retrace c sink) :
    SameButTrace (.next (f (s.emit r))) (.next (f ((s.retrace c sink).emit r))) := by
  rw [State.emit_retrace, hf]
  exact next

theorem finishPoint {rd : PReg} {r : List (Nat × List Byte)} (p : Option Point) :
    SameButTrace (.next (s.finishPoint rd r p)) (.next ((s.retrace c sink).finishPoint rd r p)) := by
  cases p with
  | none => exact .emits (fun t => t.raise .nonInvertible) fun _ _ _ => rfl
  | some p => exact .emits (fun t => (t.writePr rd p).finish) fun _ _ _ => rfl

/-- Every command in two such states. -/
theorem exec (i : Instr) (s : State) (c : Ctrl) (sink : List TraceRecord) :
    SameButTrace (Machine.exec i s) (Machine.exec i (s.retrace c sink)) := by
  cases i with
  | nop | sha512Init | md5Init | ecLdpt | ecStpt | ecLdk => exact .next
  | feiKey len =>
    exact .ite .next (.emits (fun t => ((t.writeBytes feiK1Addr _).setFeiKv true).finish) fun _ _ _ => rfl)
  | feiEnc len | feiDec len =>
    exact .ite .next (.ite .next (.emits (fun t => (t.writeDout 0 _).finish) fun _ _ _ => rfl))
  | aesKeyexp len =>
    simp only [Machine.exec, execAesKeyexp, State.retrace_dinBlock]
    generalize Aes.schedule s.dinBlock = ws
    exact .ite .next
      (.emits (fun t => ((t.writeBytes rkBase (Aes.scheduleBytes ws)).setAesKv true).finish) fun _ _ _ => rfl)
  | aesEnc len | aesDec len =>
    exact .ite .next (.ite .next (.emits (fun t => ((t.writeAesState _).writeDout 0 _).finish) fun _ _ _ => rfl))
  | aesSb | aesSr | aesMc | aesIsb | aesIsr | aesImc =>
    exact .emits (fun t => (t.writeAesState _).finish) fun _ _ _ => rfl
  | aesArk rnd =>
    exact .ite .next (.ite .next (.emits (fun t => (t.writeAesState _).finish) fun _ _ _ => rfl))
  | hashUpdate len =>
    simp only [Machine.exec, execHashUpdate, State.retrace_status, State.retrace_digestRun, State.retrace_dinBytes]
    generalize s.digestRun.absorbAll s.status.hashAlg (s.dinBytes len.toNat) = d
    exact .ite .next
      (.ite .next (.emits (fun t => ((t.storeDigest d).addMsgLen len.toNat).finish) fun _ _ _ => rfl))
  | hashFinal =>
    simp only [Machine.exec, execHashFinal, State.retrace_status, State.retrace_digestRun, State.retrace_msgLen]
    generalize s.digestRun.pad s.status.hashAlg s.msgLen = d
    exact .ite .next (.emits
      (fun t => (((t.storeDigest d).writeDout 0 (s.status.hashAlg.digest d.h)).setHashAct false).finish)
      fun _ _ _ => rfl)
  | ecSetcurve =>
    simp only [Machine.exec]
    by_cases h : singular (s.slot 0) (s.slot 1) (s.slot 2)
    · rw [execEcSetcurve_singular h, execEcSetcurve_singular (s := s.retrace c sink) h]
      exact .next
    · rw [execEcSetcurve_nonsingular h, execEcSetcurve_nonsingular (s := s.retrace c sink) h]
      exact .next
  | ecSetbase =>
    simp only [Machine.exec, execEcSetbase, State.retrace_slot]
    exact .ite .next (.ite .next .next)
  | ecOncurve ra => exact .ite .next .next
  | ecNeg rd ra | ecDbl rd ra | ecMul rd ra ks => exact .ite .next (.ite .next (.finishPoint _))
  | ecAdd rd ra rb | ecDec rd ra rb ks => exact .ite .next (.ite .next (.ite .next (.finishPoint _)))
  | ecPub rd ks => exact .ite .next (.finishPoint _)
  | ecEnc rd ra rb ks =>
    refine .ite .next (.ite .next (.ite .next (.ite .next ?_)))
    dsimp only
    rw [show ecEncrypt (s.retrace c sink).curve (s.retrace c sink).ecG ((s.retrace c sink).readPr ra)
      ((s.retrace c sink).readPr rb) ((s.retrace c sink).readSk ks) =
      ecEncrypt s.curve s.ecG (s.readPr ra) (s.readPr rb) (s.readSk ks) from rfl]
    obtain ⟨r, _ | ⟨c1, c2⟩⟩ := ecEncrypt s.curve s.ecG (s.readPr ra) (s.readPr rb) (s.readSk ks)
    · exact .emits (fun t => t.raise .nonInvertible) fun _ _ _ => rfl
    · exact .emits (fun t => ((t.writePr rd c1).writePr (rd + 1) c2).finish) fun _ _ _ => rfl

end SameButTrace

/-- Settles O22: the two runs are alike but for CTRL and the sink. -/
theorem nothingDependsOnTheTrace : Obligations.NothingDependsOnTheTrace := by
  intro i s t en sink h
  obtain ⟨t', c, sink', ht, hu⟩ := SameButTrace.exec i s { s.ctrl with traceEn := en } sink
  cases h.symm.trans ht
  exact ⟨_, hu, rfl⟩

end Sys2Proof.Machine
end

section
/-! SUPPORT. Both resets (70_reset_and_hazards.md R371 to R373): what an abandoned command loses, and what a command
issued after a reset reports. -/

namespace Sys2Proof.Machine

/-! ### What an abandoned command loses -/

/-- After the erasure of some ranges their bytes are unwritten and every other byte holds what it held. -/
theorem Memory.find?_foldl_erase (rs : List (Nat × Nat)) (m : Memory) (a : Nat) :
    find? (rs.foldl (fun m r => erase m r.1 r.2) m) a =
      if ∃ r ∈ rs, r.1 ≤ a ∧ a < r.1 + r.2 then none else find? m a := by
  induction rs generalizing m with
  | nil => simp
  | cons r rs ih =>
    rw [List.foldl_cons, ih, find?_erase]
    by_cases h : r.1 ≤ a ∧ a < r.1 + r.2
    · simp [h]
    · simp only [List.exists_mem_cons_iff, h, if_false, false_or]

/-- After the same value is set at some places they hold it and every other place holds what it held. -/
theorem getElem_foldl_set {α : Type} {n : Nat} (is : List (Fin n)) (x : α) (v : Vector α n) (j : Fin n) :
    (is.foldl (fun v i => v.set i.val x i.isLt) v)[j] = if j ∈ is then x else v[j] := by
  induction is generalizing v with
  | nil => simp
  | cons i is ih =>
    rw [List.foldl_cons, ih, Fin.getElem_fin, Vector.getElem_set]
    by_cases hi : i = j
    · simp [hi]
    · have hne : i.val ≠ j.val := fun h => hi (Fin.ext h)
      simp [hne, Ne.symm hi]

section Abandon

variable (s : State) (i : Instr)

/-- The bytes the command could write become unwritten (70_reset_and_hazards.md R372). -/
theorem State.abandon_mem :
    (s.abandon i).mem = (destinationBytes i).foldl (fun m r => Memory.erase m r.1 r.2) s.mem := by
  cases i with
  | hashUpdate | hashFinal => simp [abandon, destinationBytes, doutBase]
  | _ => rfl

/-- The point registers the command could write become unwritten (93_implementation_defined.md U3). -/
theorem State.abandon_points :
    (s.abandon i).pr = (destinationPoints i).foldl (fun v p => v.set p.val .infinity p.isLt) s.pr ∧
    (s.abandon i).prWritten = (destinationPoints i).foldl (fun v p => v.set p.val false p.isLt) s.prWritten := by
  cases i with
  | hashUpdate | hashFinal => simp [abandon, destinationPoints]
  | _ => exact ⟨rfl, rfl⟩

/-- The scalar registers the command could write become unwritten (93_implementation_defined.md U3). -/
theorem State.abandon_scalars :
    (s.abandon i).sk = (destinationScalars i).foldl (fun v k => v.set k.val 0 k.isLt) s.sk ∧
    (s.abandon i).skWritten = (destinationScalars i).foldl (fun v k => v.set k.val false k.isLt) s.skWritten := by
  cases i with
  | hashUpdate | hashFinal => simp [abandon, destinationScalars]
  | _ => exact ⟨rfl, rfl⟩

/-- EC_A, EC_B and EC_P are EC_SETCURVE's to write. -/
theorem State.sameCurve_abandon (hi : i ≠ .ecSetcurve) : SameCurve s (s.abandon i) := by
  cases i with
  | ecSetcurve => exact absurd rfl hi
  | hashUpdate | hashFinal => simp [abandon, SameCurve]
  | _ => exact ⟨rfl, rfl, rfl⟩

/-- EC_G and EC_N are EC_SETBASE's to write. -/
theorem State.sameBase_abandon (hi : i ≠ .ecSetbase) : SameBase s (s.abandon i) := by
  cases i with
  | ecSetbase => exact absurd rfl hi
  | hashUpdate | hashFinal => simp [abandon, SameBase]
  | _ => exact ⟨rfl, rfl⟩

/-- The digest registers are lost by the digest commands' rules alone (44_digest.md R221 to R227). -/
theorem State.sameDigestBut_abandon : SameDigestBut i s (s.abandon i) := by
  cases i with
  | sha512Init | md5Init | hashUpdate | hashFinal => simp [abandon, SameDigestBut, isDigestCommand]
  | _ => exact .of_same ⟨rfl, rfl, rfl, rfl⟩

theorem State.abandon_trace : (s.abandon i).trace = s.trace := by
  cases i with
  | hashUpdate | hashFinal => simp [abandon]
  | _ => rfl

/-- Of all storage and registers only the command's destinations change (70_reset_and_hazards.md R372). -/
theorem State.sameButDestinations_abandon : SameButDestinations i s (s.abandon i) := by
  obtain ⟨hpr, hprw⟩ := s.abandon_points i
  obtain ⟨hsk, hskw⟩ := s.abandon_scalars i
  refine ⟨fun a ha => ?_, fun p hp => ?_, fun k hk => ?_, s.sameCurve_abandon i, s.sameBase_abandon i,
    s.sameDigestBut_abandon i⟩
  · rw [stored, abandon_mem, Memory.find?_foldl_erase]
    exact if_neg ha
  · rw [hpr, hprw, getElem_foldl_set, getElem_foldl_set, if_neg hp, if_neg hp]
    exact ⟨rfl, rfl⟩
  · rw [hsk, hskw, getElem_foldl_set, getElem_foldl_set, if_neg hk, if_neg hk]
    exact ⟨rfl, rfl⟩

/-- The command's destinations become unwritten (70_reset_and_hazards.md R372). -/
theorem State.unwritten_abandon : (∀ a, InDestination i a → (s.abandon i).stored a = none) ∧
    (∀ p ∈ destinationPoints i, (s.abandon i).prWritten[p] = false) ∧
    ∀ k ∈ destinationScalars i, (s.abandon i).skWritten[k] = false := by
  obtain ⟨-, hprw⟩ := s.abandon_points i
  obtain ⟨-, hskw⟩ := s.abandon_scalars i
  refine ⟨fun a ha => ?_, fun p hp => ?_, fun k hk => ?_⟩
  · rw [stored, abandon_mem, Memory.find?_foldl_erase]
    exact if_pos ha
  · rw [hprw, getElem_foldl_set, if_pos hp]
  · rw [hskw, getElem_foldl_set, if_pos hk]

end Abandon

/-! ### A soft reset -/

section SoftReset

variable {s : State} {i : Instr}

/-- An idle engine has nothing to abandon, and an illegal word could write nothing (70_reset_and_hazards.md R372,
30_encoding.md R86). -/
theorem State.softReset_of_nothingPending (h : s.status.busy = false ∨ ∃ why, decode s.pend = .illegal why) :
    s.softReset = s.clearControl := by
  obtain hb | ⟨why, hw⟩ := h
  · simp [softReset, hb]
  · simp [softReset, abandonPending, pending, hw, Decoded.instr?]

/-- A busy engine abandons the pending command (70_reset_and_hazards.md R372). -/
theorem State.softReset_of_pending (hb : s.status.busy = true) (h : decode s.pend = .legal i) :
    s.softReset = (s.abandon i).clearControl := by
  simp [softReset, abandonPending, pending, hb, h, Decoded.instr?]

/-- The trace sink is the environment's, and a soft reset keeps it (10_state.md R38, 70_reset_and_hazards.md R372). -/
theorem State.softReset_trace (s : State) : s.softReset.trace = s.trace := by
  cases hb : s.status.busy with
  | false => rw [softReset_of_nothingPending (.inl hb)]; rfl
  | true =>
    cases hw : decode s.pend with
    | illegal why => rw [softReset_of_nothingPending (.inr ⟨why, hw⟩)]; rfl
    | legal i => rw [softReset_of_pending hb hw]; exact s.abandon_trace i

/-- Cleared, CTRL and STATUS read 0 (70_reset_and_hazards.md R371, R372). -/
theorem State.words_clearControl (s : State) : s.clearControl.ctrlWord = 0 ∧ s.clearControl.statusWord = 0 := by
  simp [ctrlWord, statusWord, bitAt, err, HashAlg.bit]

end SoftReset

/-- Settles O26: what is kept and what becomes unwritten is what abandoning the pending command leaves. -/
theorem softResetState : Obligations.SoftResetState := by
  intro s v hv
  obtain ⟨hctrl, hstatus⟩ : s.softReset.ctrlWord = 0 ∧ s.softReset.statusWord = 0 := State.words_clearControl _
  refine ⟨s.softReset, ?_, hctrl, hstatus, rfl, rfl, rfl, rfl, s.softReset_trace, fun h => ?_, fun i hb hw => ?_⟩
  · rw [hostWrite_answered s v (by decide) (by decide), State.writeWindow_ctrl, State.writeCtrl_softReset hv]
  · rw [State.softReset_of_nothingPending h]
    exact ⟨fun _ => rfl, sameRegisters_of_fields (by simp)⟩
  · rw [State.softReset_of_pending hb hw]
    exact ⟨s.sameButDestinations_abandon i, s.unwritten_abandon i⟩

/-! ### A hardware reset -/

theorem step_of_hardwareReset {s : State} {rest : List HostInput} (h : s.inputs = .hardwareReset :: rest) :
    step s = .next ({ s with inputs := rest } : State).tick.hardwareReset := by
  simp only [step, h]

/-- Settles O25, field by field of the reset state. -/
theorem hardwareResetState : Obligations.HardwareResetState := by
  intro s rest h
  obtain ⟨hctrl, hstatus⟩ := (({ s with inputs := rest } : State).tick.hardwareReset).words_clearControl
  refine ⟨_, step_of_hardwareReset h, hctrl, hstatus, rfl, rfl, rfl, rfl, rfl, fun a => rfl, fun i => ?_, fun k => ?_,
    rfl, rfl⟩
  · exact Vector.getElem_replicate i.isLt
  · exact Vector.getElem_replicate k.isLt

/-- Settles O23: no flag is set, so the invariant is about storage alone, and nothing is written. -/
theorem resetMeetsTheInvariant : Obligations.ResetMeetsTheInvariant :=
  ⟨State.inv_hardwareReset State.reset, State.inv_hardwareReset⟩

/-! ### A command issued after a reset -/

/-- With every validity flag 0 the commands that are not configured are those that need a construction. -/
theorem notConfigured_of_noFlags {s : State} (hfei : s.status.feiKv = false) (haes : s.status.aesKv = false)
    (hact : s.status.hashAct = false) (hcv : s.status.ecCv = false) (i : Instr) :
    notConfigured s i = !needsNoConstruction i := by
  cases i with
  | feiEnc | feiDec | aesEnc | aesDec | aesArk | hashUpdate | hashFinal | ecSetbase | ecOncurve | ecNeg | ecAdd | ecDbl
  | ecMul | ecPub | ecEnc | ecDec => simp [notConfigured, needsNoConstruction, hfei, haes, hact, hcv]
  | _ => rfl

/-- Settles O27: after either reset STATUS is 0, and the issue of a word leaves the validity flags 0. -/
theorem afterResetCommandsNeedConstruction : Obligations.AfterResetCommandsNeedConstruction := by
  intro s t ht
  have hst : t.status = State.reset.status := by rcases ht with rfl | rfl <;> rfl
  have hidle := congrArg Status.busy hst
  have haes := congrArg Status.aesKv hst
  have hfei := congrArg Status.feiKv hst
  have hcv := congrArg Status.ecCv hst
  have hact := congrArg Status.hashAct hst
  have hgv := congrArg Status.ecGv hst
  refine ⟨hidle, haes, hfei, hcv, hgv, hact, fun w => ⟨t.issue w, ?_, rfl, rfl, fun i hw hdec => ?_⟩⟩
  · rw [hostWrite_answered t w (by decide) (by decide), State.writeWindow_issue w hidle]
  · have hnc : notConfigured (t.issue w).tick i = !needsNoConstruction i :=
      notConfigured_of_noFlags hfei haes hact hcv i
    obtain ⟨r, hr, -⟩ := exec_ending i (t.issue w).tick
    have hcode := (hr ▸ exec_reports (t.issue w).tick hw).code_eq_iff
    refine ⟨r, (engineStep_legal rfl hdec).trans hr, fun hneeds => ?_, fun hneeds => ?_⟩
    · exact hcode.2 (by rw [hnc, hneeds]; rfl)
    · exact fun h => absurd (hcode.1 h) (by rw [hnc, hneeds]; decide)

end Sys2Proof.Machine
end
